-- ==== Sys2Proof/Word.lean ====
section
/-! DEFINITION. The word types of the motion-control block. -/

namespace Sys2Proof

/-- One byte of a serialised frame or response (R41). -/
abbrev Byte := BitVec 8

/-- A 32-bit operand or result field of a frame or response (R50, R51). -/
abbrev Word := BitVec 32

/-- A binary32 value, held as its 32-bit interchange pattern (R8 `f32`, R41): bit 31 is the sign. -/
abbrev F32 := BitVec 32

/-- A request: one 128-bit frame (R50). -/
abbrev Frame := BitVec 128

end Sys2Proof
end

