-- ==== Sys2Proof/Config.lean ====
section
/-! DEFINITION. The fixed constants of R6, the parameters of R7, and the functions of the `supplied` arithmetic. -/

namespace Sys2Proof

/-- ENC_DELTA_MODE (R7, D8): how wide the encoder subtraction is held. -/
inductive EncDeltaMode where
  | wide
  | wrap16
deriving DecidableEq, Repr

/-- VEL_TIE (R7, D10): the tie rule of the velocity rounding. -/
inductive VelTie where
  | away
  | even
deriving DecidableEq, Repr

/-- VEL_NARROW (R7, D11): how a velocity is narrowed to 16 bits. -/
inductive VelNarrow where
  | wrap
  | saturate
deriving DecidableEq, Repr

/-- INT32_OVERFLOW (R7, D12): what a 32-bit sum or difference out of range does. -/
inductive Int32Overflow where
  | wrap
  | fault
deriving DecidableEq, Repr

/-- FP_ARITH (R7, R11, D13): binary32 with round to nearest even, or a supplied set of total functions. -/
inductive FpArith where
  | binary32
  | supplied
deriving DecidableEq, Repr

/-- DIR_POLARITY (R7, D22): which direction line is high for a positive command. -/
inductive DirPolarity where
  | aPositive
  | bPositive
deriving DecidableEq, Repr

/-- FRAME_BYTE_ORDER (R7, D5): how a frame or a response travels as bytes. -/
inductive FrameByteOrder where
  | little
  | big
deriving DecidableEq, Repr

/-- The triple of velocity gains that VPID_GAINS_AT_RESET may supply (R7, D17). -/
structure Gains where
  kp : F32
  ki : F32
  kd : F32
deriving DecidableEq, Repr

/-- The model parameters of R7, the `cfg` of R5. A machine carries its own in `State.cfg` (DESIGN CHOICE, log 1). -/
structure Config where
  encDeltaMode : EncDeltaMode
  velTie : VelTie
  velNarrow : VelNarrow
  int32Overflow : Int32Overflow
  fpArith : FpArith
  vpidGainsAtReset : Option Gains
  ppidKpAtReset : Option F32
  dirPolarity : DirPolarity
  /-- PWM_PERIOD, the duty counts at 100 % duty; `none` is the spec's OPEN (log 5). -/
  pwmPeriod : Option Nat
  frameByteOrder : FrameByteOrder
deriving DecidableEq, Repr

/-- R7's default column. -/
def Config.default : Config where
  encDeltaMode := .wide
  velTie := .away
  velNarrow := .wrap
  int32Overflow := .wrap
  fpArith := .binary32
  vpidGainsAtReset := none
  ppidKpAtReset := none
  dirPolarity := .aPositive
  pwmPeriod := none
  frameByteOrder := .little

/-! The fixed constants of R6: each is a named constant with the source's value (I15). -/

/-- N_AXES. -/
def Config.nAxes : Nat := 2
/-- RAW_W: raw counter width in bits. -/
def Config.rawW : Nat := 16
/-- POS_W: cumulative position width in bits. -/
def Config.posW : Nat := 32
/-- VEL_W: velocity width in bits. -/
def Config.velW : Nat := 16
/-- WRAP_HI: the delta is corrected when greater than this. -/
def Config.wrapHi : Int := 32768
/-- WRAP_LO: the delta is corrected when less than this. -/
def Config.wrapLo : Int := -32768
/-- WRAP_SPAN: the correction amount. -/
def Config.wrapSpan : Int := 65536
/-- VEL_SCALE = 37/20 = 1.85, the numerator. -/
def Config.velScaleNum : Int := 37
/-- VEL_SCALE = 37/20 = 1.85, the denominator. -/
def Config.velScaleDen : Int := 20
/-- VPID_LIM: accumulator clamp, symmetric. -/
def Config.vpidLim : Int := 800
/-- VPID_HIST: error-history depth. -/
def Config.vpidHist : Nat := 3
/-- PPID_LIM: position output clamp, symmetric. -/
def Config.ppidLim : Int := 50
/-- GATE_LIM: global command clamp. -/
def Config.gateLim : Int := 1000
/-- PF_LIM: secondary clamp in PositionFollowing. -/
def Config.pfLim : Int := 200
/-- PF_DZ: dead-zone in PositionFollowing. -/
def Config.pfDz : Int := 120
/-- VC_DZ: dead-zone in VelocityControl. -/
def Config.vcDz : Int := 30

/-! The primitives of R11 under FP_ARITH = `supplied`: "any total functions", of which the model assumes nothing else.
They have no body (log 6): a claim about a machine with this arithmetic holds whatever they are. -/

/-- `f32_of_int` as supplied. -/
opaque Config.suppliedOfInt : Int → F32
/-- `f32_add` as supplied. -/
opaque Config.suppliedAdd : F32 → F32 → F32
/-- `f32_mul` as supplied. -/
opaque Config.suppliedMul : F32 → F32 → F32
/-- `f32_bits` as supplied. -/
opaque Config.suppliedBits : F32 → Word
/-- `f32_from_bits` as supplied. -/
opaque Config.suppliedFromBits : Word → F32
/-- `isnan` as supplied. -/
opaque Config.suppliedIsNaN : F32 → Bool
/-- `f32_gt` as supplied. -/
opaque Config.suppliedGt : F32 → F32 → Bool
/-- `f32_lt` as supplied. -/
opaque Config.suppliedLt : F32 → F32 → Bool
/-- `f32_trunc0` as supplied. -/
opaque Config.suppliedTrunc0 : F32 → Int
/-- `clampF` as supplied. -/
opaque Config.suppliedClampF : F32 → F32 → F32 → F32

end Sys2Proof
end

