-- ==== Sys2Proof/Syntax.lean ====
section
/-! DEFINITION. The operations of the opcode map (R55) as an inductive, and the assembly forms of R60 and R61. -/

namespace Sys2Proof

/-- An index in {1, 2} (R12). -/
inductive Idx where
  | one
  | two
deriving DecidableEq, Repr

/-- An encoder axis, 1 or 2 (R12, R52). -/
abbrev Axis := Idx

/-- A motor, 1 or 2 (R12, R52). -/
abbrev Motor := Idx

/-- The system mode as a GATE_APPLY operand (R53): VelocityControl or PositionFollowing. -/
inductive SysMode where
  | vc
  | pf
deriving DecidableEq, Repr

/-- The operations, one constructor per row of opcode_table.json (R55). Each operand has exactly the width R54 reads from the
frame, so every term is an instruction a frame can carry. -/
inductive Instr where
  | nop
  | encClear (axis : Axis) (raw : BitVec 16)
  | encUpdate (axis : Axis) (raw : BitVec 16)
  | encRead (axis : Axis)
  | vpidCompute (target actual : BitVec 16)
  | vpidReset
  | vpidSetParams (kp ki kd : Word)
  | ppidCompute (target actual : Word)
  | ppidSetParams (kp ki kd : Word)
  | gateApply (motor : Motor) (mode : SysMode) (cmd : Word)
  | statusRead
deriving DecidableEq, Repr

/-- A gain as the assembler takes it (R60): a decimal real `± digits / 10^places`, or a bit pattern `f32:0xHHHHHHHH`. -/
inductive GainLit where
  | decimal (neg : Bool) (digits places : Nat)
  | bits (pattern : Word)
deriving DecidableEq, Repr

/-- The assembly forms of R60 and the pseudo-instructions of R61. Operands are the written numbers, which may lie out of an
operand's range: `Asm.wf` says when they do not. -/
inductive Asm where
  | nop
  | encClear (axis : Axis) (raw : Int)
  | encUpdate (axis : Axis) (raw : Int)
  | encRead (axis : Axis)
  | vpidCompute (target actual : Int)
  | vpidReset
  | vpidSetParams (kp ki kd : GainLit)
  | ppidCompute (target actual : Int)
  | ppidSetParams (kp ki kd : GainLit)
  | gateApply (motor : Motor) (mode : SysMode) (cmd : Int)
  | statusRead
  | gateStop (motor : Motor)
  | stopAll
  | ppidSetKp (kp : GainLit)
deriving DecidableEq, Repr

end Sys2Proof
end

