-- ==== Sys2Proof/Decode.lean ====
section
/-! DEFINITION. The frame format (R50), the opcode map (R55) as mask and match rows, the decoder (R59) and the encoder. -/

namespace Sys2Proof

/-! ### The fields of a frame (R50) -/

/-- OPC, bits [127:120]. -/
def Frame.opc (f : Frame) : BitVec 8 := f.extractLsb' 120 8
/-- SEL, bit [119]. -/
def Frame.sel (f : Frame) : Bool := f.extractLsb' 119 1 == 1#1
/-- MODE, bit [118]. -/
def Frame.mode (f : Frame) : Bool := f.extractLsb' 118 1 == 1#1
/-- RSVD, bits [117:96]. -/
def Frame.rsvd (f : Frame) : BitVec 22 := f.extractLsb' 96 22
/-- Operand A, bits [95:64]. -/
def Frame.a (f : Frame) : Word := f.extractLsb' 64 32
/-- Operand B, bits [63:32]. -/
def Frame.b (f : Frame) : Word := f.extractLsb' 32 32
/-- Operand C, bits [31:0]. -/
def Frame.c (f : Frame) : Word := f.extractLsb' 0 32

/-- The frame with these fields and RSVD zero (R50). -/
def Frame.make (opc : BitVec 8) (sel mode : Bool) (a b c : Word) : Frame :=
  opc ++ BitVec.ofBool sel ++ BitVec.ofBool mode ++ 0#22 ++ a ++ b ++ c

/-- SEL = 0 selects 1 and SEL = 1 selects 2 (R52). -/
def idxOfSel (sel : Bool) : Idx := if sel then .two else .one

/-- The SEL bit of an axis or motor (R52). -/
def selOfIdx : Idx → Bool
  | .one => false
  | .two => true

/-- MODE = 0 is VelocityControl and MODE = 1 is PositionFollowing (R53). -/
def modeOfBit (mode : Bool) : SysMode := if mode then .pf else .vc

/-- The MODE bit of a mode (R53). -/
def bitOfMode : SysMode → Bool
  | .vc => false
  | .pf => true

/-! ### The opcode map (R55, opcode_table.json) -/

/-- The operations by name, one for each row of the opcode map. -/
inductive Opcode where
  | nop | encClear | encUpdate | encRead
  | vpidCompute | vpidReset | vpidSetParams
  | ppidCompute | ppidSetParams
  | gateApply | statusRead
deriving DecidableEq, Repr

/-- The OPC value of an operation (R55). -/
def Opcode.value : Opcode → BitVec 8
  | .nop => 0x00#8
  | .encClear => 0x01#8
  | .encUpdate => 0x02#8
  | .encRead => 0x03#8
  | .vpidCompute => 0x10#8
  | .vpidReset => 0x11#8
  | .vpidSetParams => 0x12#8
  | .ppidCompute => 0x20#8
  | .ppidSetParams => 0x22#8
  | .gateApply => 0x30#8
  | .statusRead => 0xF0#8

/-- The match column of opcode_table.json (R55). -/
def Opcode.pattern : Opcode → Frame
  | .nop           => 0x00000000000000000000000000000000#128
  | .encClear      => 0x01000000000000000000000000000000#128
  | .encUpdate     => 0x02000000000000000000000000000000#128
  | .encRead       => 0x03000000000000000000000000000000#128
  | .vpidCompute   => 0x10000000000000000000000000000000#128
  | .vpidReset     => 0x11000000000000000000000000000000#128
  | .vpidSetParams => 0x12000000000000000000000000000000#128
  | .ppidCompute   => 0x20000000000000000000000000000000#128
  | .ppidSetParams => 0x22000000000000000000000000000000#128
  | .gateApply     => 0x30000000000000000000000000000000#128
  | .statusRead    => 0xF0000000000000000000000000000000#128

/-- The mask column of opcode_table.json (R55): the bits outside it are the operation's operands. -/
def Opcode.mask : Opcode → Frame
  | .nop           => 0xFFFFFFFFFFFFFFFFFFFFFFFFFFFFFFFF#128
  | .encClear      => 0xFF7FFFFFFFFFFFFFFFFFFFFFFFFF0000#128
  | .encUpdate     => 0xFF7FFFFFFFFFFFFFFFFFFFFFFFFF0000#128
  | .encRead       => 0xFF7FFFFFFFFFFFFFFFFFFFFFFFFFFFFF#128
  | .vpidCompute   => 0xFFFFFFFFFFFF0000FFFF0000FFFFFFFF#128
  | .vpidReset     => 0xFFFFFFFFFFFFFFFFFFFFFFFFFFFFFFFF#128
  | .vpidSetParams => 0xFFFFFFFF000000000000000000000000#128
  | .ppidCompute   => 0xFFFFFFFF0000000000000000FFFFFFFF#128
  | .ppidSetParams => 0xFFFFFFFF000000000000000000000000#128
  | .gateApply     => 0xFF3FFFFF00000000FFFFFFFFFFFFFFFF#128
  | .statusRead    => 0xFFFFFFFFFFFFFFFFFFFFFFFFFFFFFFFF#128

/-- A frame f selects a row when (f AND mask) = match (R55). -/
def Opcode.selects (op : Opcode) (f : Frame) : Bool := f &&& op.mask == op.pattern

/-- The rows of opcode_table.json, in its order. -/
def opcodeTable : List Opcode :=
  [.nop, .encClear, .encUpdate, .encRead, .vpidCompute, .vpidReset, .vpidSetParams, .ppidCompute, .ppidSetParams,
   .gateApply, .statusRead]

/-! ### The decoder (R59) -/

/-- Operand assembly from the fields of a frame that selects the operation's row (R54). -/
def Opcode.assemble (op : Opcode) (f : Frame) : Instr :=
  match op with
  | .nop => .nop
  | .encClear => .encClear (idxOfSel f.sel) (f.c.extractLsb' 0 16)
  | .encUpdate => .encUpdate (idxOfSel f.sel) (f.c.extractLsb' 0 16)
  | .encRead => .encRead (idxOfSel f.sel)
  | .vpidCompute => .vpidCompute (f.a.extractLsb' 0 16) (f.b.extractLsb' 0 16)
  | .vpidReset => .vpidReset
  | .vpidSetParams => .vpidSetParams f.a f.b f.c
  | .ppidCompute => .ppidCompute f.a f.b
  | .ppidSetParams => .ppidSetParams f.a f.b f.c
  | .gateApply => .gateApply (idxOfSel f.sel) (modeOfBit f.mode) f.a
  | .statusRead => .statusRead

/-- Why a request spells no operation. -/
inductive DecodeError where
  /-- Not exactly 128 bits (R42). No request at all: it has no effect. -/
  | notAFrame
  /-- One of the 245 reserved OPC values (R57). ILLEGAL. -/
  | reservedOpcode
  /-- A defined OPC with a must-be-zero bit set (R56, R58). ILLEGAL. -/
  | mustBeZero
deriving DecidableEq, Repr

/-- The decoder, total on every 128-bit value (R59). -/
def decode (f : Frame) : Except DecodeError Instr :=
  match opcodeTable.find? (fun op => op.selects f) with
  | some op => .ok (op.assemble f)
  | none => .error (if opcodeTable.any (fun op => op.value == f.opc) then .mustBeZero else .reservedOpcode)

/-! ### The encoder (R50, R54, R55) -/

/-- The frame of an instruction: its OPC, its operands in their fields, zero everywhere else. A 16-bit operand has zeros
above it (R54). -/
def encode : Instr → Frame
  | .nop => Frame.make Opcode.nop.value false false 0 0 0
  | .encClear a raw => Frame.make Opcode.encClear.value (selOfIdx a) false 0 0 (raw.setWidth 32)
  | .encUpdate a raw => Frame.make Opcode.encUpdate.value (selOfIdx a) false 0 0 (raw.setWidth 32)
  | .encRead a => Frame.make Opcode.encRead.value (selOfIdx a) false 0 0 0
  | .vpidCompute t y => Frame.make Opcode.vpidCompute.value false false (t.setWidth 32) (y.setWidth 32) 0
  | .vpidReset => Frame.make Opcode.vpidReset.value false false 0 0 0
  | .vpidSetParams kp ki kd => Frame.make Opcode.vpidSetParams.value false false kp ki kd
  | .ppidCompute t y => Frame.make Opcode.ppidCompute.value false false t y 0
  | .ppidSetParams kp ki kd => Frame.make Opcode.ppidSetParams.value false false kp ki kd
  | .gateApply m md cmd => Frame.make Opcode.gateApply.value (selOfIdx m) (bitOfMode md) cmd 0 0
  | .statusRead => Frame.make Opcode.statusRead.value false false 0 0 0

/-! ### Frames and responses as bytes (R41, R42) -/

/-- The `n` bytes of a value of `8 * n` bits: byte k carries bits [8k+7 : 8k] under LITTLE, and [W-1-8k : W-8-8k] under
BIG, W being the value's width (R41). -/
def bytesOf (order : FrameByteOrder) (n : Nat) (v : BitVec (8 * n)) : List Byte :=
  match order with
  | .little => (List.range n).map fun k => v.extractLsb' (8 * k) 8
  | .big => (List.range n).map fun k => v.extractLsb' (8 * n - 8 - 8 * k) 8

/-- The number that bytes spell, the first the least significant. -/
def valueOfBytes : List Byte → Nat
  | [] => 0
  | b :: bs => b.toNat + 256 * valueOfBytes bs

/-- The sixteen bytes of a frame (R41). -/
def frameBytes (order : FrameByteOrder) (f : Frame) : List Byte := bytesOf order 16 f

/-- The frame that bytes spell: exactly sixteen of them, or none (R41, R42; more than sixteen: log 4). -/
def frameOfBytes (order : FrameByteOrder) (bs : List Byte) : Option Frame :=
  if bs.length = 16 then
    match order with
    | .little => some (BitVec.ofNat 128 (valueOfBytes bs))
    | .big => some (BitVec.ofNat 128 (valueOfBytes bs.reverse))
  else none

/-- The decoder on bytes: total on any list of them. -/
def decodeBytes (order : FrameByteOrder) (bs : List Byte) : Except DecodeError Instr :=
  match frameOfBytes order bs with
  | some f => decode f
  | none => .error .notAFrame

/-- The frame whose bits are `w`, numbered as opcode_table.json numbers them; bits from `nbits` up are zero (log 18). -/
def frameOfTableWord (nbits w : Nat) : Frame := BitVec.ofNat 128 (w % 2 ^ nbits)

/-- What the decoder reads from the table's word `w` of `nbits` bits, laid out as bytes and read back (log 18). -/
def decodeTableWord (nbits w : Nat) : Option Instr :=
  match decodeBytes .little (frameBytes .little (frameOfTableWord nbits w)) with
  | .ok i => some i
  | .error _ => none

end Sys2Proof
end

