-- ==== Sys2Proof/Machine/State.lean ====
section
/-! DEFINITION. The state of the motion-control block (R20), its inputs and outputs as data (R29), and the state after
reset (R31, R170). -/

namespace Sys2Proof.Machine

/-- One value for each index in {1, 2}: the per-axis and per-motor elements of R20. -/
structure Two (α : Type) where
  one : α
  two : α
deriving DecidableEq, Repr

/-- The error status codes of R150. -/
inductive ErrorCode where
  | illegal
  | unseeded
  | gainsUnset
  | numeric
  | overflow
deriving DecidableEq, Repr

/-- The status of a response (R150). Codes 6 and 7 are never produced, so no term stands for them. -/
inductive Status where
  | ok
  | error (e : ErrorCode)
deriving DecidableEq, Repr

/-- A response (R51): its status and its two results. `Response.bits` is its 96-bit value. -/
structure Response where
  status : Status
  r0 : Word
  r1 : Word
deriving DecidableEq, Repr

/-- An event at the block's input ports (R29). -/
inductive Input where
  /-- A whole 128-bit frame at the request port (R50). -/
  | request (f : Frame)
  /-- A transfer of bytes at the request port, in FRAME_BYTE_ORDER (R41). Only one of exactly sixteen bytes is a request
  (R42, log 4). -/
  | bytes (bs : List Byte)
  /-- RST asserted (R170). -/
  | reset
deriving DecidableEq, Repr

/-- The reasons the machine stops with a fault: none. The block never halts (R182) and its faults are responses, after
which it goes on (R152, R154), so nothing raises one. Safe: no step is cut short (log 11). -/
inductive Fault where
deriving DecidableEq, Repr

/-- The reasons the model gives an instruction no meaning. -/
inductive Refusal where
  /-- Raised only by an arm of `exec` that has no meaning yet; no arm is left. Safe: a refused step proves nothing. -/
  | notModelled (mnemonic : String)
deriving DecidableEq, Repr

/-- The state. The fields from `pos` to `fault` are the tuple of R20, all that persists in the block; `cfg`, `inputs` and
`responses` are the model's own and carry the `cfg`, the frames and the responses of R5 (log 1, 2, 3). -/
structure State where
  /-- The machine's parameters (R7). No step changes them (log 1). -/
  cfg : Config
  /-- `POS[a]`, i32 (R22). -/
  pos : Two (BitVec 32)
  /-- `LAST[a]`, Option i16 (R22); none is the unseeded axis. -/
  last : Two (Option (BitVec 16))
  /-- `E0`, the newest error, held as i32 (R23, log 9). -/
  e0 : BitVec 32
  /-- `E1` (R23). -/
  e1 : BitVec 32
  /-- `E2`, the oldest error (R23). -/
  e2 : BitVec 32
  /-- `ACC`, the accumulator (R23). -/
  acc : F32
  /-- `VKP` (R24). -/
  vkp : Option F32
  /-- `VKI` (R24). -/
  vki : Option F32
  /-- `VKD` (R24). -/
  vkd : Option F32
  /-- `PKP` (R25). -/
  pkp : Option F32
  /-- `DUTY[m]`, u16 (R26). -/
  duty : Two (BitVec 16)
  /-- `DIRA[m]` (R26). -/
  dira : Two Bool
  /-- `DIRB[m]` (R26). -/
  dirb : Two Bool
  /-- `FAULT`, sticky (R27). -/
  fault : BitVec 5
  /-- The events that have arrived and are not yet served, in arrival order (R44, log 2). -/
  inputs : List Input
  /-- The responses given, oldest first (R29, R182, log 3). -/
  responses : List Response
deriving DecidableEq, Repr

/-- R31 for a machine with parameters `cfg`, nothing waiting at its ports and nothing answered yet (log 13). -/
def State.resetWith (cfg : Config) : State where
  cfg := cfg
  pos := ⟨0, 0⟩
  last := ⟨none, none⟩
  e0 := 0
  e1 := 0
  e2 := 0
  acc := 0
  vkp := cfg.vpidGainsAtReset.map (·.kp)
  vki := cfg.vpidGainsAtReset.map (·.ki)
  vkd := cfg.vpidGainsAtReset.map (·.kd)
  pkp := cfg.ppidKpAtReset
  duty := ⟨0, 0⟩
  dira := ⟨false, false⟩
  dirb := ⟨false, false⟩
  fault := 0
  inputs := []
  responses := []

/-- The machine right after reset, with the default parameters of R7 (R31, R170). -/
def State.reset : State := State.resetWith Config.default

end Sys2Proof.Machine
end

