-- ==== Sys2Proof/Machine/Flags.lean ====
section
/-! DEFINITION. The status codes (R150), the FAULT register (R27) and the 96-bit response value (R51). The block has no other
flag (R33). -/

namespace Sys2Proof.Machine

/-- The code of an error in STATUS[2:0] (R150). -/
def ErrorCode.code : ErrorCode → BitVec 3
  | .illegal => 1
  | .unseeded => 2
  | .gainsUnset => 3
  | .numeric => 4
  | .overflow => 5

/-- The FAULT bit an error sets, bit code - 1 (R27, R150, R151). -/
def ErrorCode.faultMask : ErrorCode → BitVec 5
  | .illegal => 0b00001#5
  | .unseeded => 0b00010#5
  | .gainsUnset => 0b00100#5
  | .numeric => 0b01000#5
  | .overflow => 0b10000#5

/-- The status code in STATUS[2:0] (R150). -/
def Status.code : Status → BitVec 3
  | .ok => 0
  | .error e => e.code

/-- FAULT gains the error's bit; no bit is cleared (R151, R152). -/
def setFault (fault : BitVec 5) (e : ErrorCode) : BitVec 5 := fault ||| e.faultMask

/-- The 96-bit value of a response (R51): STATUS in [95:64] with the code in [66:64], R0 in [63:32], R1 in [31:0]. -/
def Response.bits (r : Response) : BitVec 96 := (r.status.code.setWidth 32 : Word) ++ r.r0 ++ r.r1

end Sys2Proof.Machine
end

