-- ==== Sys2Proof/Machine/Binary32.lean ====
section
/-! DEFINITION. The floating-point primitives of R11 under FP_ARITH. The IEEE 754 rules that R11 names and does not spell
out (the layout of the interchange format, round to nearest even, infinities, NaN, signed zero) are PRESUMED (log 7). -/

namespace Sys2Proof.Machine

/-! ### The interchange format -/

/-- The sign, bit 31. -/
def b32Sign (x : F32) : Bool := x.getLsbD 31
/-- The biased exponent, bits [30:23]. -/
def b32Exp (x : F32) : Nat := (x.extractLsb' 23 8).toNat
/-- The trailing significand, bits [22:0]. -/
def b32Frac (x : F32) : Nat := (x.extractLsb' 0 23).toNat

/-- Every NaN, quiet or signalling. -/
def b32IsNaN (x : F32) : Bool := b32Exp x == 255 && b32Frac x != 0
/-- Plus or minus infinity. -/
def b32IsInf (x : F32) : Bool := b32Exp x == 255 && b32Frac x == 0
/-- Neither NaN nor an infinity. -/
def b32IsFinite (x : F32) : Bool := b32Exp x != 255

/-- The unit of the format: every finite binary32 value is a whole number of units of 2^-149, and one is `b32One` units. -/
def b32One : Nat := 2 ^ 149

/-- The magnitude of a value in units of 2^-149. An infinity reads as the power of two above every finite value, which
keeps the order. -/
def b32Mag (x : F32) : Nat :=
  if b32Exp x = 0 then b32Frac x else (2 ^ 23 + b32Frac x) * 2 ^ (b32Exp x - 1)

/-- The value in units of 2^-149. -/
def b32Units (x : F32) : Int := if b32Sign x then -(b32Mag x : Int) else (b32Mag x : Int)

/-- A signed pattern from its sign and its lower 31 bits. -/
def b32Signed (neg : Bool) (magBits : Nat) : F32 := BitVec.ofNat 32 (if neg then 2 ^ 31 + magBits else magBits)

/-- The lower 31 bits of plus infinity. -/
def b32InfBits : Nat := 0x7F800000

/-- The quiet NaN 0x7FC00000 (R11), the NaN every invalid operation gives here (log 7). -/
def b32QuietNaN : F32 := 0x7FC00000#32

/-- The magnitude `num / den` units, rounded to nearest, ties to even, as the lower 31 bits of a pattern with the exponent
unbounded: `num / den` has `sh` bits beyond 24, which are rounded away. -/
def b32Nearest (num den : Nat) : Nat :=
  let sh := Nat.log2 (num / den) - 23
  let d := den * 2 ^ sh
  let q := num / d
  let twice := 2 * (num % d)
  sh * 2 ^ 23 + (if twice > d ∨ (twice = d ∧ q % 2 = 1) then q + 1 else q)

/-- The same in the format: a result past the largest finite value is infinity, and a magnitude of 2^277 units, which is
2^128, or more always is. -/
def b32RoundBits (num den : Nat) : Nat :=
  if Nat.log2 (num / den) ≥ 277 then b32InfBits else min (b32Nearest num den) b32InfBits

/-- The exact value `± num / den` units rounded to binary32, round to nearest, ties to even (R11, D13). -/
def b32Round (neg : Bool) (num den : Nat) : F32 := b32Signed neg (b32RoundBits num den)

/-! ### The primitives of R11, binary32 -/

/-- `f32_of_int` in binary32. -/
def b32OfInt (i : Int) : F32 := b32Round (decide (i < 0)) (i.natAbs * b32One) 1

/-- `f32_add` in binary32. An exact zero sum is +0, but -0 for two negative operands. -/
def b32Add (x y : F32) : F32 :=
  if b32IsNaN x || b32IsNaN y then b32QuietNaN
  else if b32IsInf x then
    if b32IsInf y && (b32Sign x != b32Sign y) then b32QuietNaN else x
  else if b32IsInf y then y
  else
    let v := b32Units x + b32Units y
    if v = 0 then b32Signed (b32Sign x && b32Sign y) 0
    else b32Round (decide (v < 0)) v.natAbs 1

/-- `f32_mul` in binary32. -/
def b32Mul (x y : F32) : F32 :=
  let neg := b32Sign x != b32Sign y
  if b32IsNaN x || b32IsNaN y then b32QuietNaN
  else if b32IsInf x || b32IsInf y then
    if b32Mag x = 0 || b32Mag y = 0 then b32QuietNaN else b32Signed neg b32InfBits
  else b32Round neg (b32Mag x * b32Mag y) b32One

/-- `f32_gt` in binary32: false when either operand is NaN. -/
def b32Gt (x y : F32) : Bool := !b32IsNaN x && !b32IsNaN y && decide (b32Units x > b32Units y)

/-- `f32_lt` in binary32: false when either operand is NaN. -/
def b32Lt (x y : F32) : Bool := !b32IsNaN x && !b32IsNaN y && decide (b32Units x < b32Units y)

/-- `f32_trunc0` in binary32: `trunc0` of the exact value (R10). R11 gives it for a finite x, the only kind the operations
apply it to (log 8). -/
def b32Trunc0 (x : F32) : Int := (b32Units x).tdiv b32One

/-- `clampF` in binary32: a NaN passes through unchanged. -/
def b32ClampF (x lo hi : F32) : F32 := if b32Gt x hi then hi else if b32Lt x lo then lo else x

/-! ### The primitives of R11, under either FP_ARITH -/

/-- `f32_of_int(i)` (R11). -/
def f32OfInt (fp : FpArith) (i : Int) : F32 :=
  match fp with
  | .binary32 => b32OfInt i
  | .supplied => Config.suppliedOfInt i

/-- `f32_add(x, y)` (R11). -/
def f32Add (fp : FpArith) (x y : F32) : F32 :=
  match fp with
  | .binary32 => b32Add x y
  | .supplied => Config.suppliedAdd x y

/-- `f32_mul(x, y)` (R11). -/
def f32Mul (fp : FpArith) (x y : F32) : F32 :=
  match fp with
  | .binary32 => b32Mul x y
  | .supplied => Config.suppliedMul x y

/-- `f32_bits(x)` (R11): in binary32 a value is held as its interchange pattern. -/
def f32Bits (fp : FpArith) (x : F32) : Word :=
  match fp with
  | .binary32 => x
  | .supplied => Config.suppliedBits x

/-- `f32_from_bits(b)` (R11). -/
def f32FromBits (fp : FpArith) (b : Word) : F32 :=
  match fp with
  | .binary32 => b
  | .supplied => Config.suppliedFromBits b

/-- `isnan(x)` (R11). -/
def f32IsNaN (fp : FpArith) (x : F32) : Bool :=
  match fp with
  | .binary32 => b32IsNaN x
  | .supplied => Config.suppliedIsNaN x

/-- `f32_gt(x, y)` (R11). -/
def f32Gt (fp : FpArith) (x y : F32) : Bool :=
  match fp with
  | .binary32 => b32Gt x y
  | .supplied => Config.suppliedGt x y

/-- `f32_lt(x, y)` (R11). -/
def f32Lt (fp : FpArith) (x y : F32) : Bool :=
  match fp with
  | .binary32 => b32Lt x y
  | .supplied => Config.suppliedLt x y

/-- `f32_trunc0(x)` (R11). -/
def f32Trunc0 (fp : FpArith) (x : F32) : Int :=
  match fp with
  | .binary32 => b32Trunc0 x
  | .supplied => Config.suppliedTrunc0 x

/-- `clampF(x, lo, hi)` (R11). -/
def clampF (fp : FpArith) (x lo hi : F32) : F32 :=
  match fp with
  | .binary32 => b32ClampF x lo hi
  | .supplied => Config.suppliedClampF x lo hi

/-- The binary32 literal of an integer constant of R6, as R92 writes 800.0 and R111 writes 50.0 (log 10). -/
def f32Literal (i : Int) : F32 := b32OfInt i

/-- `clampF(x, -lim, lim)`, as R92 and R111 use it. -/
def clampSymF (fp : FpArith) (x : F32) (lim : Int) : F32 := clampF fp x (f32Literal (-lim)) (f32Literal lim)

end Sys2Proof.Machine
end

