-- ==== Sys2Proof/Machine/Operands.lean ====
section
/-! DEFINITION. The operand forms of R54 as numbers, and the selection of an axis's or motor's element (R52). -/

namespace Sys2Proof.Machine

/-- The element of index i. -/
def Two.get {α : Type} (t : Two α) (i : Idx) : α :=
  match i with
  | .one => t.one
  | .two => t.two

/-- Write the element of index i. -/
def Two.set {α : Type} (t : Two α) (i : Idx) (v : α) : Two α :=
  match i with
  | .one => { t with one := v }
  | .two => { t with two := v }

/-- `cur = sext_16(raw)`: a raw sample read as signed 16-bit (R54, R73, D9). -/
def rawValue (raw : BitVec 16) : Int := raw.toInt

/-- `t16`, `y16`: `sext_16` of a 16-bit operand (R54). -/
def i16Value (v : BitVec 16) : Int := v.toInt

/-- `t32`, `y32`, `cmd`: `sext_32` of a 32-bit operand (R54). -/
def i32Value (v : Word) : Int := v.toInt

/-- `kp`, `ki`, `kd`: `f32_from_bits` of a field, any pattern, NaN included (R54). -/
def gainValue (fp : FpArith) (v : Word) : F32 := f32FromBits fp v

/-- `bits_32(v)`: a result field (R9). -/
def resultWord (v : Int) : Word := BitVec.ofInt 32 v

end Sys2Proof.Machine
end

