-- ==== Sys2Proof/Machine/Ops.lean ====
section
/-! DEFINITION. The named operations on the state: the writers of R22 to R26, responding, raising an error (R152) and the
hardware reset (R170). The block has no memory (R40). -/

namespace Sys2Proof.Machine

/-- What one instruction or one step answers. -/
abbrev Result := Host.Outcome State Fault Refusal

/-- `respond(status, r0, r1)`: the response leaves the response port, after those before it (R12, R29). -/
def State.respond (status : Status) (r0 r1 : Word) (s : State) : State :=
  { s with responses := s.responses ++ [⟨status, r0, r1⟩] }

/-- `respond(OK, r0, r1)`. -/
def State.respondOk (r0 r1 : Word) (s : State) : State := s.respond .ok r0 r1

/-- `raise E` (R12, R152), the block's one form of exception: the state stays as it was except that FAULT gains E's bit, and
the response is (E, 0, 0). There is no trap entry and nothing to return from (R154, R155). -/
def State.raise (e : ErrorCode) (s : State) : State :=
  { s with fault := setFault s.fault e }.respond (.error e) 0 0

/-- Write `POS[a]` and `LAST[a]` (R22). -/
def State.writeEnc (a : Axis) (pos : BitVec 32) (last : Option (BitVec 16)) (s : State) : State :=
  { s with pos := s.pos.set a pos, last := s.last.set a last }

/-- Write `E0`, `E1`, `E2` and `ACC` (R23). -/
def State.writeVpid (e0 e1 e2 : BitVec 32) (acc : F32) (s : State) : State :=
  { s with e0 := e0, e1 := e1, e2 := e2, acc := acc }

/-- Write `VKP`, `VKI` and `VKD`, all three together (R24). -/
def State.writeGains (kp ki kd : F32) (s : State) : State :=
  { s with vkp := some kp, vki := some ki, vkd := some kd }

/-- Write `PKP` (R25). -/
def State.writePkp (kp : F32) (s : State) : State := { s with pkp := some kp }

/-- Write `DUTY[m]`, `DIRA[m]` and `DIRB[m]` (R26). -/
def State.writeGate (m : Motor) (duty : BitVec 16) (dira dirb : Bool) (s : State) : State :=
  { s with duty := s.duty.set m duty, dira := s.dira.set m dira, dirb := s.dirb.set m dirb }

/-- Hardware reset (R170): every element takes its value of R31, and no response is given. The parameters, the events that
arrive later and the responses already given are not elements of the block (log 12). -/
def State.hardReset (s : State) : State :=
  { State.resetWith s.cfg with inputs := s.inputs, responses := s.responses }

/-- Take the events still to be served. -/
def State.withInputs (inputs : List Input) (s : State) : State := { s with inputs := inputs }

end Sys2Proof.Machine
end

