-- ==== Sys2Proof/Machine/Block.lean ====
section
/-! DEFINITION. Block control: NOP, STATUS_READ (R140, R141). -/

namespace Sys2Proof.Machine

/-- NOP (R140). -/
def execNop (s : State) : Result := .next (s.respondOk 0 0)

/-- STATUS_READ (R141): it does not clear FAULT. -/
def execStatusRead (s : State) : Result := .next (s.respondOk (s.fault.setWidth 32) 0)

end Sys2Proof.Machine
end

