-- ==== Sys2Proof/Machine/Arith.lean ====
section
/-! DEFINITION. The integer and rounding primitives of R9 and R10, on mathematical integers. -/

namespace Sys2Proof.Machine

/-- `wrapS_N(v) = sext_N(bits_N(v))` (R9). `bits_N` is `BitVec.ofInt N`, `sext_N` is `BitVec.toInt`, `zext_N` is
`BitVec.toNat`. -/
def wrapS (n : Nat) (v : Int) : Int := (BitVec.ofInt n v).toInt

/-- `clampI(v, lo, hi)` (R9). -/
def clampI (v lo hi : Int) : Int := if v < lo then lo else if v > hi then hi else v

/-- `sat_N(v)` (R9). -/
def satS (n : Nat) (v : Int) : Int := clampI v (-2 ^ (n - 1)) (2 ^ (n - 1) - 1)

/-- `round_tie(num / den, tie)` for a positive `den` (R10): the nearest integer; exactly halfway, the one farther from zero
(AWAY) or the even one (EVEN). -/
def roundTie (num den : Int) (tie : VelTie) : Int :=
  let lo := num / den
  let twice := 2 * (num % den)
  if twice < den then lo
  else if twice > den then lo + 1
  else match tie with
    | .away => if 0 ≤ num then lo + 1 else lo
    | .even => if lo % 2 = 0 then lo else lo + 1

/-- The INT32_OVERFLOW policy (R7, D12) on an exact 32-bit sum or difference: the value itself in range; out of range
`wrapS_32` of it under WRAP, and none, an OVERFLOW, under FAULT (R73, R111). -/
def int32Result (policy : Int32Overflow) (v : Int) : Option Int :=
  if v < -2 ^ 31 ∨ v > 2 ^ 31 - 1 then
    match policy with
    | .fault => none
    | .wrap => some (wrapS Config.posW v)
  else some v

end Sys2Proof.Machine
end

