-- ==== Sys2Proof/Machine/Encoder.lean ====
section
/-! DEFINITION. The encoder tracker: ENC_CLEAR, ENC_UPDATE, ENC_READ (R70 to R74). -/

namespace Sys2Proof.Machine

/-- `enc_delta(last, cur)`: the wrap-corrected difference of two raw samples (R70). -/
def encDelta (mode : EncDeltaMode) (last cur : Int) : Int :=
  match mode with
  | .wide =>
    let w := cur - last
    if w > Config.wrapHi then w - Config.wrapSpan
    else if w < Config.wrapLo then w + Config.wrapSpan
    else w
  | .wrap16 => wrapS Config.rawW (cur - last)

/-- `enc_vel(d)`: the delta in velocity units, rounded and narrowed to 16 bits (R71). -/
def encVel (tie : VelTie) (narrow : VelNarrow) (d : Int) : Int :=
  let r := roundTie (d * Config.velScaleNum) Config.velScaleDen tie
  match narrow with
  | .wrap => wrapS Config.velW r
  | .saturate => satS Config.velW r

/-- R1 of ENC_READ: bit 16 is set on a seeded axis and bits [15:0] are the last raw sample; 0 on an unseeded one (R74). -/
def lastWord (last : Option (BitVec 16)) : Word :=
  match last with
  | some l => (1#32 <<< 16) ||| l.setWidth 32
  | none => 0

/-- ENC_CLEAR (R72). -/
def execEncClear (a : Axis) (raw : BitVec 16) (s : State) : Result :=
  .next ((s.writeEnc a 0 (some raw)).respondOk 0 0)

/-- ENC_UPDATE (R73): UNSEEDED first, then OVERFLOW, then the update. -/
def execEncUpdate (a : Axis) (raw : BitVec 16) (s : State) : Result :=
  match s.last.get a with
  | none => .next (s.raise .unseeded)
  | some l =>
    let d := encDelta s.cfg.encDeltaMode (rawValue l) (rawValue raw)
    match int32Result s.cfg.int32Overflow (i32Value (s.pos.get a) + d) with
    | none => .next (s.raise .overflow)
    | some p =>
      let v := encVel s.cfg.velTie s.cfg.velNarrow d
      .next ((s.writeEnc a (resultWord p) (some raw)).respondOk (resultWord p) (resultWord v))

/-- ENC_READ (R74). -/
def execEncRead (a : Axis) (s : State) : Result :=
  .next (s.respondOk (s.pos.get a) (lastWord (s.last.get a)))

end Sys2Proof.Machine
end

