-- ==== Sys2Proof/Machine/Gate.lean ====
section
/-! DEFINITION. The actuation gate: GATE_APPLY (R120 to R122). -/

namespace Sys2Proof.Machine

/-- A dead-zone: a magnitude in the open interval (0, width) becomes 0 (R120). -/
def deadZone (width c : Int) : Int := if 0 < |c| ∧ |c| < width then 0 else c

/-- `gate_shape(cmd, mode)`: the clamps and the dead-zone, in the source's order (R120). -/
def gateShape (cmd : Int) (mode : SysMode) : Int :=
  let c := clampI cmd (-Config.gateLim) Config.gateLim
  match mode with
  | .pf => deadZone Config.pfDz (clampI c (-Config.pfLim) Config.pfLim)
  | .vc => deadZone Config.vcDz c

/-- The values `gate_dir` gives: the duty and the two direction lines. -/
structure Drive where
  duty : BitVec 16
  dira : Bool
  dirb : Bool
deriving DecidableEq, Repr

/-- `gate_dir(c)`: the magnitude, and the line the sign selects under DIR_POLARITY; both lines low when stopped (R121). -/
def gateDir (polarity : DirPolarity) (c : Int) : Drive :=
  if c = 0 then ⟨0, false, false⟩
  else
    let duty := BitVec.ofInt 16 (if c > 0 then c else -c)
    match polarity with
    | .aPositive => if c > 0 then ⟨duty, true, false⟩ else ⟨duty, false, true⟩
    | .bPositive => if c > 0 then ⟨duty, false, true⟩ else ⟨duty, true, false⟩

/-- R1 of GATE_APPLY: `(da << 1) OR db` (R122). -/
def dirWord (dira dirb : Bool) : Word :=
  ((BitVec.ofBool dira).setWidth 32 <<< 1) ||| (BitVec.ofBool dirb).setWidth 32

/-- GATE_APPLY (R122). -/
def execGateApply (m : Motor) (mode : SysMode) (cmd : Word) (s : State) : Result :=
  let g := gateDir s.cfg.dirPolarity (gateShape (i32Value cmd) mode)
  .next ((s.writeGate m g.duty g.dira g.dirb).respondOk (g.duty.setWidth 32) (dirWord g.dira g.dirb))

end Sys2Proof.Machine
end

