-- ==== Sys2Proof/Machine/Position.lean ====
section
/-! DEFINITION. The position controller: PPID_SET_PARAMS, PPID_COMPUTE (R110, R111). -/

namespace Sys2Proof.Machine

/-- PPID_SET_PARAMS (R110): only kp is stored; ki and kd are discarded. -/
def execPpidSetParams (kp _ki _kd : Word) (s : State) : Result :=
  .next ((s.writePkp (gainValue s.cfg.fpArith kp)).respondOk 0 0)

/-- PPID_COMPUTE (R111): GAINS_UNSET, then OVERFLOW, then NUMERIC, then the result. It changes no state. -/
def execPpidCompute (target actual : Word) (s : State) : Result :=
  let fp := s.cfg.fpArith
  match s.pkp with
  | none => .next (s.raise .gainsUnset)
  | some kp =>
    match int32Result s.cfg.int32Overflow (i32Value target - i32Value actual) with
    | none => .next (s.raise .overflow)
    | some e =>
      let x := f32Mul fp kp (f32OfInt fp e)
      match f32IsNaN fp x with
      | true => .next (s.raise .numeric)
      | false => .next (s.respondOk (resultWord (f32Trunc0 fp (clampSymF fp x Config.ppidLim))) 0)

end Sys2Proof.Machine
end

