-- ==== Sys2Proof/Machine/Velocity.lean ====
section
/-! DEFINITION. The velocity controller: VPID_SET_PARAMS, VPID_RESET, VPID_COMPUTE (R90 to R92). -/

namespace Sys2Proof.Machine

/-- The increment `kp*(e0-e1) + ki*e0 + kd*(e0 - 2*e1 + e2)`: three products and two sums, each rounded, the sums left to
right (R92, D13). -/
def pidIncrement (fp : FpArith) (kp ki kd : F32) (n0 n1 n2 : Int) : F32 :=
  let p1 := f32Mul fp kp (f32OfInt fp (n0 - n1))
  let p2 := f32Mul fp ki (f32OfInt fp n0)
  let p3 := f32Mul fp kd (f32OfInt fp (n0 - 2 * n1 + n2))
  f32Add fp (f32Add fp p1 p2) p3

/-- VPID_SET_PARAMS (R90): no value is checked. -/
def execVpidSetParams (kp ki kd : Word) (s : State) : Result :=
  let fp := s.cfg.fpArith
  .next ((s.writeGains (gainValue fp kp) (gainValue fp ki) (gainValue fp kd)).respondOk 0 0)

/-- VPID_RESET (R91). -/
def execVpidReset (s : State) : Result :=
  .next ((s.writeVpid 0 0 0 0).respondOk 0 0)

/-- VPID_COMPUTE (R92): GAINS_UNSET first, then NUMERIC, then the update. -/
def execVpidCompute (target actual : BitVec 16) (s : State) : Result :=
  let fp := s.cfg.fpArith
  match s.vkp, s.vki, s.vkd with
  | some kp, some ki, some kd =>
    let n0 := i16Value target - i16Value actual
    let sum := f32Add fp s.acc (pidIncrement fp kp ki kd n0 (i32Value s.e0) (i32Value s.e1))
    match f32IsNaN fp sum with
    | true => .next (s.raise .numeric)
    | false =>
      let c := clampSymF fp sum Config.vpidLim
      .next ((s.writeVpid (resultWord n0) s.e0 s.e1 c).respondOk (resultWord (f32Trunc0 fp c)) (f32Bits fp c))
  | _, _, _ => .next (s.raise .gainsUnset)

end Sys2Proof.Machine
end

