-- ==== Sys2Proof/Machine/Dispatch.lean ====
section
/-! DEFINITION. The meaning of each instruction, one arm per constructor. -/

namespace Sys2Proof.Machine

def exec (i : Instr) (s : State) : Host.Outcome State Fault Refusal :=
  match i with
  | .nop => Sys2Proof.Machine.execNop s
  | .encClear axis raw => Sys2Proof.Machine.execEncClear axis raw s
  | .encUpdate axis raw => Sys2Proof.Machine.execEncUpdate axis raw s
  | .encRead axis => Sys2Proof.Machine.execEncRead axis s
  | .vpidCompute target actual => Sys2Proof.Machine.execVpidCompute target actual s
  | .vpidReset => Sys2Proof.Machine.execVpidReset s
  | .vpidSetParams kp ki kd => Sys2Proof.Machine.execVpidSetParams kp ki kd s
  | .ppidCompute target actual => Sys2Proof.Machine.execPpidCompute target actual s
  | .ppidSetParams kp ki kd => Sys2Proof.Machine.execPpidSetParams kp ki kd s
  | .gateApply motor mode cmd => Sys2Proof.Machine.execGateApply motor mode cmd s
  | .statusRead => Sys2Proof.Machine.execStatusRead s

end Sys2Proof.Machine
end

