-- ==== Sys2Proof/Machine/Serve.lean ====
section
/-! DEFINITION. Serving one input event: a frame, a transfer of bytes, or RST (R5, R29, R42, R170). -/

namespace Sys2Proof.Machine

/-- One request (R5, R59): the decoded instruction runs; a frame that spells none is ILLEGAL (R56, R57, R58). -/
def serveFrame (f : Frame) (s : State) : Result :=
  match decode f with
  | .ok i => exec i s
  | .error _ => .next (s.raise .illegal)

/-- One input event. A transfer of bytes that is not exactly one frame is no request: it has no effect and no response
(R42, log 4). -/
def serveInput (i : Input) (s : State) : Result :=
  match i with
  | .request f => serveFrame f s
  | .bytes bs =>
    match frameOfBytes s.cfg.frameByteOrder bs with
    | some f => serveFrame f s
    | none => .next s
  | .reset => .next s.hardReset

/-- Serve the event that arrived first, if any; between requests the block holds its state (R44, R163, log 2). -/
def serveNext (s : State) : Result :=
  match s.inputs with
  | [] => .next s
  | i :: rest => serveInput i (s.withInputs rest)

/-- The state with one more frame at the head of the request port's queue. -/
def State.pushRequest (f : Frame) (s : State) : State := { s with inputs := .request f :: s.inputs }

end Sys2Proof.Machine
end

