-- ==== Sys2Proof/Machine/Step.lean ====
section
/-! DEFINITION. One step of the machine, and the placing of a frame where the next step takes it. -/

namespace Sys2Proof.Machine

/-- One step: the event that arrived first is served (R5, R44). -/
def step (s : State) : Host.Outcome State Fault Refusal := serveNext s

/-- The state with the table's word `w` as the frame the next step serves (log 2, 18). -/
def State.withFetchWord (s : State) (nbits w : Nat) : State := s.pushRequest (frameOfTableWord nbits w)

end Sys2Proof.Machine
end

