-- ==== Sys2Proof/WellFormed.lean ====
section
/-! DEFINITION. Which assembly forms are well formed (R60: "A value out of range is an assembly error"). A term of `Instr` is
always well formed: the types of its operands are the field widths of R54 (the must-be-zero bits of R56 are no part of it). -/

namespace Sys2Proof

/-- `<raw>`: a decimal in [0, 65535] or in [-32768, -1]; a hex pattern `0xHHHH` is a number in [0, 65535] (R60). -/
def inRaw (v : Int) : Bool := decide (-32768 ≤ v) && decide (v ≤ 65535)

/-- `<target16>` and `<actual16>`: [-32768, 32767] (R60). -/
def inI16 (v : Int) : Bool := decide (-32768 ≤ v) && decide (v ≤ 32767)

/-- `<target32>`, `<actual32>` and `<cmd32>`: [-2^31, 2^31 - 1] (R60). -/
def inI32 (v : Int) : Bool := decide (-2147483648 ≤ v) && decide (v ≤ 2147483647)

/-- A well-formed assembly form (R60, R61): every number lies in its operand's range. -/
def Asm.wf : Asm → Bool
  | .nop => true
  | .encClear _ raw => inRaw raw
  | .encUpdate _ raw => inRaw raw
  | .encRead _ => true
  | .vpidCompute t y => inI16 t && inI16 y
  | .vpidReset => true
  | .vpidSetParams _ _ _ => true
  | .ppidCompute t y => inI32 t && inI32 y
  | .ppidSetParams _ _ _ => true
  | .gateApply _ _ cmd => inI32 cmd
  | .statusRead => true
  | .gateStop _ => true
  | .stopAll => true
  | .ppidSetKp _ => true

end Sys2Proof
end

