-- ==== Sys2Proof/Machine/Assembler.lean ====
section
/-! DEFINITION. The assembler: the forms of R60 and R61 as instructions and frames, and their text (log 14). It is no part of
the machine: a step never calls it. -/

namespace Sys2Proof.Machine

/-! ### From forms to instructions -/

/-- A decimal real is rounded to binary32, round to nearest, ties to even; `f32:0x...` is the pattern itself (R60). -/
def gainBits : GainLit → Word
  | .decimal neg digits places => b32Round neg (digits * b32One) (10 ^ places)
  | .bits pattern => pattern

/-- The instructions of a form whose numbers are in range (R60, R61). -/
def asmInstrs : Asm → List Instr
  | .nop => [.nop]
  | .encClear a raw => [.encClear a (BitVec.ofInt 16 raw)]
  | .encUpdate a raw => [.encUpdate a (BitVec.ofInt 16 raw)]
  | .encRead a => [.encRead a]
  | .vpidCompute t y => [.vpidCompute (BitVec.ofInt 16 t) (BitVec.ofInt 16 y)]
  | .vpidReset => [.vpidReset]
  | .vpidSetParams kp ki kd => [.vpidSetParams (gainBits kp) (gainBits ki) (gainBits kd)]
  | .ppidCompute t y => [.ppidCompute (BitVec.ofInt 32 t) (BitVec.ofInt 32 y)]
  | .ppidSetParams kp ki kd => [.ppidSetParams (gainBits kp) (gainBits ki) (gainBits kd)]
  | .gateApply m md cmd => [.gateApply m md (BitVec.ofInt 32 cmd)]
  | .statusRead => [.statusRead]
  | .gateStop m => [.gateApply m .vc 0]
  | .stopAll => [.gateApply .one .vc 0, .gateApply .two .vc 0]
  | .ppidSetKp kp => [.ppidSetParams (gainBits kp) 0 0]

/-- The instructions of a form, or an assembly error (R60). -/
def assemble (a : Asm) : Option (List Instr) := if a.wf then some (asmInstrs a) else none

/-! ### From text to forms (R60) -/

/-- The value of a digit in a base of at most 16. -/
def digitValue (base : Nat) (c : Char) : Option Nat :=
  let n := c.toNat
  let v := if 48 ≤ n ∧ n ≤ 57 then n - 48
    else if 65 ≤ n ∧ n ≤ 70 then n - 55
    else if 97 ≤ n ∧ n ≤ 102 then n - 87
    else base
  if v < base then some v else none

/-- Digits after a number already read. -/
def digitsFrom (base acc : Nat) : List Char → Option Nat
  | [] => some acc
  | c :: cs =>
    match digitValue base c with
    | some v => digitsFrom base (acc * base + v) cs
    | none => none

/-- A number of at least one digit. -/
def parseNat (base : Nat) (cs : List Char) : Option Nat := if cs = [] then none else digitsFrom base 0 cs

/-- A decimal integer. -/
def parseInt : List Char → Option Int
  | '-' :: cs => (parseNat 10 cs).map fun n => -(n : Int)
  | cs => (parseNat 10 cs).map fun n => (n : Int)

/-- A pattern `0x` and exactly `width` hex digits. -/
def parsePattern (width : Nat) : List Char → Option Nat
  | '0' :: 'x' :: cs => if cs.length = width then parseNat 16 cs else none
  | _ => none

/-- `<raw>`. -/
def parseRaw (cs : List Char) : Option Int :=
  match parsePattern 4 cs with
  | some n => some n
  | none => parseInt cs

/-- The text before the first `c`, and the text after it if there is one. -/
def splitFirst (c : Char) : List Char → List Char × Option (List Char)
  | [] => ([], none)
  | x :: xs => if x = c then ([], some xs) else (x :: (splitFirst c xs).1, (splitFirst c xs).2)

/-- An unsigned decimal real. -/
def parseReal (neg : Bool) (cs : List Char) : Option GainLit :=
  match splitFirst '.' cs with
  | (whole, none) => (parseNat 10 whole).map fun n => .decimal neg n 0
  | (whole, some frac) =>
    match parseNat 10 whole, parseNat 10 frac with
    | some w, some f => some (.decimal neg (w * 10 ^ frac.length + f) frac.length)
    | _, _ => none

/-- `<kp>`, `<ki>`, `<kd>`. -/
def parseGain : List Char → Option GainLit
  | 'f' :: '3' :: '2' :: ':' :: cs => (parsePattern 8 cs).map fun n => .bits (BitVec.ofNat 32 n)
  | '-' :: cs => parseReal true cs
  | cs => parseReal false cs

/-- An `<axis>`, `A1` or `A2`. -/
def parseAxis : List Char → Option Axis
  | ['A', '1'] => some .one
  | ['A', '2'] => some .two
  | _ => none

/-- A `<motor>`, `M1` or `M2`. -/
def parseMotor : List Char → Option Motor
  | ['M', '1'] => some .one
  | ['M', '2'] => some .two
  | _ => none

/-- A `<mode>`, `VC` or `PF`. -/
def parseMode : List Char → Option SysMode
  | ['V', 'C'] => some .vc
  | ['P', 'F'] => some .pf
  | _ => none

/-- The text without its leading spaces. -/
def dropSpaces : List Char → List Char
  | ' ' :: cs => dropSpaces cs
  | cs => cs

/-- The text without its leading and trailing spaces. -/
def trimSpaces (cs : List Char) : List Char := (dropSpaces (dropSpaces cs).reverse).reverse

/-- The pieces between commas. -/
def splitCommas : List Char → List (List Char)
  | [] => [[]]
  | ',' :: cs => [] :: splitCommas cs
  | c :: cs =>
    match splitCommas cs with
    | p :: ps => (c :: p) :: ps
    | [] => [[c]]

/-- The operands of a line, without the spaces around them; none of them where nothing follows the mnemonic. -/
def operandTexts (rest : Option (List Char)) : List (List Char) :=
  match trimSpaces (rest.getD []) with
  | [] => []
  | cs => (splitCommas cs).map trimSpaces

/-- The mnemonics of R60 and R61, each with its form from its operands' texts. -/
def parseOperands (mnemonic : List Char) (ops : List (List Char)) : Option Asm :=
  match ops with
  | [] =>
    if mnemonic = "NOP".toList then some .nop
    else if mnemonic = "VPID_RESET".toList then some .vpidReset
    else if mnemonic = "STATUS_READ".toList then some .statusRead
    else if mnemonic = "STOP_ALL".toList then some .stopAll
    else none
  | [x] =>
    if mnemonic = "ENC_READ".toList then (parseAxis x).map .encRead
    else if mnemonic = "GATE_STOP".toList then (parseMotor x).map .gateStop
    else if mnemonic = "PPID_SET_KP".toList then (parseGain x).map .ppidSetKp
    else none
  | [x, y] =>
    if mnemonic = "ENC_CLEAR".toList then
      (parseAxis x).bind fun a => (parseRaw y).map fun r => .encClear a r
    else if mnemonic = "ENC_UPDATE".toList then
      (parseAxis x).bind fun a => (parseRaw y).map fun r => .encUpdate a r
    else if mnemonic = "VPID_COMPUTE".toList then
      (parseInt x).bind fun t => (parseInt y).map fun v => .vpidCompute t v
    else if mnemonic = "PPID_COMPUTE".toList then
      (parseInt x).bind fun t => (parseInt y).map fun v => .ppidCompute t v
    else none
  | [x, y, z] =>
    if mnemonic = "VPID_SET_PARAMS".toList then
      (parseGain x).bind fun p => (parseGain y).bind fun i => (parseGain z).map fun d => .vpidSetParams p i d
    else if mnemonic = "PPID_SET_PARAMS".toList then
      (parseGain x).bind fun p => (parseGain y).bind fun i => (parseGain z).map fun d => .ppidSetParams p i d
    else if mnemonic = "GATE_APPLY".toList then
      (parseMotor x).bind fun m => (parseMode y).bind fun md => (parseInt z).map fun v => .gateApply m md v
    else none
  | _ => none

/-- One line of assembly (R60). -/
def parseLine (line : String) : Option Asm :=
  let (mnemonic, rest) := splitFirst ' ' (trimSpaces line.toList)
  parseOperands mnemonic (operandTexts rest)

/-- One line of assembly as its frames, or an assembly error (R60, R61). -/
def assembleLine (line : String) : Option (List Frame) :=
  (parseLine line).bind fun a => (assemble a).map fun is => is.map encode

end Sys2Proof.Machine
end

