-- ==== Sys2Proof/Machine/Ports.lean ====
section
/-! DEFINITION. The output ports (R28) and the serialised response (R41, R51). -/

namespace Sys2Proof.Machine

/-- Port PWM_DUTY_m (R28). -/
def State.pwmDutyPort (s : State) (m : Motor) : BitVec 16 := s.duty.get m

/-- Port DIR_A_m (R28). -/
def State.dirAPort (s : State) (m : Motor) : Bool := s.dira.get m

/-- Port DIR_B_m (R28). -/
def State.dirBPort (s : State) (m : Motor) : Bool := s.dirb.get m

/-- What the duty means as a fraction of the PWM period: counts out of PWM_PERIOD, unknown while the parameter is OPEN
(R7, R28, D23, log 5). -/
def State.dutyFraction (s : State) (m : Motor) : Option (Nat × Nat) :=
  s.cfg.pwmPeriod.map fun period => ((s.pwmDutyPort m).toNat, period)

/-- The twelve bytes of a response (R41). -/
def responseBytes (order : FrameByteOrder) (r : Response) : List Byte := bytesOf order 12 r.bits

end Sys2Proof.Machine
end

