-- ==== Sys2Proof/Safety.lean ====
section
/-! DEFINITION. What the claims speak of: the invariant of the state, a run without a fault, the exact position of an axis,
and the interleavings of the clients. -/

namespace Sys2Proof.Machine

/-- The must-be-zero bits of an operation, field by field (R52, R53, R54, R56): RSVD, SEL where no axis or motor is taken,
MODE but for GATE_APPLY, the upper halves of 16-bit operands, and every operand field not used. -/
def unusedFieldsZero (op : Opcode) (f : Frame) : Prop :=
  f.rsvd = 0 ∧
  match op with
  | .nop => f.sel = false ∧ f.mode = false ∧ f.a = 0 ∧ f.b = 0 ∧ f.c = 0
  | .encClear => f.mode = false ∧ f.a = 0 ∧ f.b = 0 ∧ f.c.extractLsb' 16 16 = 0
  | .encUpdate => f.mode = false ∧ f.a = 0 ∧ f.b = 0 ∧ f.c.extractLsb' 16 16 = 0
  | .encRead => f.mode = false ∧ f.a = 0 ∧ f.b = 0 ∧ f.c = 0
  | .vpidCompute => f.sel = false ∧ f.mode = false ∧ f.a.extractLsb' 16 16 = 0 ∧ f.b.extractLsb' 16 16 = 0 ∧ f.c = 0
  | .vpidReset => f.sel = false ∧ f.mode = false ∧ f.a = 0 ∧ f.b = 0 ∧ f.c = 0
  | .vpidSetParams => f.sel = false ∧ f.mode = false
  | .ppidCompute => f.sel = false ∧ f.mode = false ∧ f.c = 0
  | .ppidSetParams => f.sel = false ∧ f.mode = false
  | .gateApply => f.b = 0 ∧ f.c = 0
  | .statusRead => f.sel = false ∧ f.mode = false ∧ f.a = 0 ∧ f.b = 0 ∧ f.c = 0

/-- The range of a stored error (R20, R23). -/
def errorInRange (e : BitVec 32) : Prop := -65535 ≤ e.toInt ∧ e.toInt ≤ 65535

/-- A finite binary32 value in [-lim, lim]. -/
def finiteWithin (lim : Int) (x : F32) : Prop :=
  b32IsFinite x = true ∧ -(lim * b32One) ≤ b32Units x ∧ b32Units x ≤ lim * b32One

/-- What every state the block can be in satisfies. -/
structure State.Inv (s : State) : Prop where
  /-- R23: every stored error lies in [-65535, 65535]. -/
  e0_range : errorInRange s.e0
  e1_range : errorInRange s.e1
  e2_range : errorInRange s.e2
  /-- R23: ACC is finite and in [-800, 800]; claimed of binary32 only (log 16). -/
  acc_range : s.cfg.fpArith = .binary32 → finiteWithin Config.vpidLim s.acc
  /-- R26, R120: a duty is 0 or in [30, 1000]. -/
  duty_range : ∀ m, s.duty.get m = 0 ∨ (30 ≤ (s.duty.get m).toNat ∧ (s.duty.get m).toNat ≤ 1000)
  /-- R121: a motor whose duty is 0 has both lines low, and only it; (1, 1) never occurs. -/
  stopped_iff : ∀ m, s.duty.get m = 0 ↔ (s.dira.get m = false ∧ s.dirb.get m = false)
  not_both : ∀ m, ¬ (s.dira.get m = true ∧ s.dirb.get m = true)
  /-- R74: the position of an unseeded axis is 0. -/
  unseeded_zero : ∀ a, s.last.get a = none → s.pos.get a = 0
  /-- R24: the three velocity gains are set together. -/
  gains_together : s.vkp.isSome = s.vki.isSome ∧ s.vki.isSome = s.vkd.isSome

/-- No fault is recorded: the premise R151 gives every claim about a run. -/
def State.noFault (s : State) : Prop := s.fault = 0

/-- Serve the events in order, nothing else waiting (R44). -/
def serveAll : List Input → State → Result
  | [], s => .next s
  | i :: is, s =>
    match serveInput i s with
    | .next t => serveAll is t
    | .fault r => .fault r
    | .refused r => .refused r

/-- The exact account of one axis: its last raw sample, once seeded, and the sum of its deltas since the last ENC_CLEAR or
reset, on unbounded integers (R76). -/
structure ExactAxis where
  last : Option Int
  sum : Int
deriving DecidableEq, Repr

/-- The account a state stands for when nothing is known of how it came about. -/
def ExactAxis.ofState (a : Axis) (s : State) : ExactAxis := ⟨(s.last.get a).map rawValue, (s.pos.get a).toInt⟩

/-- The account after one instruction (R72, R73): only a successful ENC_UPDATE adds its delta. -/
def ExactAxis.afterInstr (cfg : Config) (a : Axis) (g : ExactAxis) (i : Instr) : ExactAxis :=
  match i with
  | .encClear b raw => if b = a then ⟨some (rawValue raw), 0⟩ else g
  | .encUpdate b raw =>
    match g.last with
    | none => g
    | some l =>
      let sum := g.sum + encDelta cfg.encDeltaMode l (rawValue raw)
      if b ≠ a then g
      else if cfg.int32Overflow = .fault ∧ (sum < -2 ^ 31 ∨ sum > 2 ^ 31 - 1) then g
      else ⟨some (rawValue raw), sum⟩
  | _ => g

/-- The account after one frame: a frame that spells no operation leaves it. -/
def ExactAxis.afterFrame (cfg : Config) (a : Axis) (g : ExactAxis) (f : Frame) : ExactAxis :=
  match decode f with
  | .ok i => g.afterInstr cfg a i
  | .error _ => g

/-- The account after one event at the ports. -/
def ExactAxis.afterInput (cfg : Config) (a : Axis) (g : ExactAxis) (i : Input) : ExactAxis :=
  match i with
  | .request f => g.afterFrame cfg a f
  | .bytes bs =>
    match frameOfBytes cfg.frameByteOrder bs with
    | some f => g.afterFrame cfg a f
    | none => g
  | .reset => ⟨none, 0⟩

/-- The sub-block an operation works on, one for each axis and motor (R2); none for the two block-control operations. -/
inductive BlockUnit where
  | enc (a : Axis)
  | vpid
  | ppid
  | gate (m : Motor)
deriving DecidableEq, Repr

/-- The unit of an instruction. -/
def unitOf : Instr → Option BlockUnit
  | .nop => none
  | .encClear a _ => some (.enc a)
  | .encUpdate a _ => some (.enc a)
  | .encRead a => some (.enc a)
  | .vpidCompute _ _ => some .vpid
  | .vpidReset => some .vpid
  | .vpidSetParams _ _ _ => some .vpid
  | .ppidCompute _ _ => some .ppid
  | .ppidSetParams _ _ _ => some .ppid
  | .gateApply m _ _ => some (.gate m)
  | .statusRead => none

/-- A sequence of requests that keeps the own order of two clients' sequences (R48). -/
inductive Interleaves {α : Type} : List α → List α → List α → Prop where
  | nil : Interleaves [] [] []
  | left (x : α) {xs ys zs : List α} : Interleaves xs ys zs → Interleaves (x :: xs) ys (x :: zs)
  | right (y : α) {xs ys zs : List α} : Interleaves xs ys zs → Interleaves xs (y :: ys) (y :: zs)

end Sys2Proof.Machine
end

