-- ==== Sys2Proof/Certificates/Slice0/Obligations.lean ====
section
/-! DEFINITION. The statements for the provers, from the numbered rules of spec/. -/

open Sys2Proof Sys2Proof.Machine

/-! ### Words the statements use -/

/-- The SEL bit (R52), for the statements' own frames. -/
def Sys2Proof.Claims.selBit : Idx → BitVec 1
  | .one => 0#1
  | .two => 1#1

/-- The MODE bit (R53), for the statements' own frames. -/
def Sys2Proof.Claims.modeBit : SysMode → BitVec 1
  | .vc => 0#1
  | .pf => 1#1

/-- A frame written out field by field from R50, with RSVD zero. -/
def Sys2Proof.Claims.frameOf (opc : BitVec 8) (sel mode : BitVec 1) (a b c : Word) : Frame :=
  opc ++ sel ++ mode ++ 0#22 ++ a ++ b ++ c

/-- The largest magnitude, in units of 2^-149, below which a sum or product rounds to a finite binary32 value. -/
def Sys2Proof.Claims.overflowBound : Int := (2 ^ 25 - 1) * 2 ^ 252

/-- `x` is finite, no finite value is nearer to `num / den` units of 2^-149 (`den` positive), and where another is as near
`x` has the even significand. -/
def Sys2Proof.Claims.isNearest (num den : Int) (x : F32) : Prop :=
  b32IsFinite x = true ∧
  ∀ z : F32, b32IsFinite z = true →
    |b32Units x * den - num| ≤ |b32Units z * den - num| ∧
    (|b32Units x * den - num| = |b32Units z * den - num| → b32Units z ≠ b32Units x → x.getLsbD 0 = false)

/-- `x` is the binary32 value a written gain gives (R60): the pattern itself, or the decimal real rounded to nearest even. -/
def Sys2Proof.Claims.isGain : GainLit → F32 → Prop
  | .bits pattern, x => x = pattern
  | .decimal neg digits places, x =>
    let v : Int := (if neg then -(digits : Int) else digits) * 2 ^ 149
    (|v| < overflowBound * 10 ^ places → isNearest v (10 ^ places) x) ∧
    (overflowBound * 10 ^ places ≤ |v| → x = if neg then 0xFF800000#32 else 0x7F800000#32)

/-- The value of `x` is below the value of `y`, the infinities at the two ends; never of a NaN. -/
def Sys2Proof.Claims.isBelow (x y : F32) : Prop :=
  (b32IsFinite x = true ∧ b32IsFinite y = true ∧ b32Units x < b32Units y) ∨
  (x = 0xFF800000#32 ∧ (b32IsFinite y = true ∨ y = 0x7F800000#32)) ∨
  (b32IsFinite x = true ∧ y = 0x7F800000#32)

/-- `c` is `x` clamped: `x` itself in [-lim, lim], `hi` above lim, `lo` below -lim, infinities included. -/
def Sys2Proof.Claims.isClamped (lim : Int) (lo hi x c : F32) : Prop :=
  (b32IsFinite x = true ∧ |b32Units x| ≤ lim * 2 ^ 149 → c = x) ∧
  (x = 0x7F800000#32 ∨ (b32IsFinite x = true ∧ lim * 2 ^ 149 < b32Units x) → c = hi) ∧
  (x = 0xFF800000#32 ∨ (b32IsFinite x = true ∧ b32Units x < -(lim * 2 ^ 149)) → c = lo)

open Sys2Proof.Claims

/-! ### Decoding (30_encoding) -/

/-- R50, R54, R55, R59: the decoder reads back the encoder's frame, every operand at every value. -/
def Obligations.DecodeReadsBackEveryEncoding : Prop :=
  ∀ i : Instr, decode (encode i) = .ok i

/-- R54, R55, R56, R59: a frame that spells an instruction is the frame the encoder writes, so no other does and no bit is
ignored. -/
def Obligations.OnlyTheEncodingSpellsAnInstruction : Prop :=
  ∀ (f : Frame) (i : Instr), decode f = .ok i → encode i = f

/-- R50 to R55: frames written out in 95_test_vectors decode to the instructions they stand for. -/
def Obligations.WrittenFramesDecode : Prop :=
  decode 0x01800000_00000000_00000000_00007FF0#128 = .ok (.encClear .two 0x7FF0) ∧
  decode 0x02000000_00000000_00000000_00008000#128 = .ok (.encUpdate .one 0x8000) ∧
  decode 0x10000000_00007FFF_00008000_00000000#128 = .ok (.vpidCompute 0x7FFF 0x8000) ∧
  decode 0x12000000_3F800000_3F000000_3E800000#128 = .ok (.vpidSetParams 0x3F800000 0x3F000000 0x3E800000) ∧
  decode 0x20000000_7FFFFFFF_FFFFFFFF_00000000#128 = .ok (.ppidCompute 0x7FFFFFFF 0xFFFFFFFF) ∧
  decode 0x22000000_3F000000_40E00000_40E00000#128 = .ok (.ppidSetParams 0x3F000000 0x40E00000 0x40E00000) ∧
  decode 0x30C00000_00000078_00000000_00000000#128 = .ok (.gateApply .two .pf 120) ∧
  decode 0xF0000000_00000000_00000000_00000000#128 = .ok .statusRead

/-- R59: a frame that a row matches decodes to that row's operation with its operands, at most one row matches, and a frame
no row matches is ILLEGAL in every state. -/
def Obligations.DecoderFollowsTheTable : Prop :=
  (∀ (f : Frame) (op : Opcode), f &&& op.mask = op.pattern → decode f = .ok (op.assemble f)) ∧
  (∀ (f : Frame) (p q : Opcode), f &&& p.mask = p.pattern → f &&& q.mask = q.pattern → p = q) ∧
  (∀ (f : Frame) (s : State) (rest : List Input), (∀ op : Opcode, f &&& op.mask ≠ op.pattern) →
    s.inputs = .request f :: rest →
    step s = .next { s with inputs := rest, fault := s.fault ||| 1,
                            responses := s.responses ++ [⟨.error .illegal, 0, 0⟩] })

/-- R57: a frame with one of the reserved OPC values is ILLEGAL, whatever its other bits and the state. -/
def Obligations.ReservedOpcodesAreIllegal : Prop :=
  ∀ (f : Frame) (s : State) (rest : List Input),
    (let opc := (f.extractLsb' 120 8).toNat
     (0x04 ≤ opc ∧ opc ≤ 0x0F) ∨ (0x13 ≤ opc ∧ opc ≤ 0x1F) ∨ opc = 0x21 ∨ (0x23 ≤ opc ∧ opc ≤ 0x2F) ∨
     (0x31 ≤ opc ∧ opc ≤ 0xEF) ∨ (0xF1 ≤ opc ∧ opc ≤ 0xFF)) →
    s.inputs = .request f :: rest →
    step s = .next { s with inputs := rest, fault := s.fault ||| 1,
                            responses := s.responses ++ [⟨.error .illegal, 0, 0⟩] }

/-- R56 (and R58 for OPC 0x00): a frame of a defined OPC with a bit set in a field the operation does not use is ILLEGAL, and
no other state changes. -/
def Obligations.UnusedFieldsMustBeZero : Prop :=
  ∀ (op : Opcode) (f : Frame) (s : State) (rest : List Input),
    f.opc = op.value → ¬ unusedFieldsZero op f → s.inputs = .request f :: rest →
    step s = .next { s with inputs := rest, fault := s.fault ||| 1,
                            responses := s.responses ++ [⟨.error .illegal, 0, 0⟩] }

/-! ### Steps, ports and reset (00_scope, 10_state, 20_memory, 70_reset) -/

/-- R5, R44: when the event that arrived first is a frame that decodes to an instruction, as a whole or as its sixteen
bytes, the step takes the event from the queue and is that instruction's meaning. -/
def Obligations.StepRunsTheDecodedInstruction : Prop :=
  ∀ (s : State) (f : Frame) (i : Instr) (rest : List Input), decode f = .ok i →
    (s.inputs = .request f :: rest → step s = exec i { s with inputs := rest }) ∧
    (∀ bs : List Byte, frameOfBytes s.cfg.frameByteOrder bs = some f → s.inputs = .bytes bs :: rest →
      step s = exec i { s with inputs := rest })

/-- R41: byte k of a frame carries bits [8k+7 : 8k] under LITTLE and [127-8k : 120-8k] under BIG, the sixteen bytes spell the
frame back; byte k of a response carries bits [8k+7 : 8k] or [95-8k : 88-8k], and a response has exactly twelve bytes, a
frame exactly sixteen. -/
def Obligations.BytesCarryTheFrame : Prop :=
  (∀ (f : Frame) (k : Nat), k < 16 →
    (frameBytes .little f)[k]? = some (f.extractLsb' (8 * k) 8) ∧
    (frameBytes .big f)[k]? = some (f.extractLsb' (120 - 8 * k) 8)) ∧
  (∀ (r : Response) (k : Nat), k < 12 →
    (responseBytes .little r)[k]? = some (r.bits.extractLsb' (8 * k) 8) ∧
    (responseBytes .big r)[k]? = some (r.bits.extractLsb' (88 - 8 * k) 8)) ∧
  (∀ (order : FrameByteOrder) (f : Frame), frameOfBytes order (frameBytes order f) = some f) ∧
  (∀ (order : FrameByteOrder) (f : Frame), (frameBytes order f).length = 16) ∧
  (∀ (order : FrameByteOrder) (r : Response), (responseBytes order r).length = 12)

/-- R42: a transfer of fewer than sixteen bytes has no effect and gives no response. That a longer one is no request either
is the model's choice (log 4). -/
def Obligations.PartialFrameHasNoEffect : Prop :=
  ∀ (s : State) (bs : List Byte) (rest : List Input), bs.length ≠ 16 → s.inputs = .bytes bs :: rest →
    step s = .next { s with inputs := rest }

/-- R163: with no request waiting the block holds its state. That such a step exists is the model's choice (log 2). -/
def Obligations.IdleStepHoldsTheState : Prop :=
  ∀ s : State, s.inputs = [] → step s = .next s

/-- R31 (applied by R170): when RST is served every element takes its reset value, the ports follow, and no response is
given. -/
def Obligations.HardwareResetSetsEveryElement : Prop :=
  ∀ (s : State) (rest : List Input), s.inputs = .reset :: rest →
    ∃ t, step s = .next t ∧
      (∀ a, t.pos.get a = 0 ∧ t.last.get a = none) ∧
      t.e0 = 0 ∧ t.e1 = 0 ∧ t.e2 = 0 ∧ t.acc = 0x00000000#32 ∧
      t.vkp = s.cfg.vpidGainsAtReset.map Gains.kp ∧ t.vki = s.cfg.vpidGainsAtReset.map Gains.ki ∧
      t.vkd = s.cfg.vpidGainsAtReset.map Gains.kd ∧ t.pkp = s.cfg.ppidKpAtReset ∧
      (∀ m, t.duty.get m = 0 ∧ t.dira.get m = false ∧ t.dirb.get m = false) ∧
      t.fault = 0 ∧
      (∀ m, t.pwmDutyPort m = 0 ∧ t.dirAPort m = false ∧ t.dirBPort m = false) ∧
      t.responses = s.responses

/-- R31, R7: the model's reset state, under the default parameters. -/
def Obligations.ResetStateHasTheResetValues : Prop :=
  (∀ a, State.reset.pos.get a = 0 ∧ State.reset.last.get a = none) ∧
  State.reset.e0 = 0 ∧ State.reset.e1 = 0 ∧ State.reset.e2 = 0 ∧ State.reset.acc = 0 ∧
  State.reset.vkp = none ∧ State.reset.vki = none ∧ State.reset.vkd = none ∧ State.reset.pkp = none ∧
  (∀ m, State.reset.duty.get m = 0 ∧ State.reset.dira.get m = false ∧ State.reset.dirb.get m = false) ∧
  State.reset.fault = 0

/-- R44, R48: whatever the interleaving of two clients' events, each client's own order kept, a run serves all of them one
after another in arrival order and ends with nothing waiting. -/
def Obligations.EveryInterleavingIsServedInArrivalOrder : Prop :=
  ∀ (s : State) (xs ys zs : List Input), Interleaves xs ys zs →
    ∃ t, Host.Core.run Sys2Proof.core (xs.length + ys.length) { s with inputs := zs } = .next t ∧
      serveAll zs { s with inputs := [] } = .next t ∧ t.inputs = []

/-- R5, R29, R41, R44: every 128-bit frame yields exactly one response, after those before it, whether it arrives whole or
as its sixteen bytes, and a reset yields none. Every sixteen bytes are a frame's, and the step they cause is that frame's,
one that spells no operation included. -/
def Obligations.EveryRequestIsAnsweredOnce : Prop :=
  ∀ (s : State) (rest : List Input),
    (∀ f : Frame, s.inputs = .request f :: rest →
      ∃ t r, step s = .next t ∧ t.responses = s.responses ++ [r] ∧ t.inputs = rest ∧ t.cfg = s.cfg) ∧
    (∀ bs : List Byte, bs.length = 16 → s.inputs = .bytes bs :: rest →
      ∃ f, frameBytes s.cfg.frameByteOrder f = bs ∧ frameOfBytes s.cfg.frameByteOrder bs = some f ∧
        step s = step { s with inputs := .request f :: rest } ∧
        ∃ t r, step s = .next t ∧ t.responses = s.responses ++ [r] ∧ t.inputs = rest ∧ t.cfg = s.cfg) ∧
    (s.inputs = .reset :: rest →
      ∃ t, step s = .next t ∧ t.responses = s.responses ∧ t.inputs = rest ∧ t.cfg = s.cfg)

/-- R182: the block has no terminal state and never halts. -/
def Obligations.TheBlockNeverHalts : Prop :=
  ∀ s : State, ∃ t, step s = .next t

/-- R28: the ports are the latches at every instant, and a step changes a motor's ports only if it serves a reset or a
GATE_APPLY of that motor, as a whole frame or as its bytes. -/
def Obligations.PortsFollowTheLatches : Prop :=
  (∀ (s : State) (m : Motor), s.pwmDutyPort m = s.duty.get m ∧ s.dirAPort m = s.dira.get m ∧
    s.dirBPort m = s.dirb.get m) ∧
  (∀ (s t : State) (m : Motor), step s = .next t →
    (t.pwmDutyPort m ≠ s.pwmDutyPort m ∨ t.dirAPort m ≠ s.dirAPort m ∨ t.dirBPort m ≠ s.dirBPort m) →
    (∃ rest, s.inputs = .reset :: rest) ∨
    (∃ f md cmd rest, decode f = .ok (.gateApply m md cmd) ∧
      (s.inputs = .request f :: rest ∨
        ∃ bs, frameOfBytes s.cfg.frameByteOrder bs = some f ∧ s.inputs = .bytes bs :: rest)))

/-! ### Errors (60_exceptions) -/

/-- R152: when a step raises a code, the state is as before except that FAULT gains the code's bit, and the response is
(E, 0, 0). The served request has left the queue of waiting ones. -/
def Obligations.AnErrorHasNoOtherEffect : Prop :=
  ∀ (s t : State) (e : ErrorCode) (r0 r1 : Word),
    step s = .next t → t.responses = s.responses ++ [⟨.error e, r0, r1⟩] →
    t = { s with inputs := s.inputs.tail, fault := s.fault ||| (1#5 <<< (e.code.toNat - 1)),
                 responses := s.responses ++ [⟨.error e, 0, 0⟩] }

/-- R151: an error response with code k sets FAULT bit k-1, no operation clears a bit, a success changes none, and only a
reset sets FAULT to 0. -/
def Obligations.FaultIsStickyUntilReset : Prop :=
  (∀ s t : State, step s = .next t → (∀ rest, s.inputs ≠ .reset :: rest) →
    (∀ k, s.fault.getLsbD k = true → t.fault.getLsbD k = true) ∧
    (∀ r0 r1, t.responses = s.responses ++ [⟨.ok, r0, r1⟩] → t.fault = s.fault) ∧
    (∀ e r0 r1, t.responses = s.responses ++ [⟨.error e, r0, r1⟩] →
      t.fault.getLsbD (e.code.toNat - 1) = true)) ∧
  (∀ (s t : State) (rest : List Input), s.inputs = .reset :: rest → step s = .next t → t.fault = 0) ∧
  (∀ s t : State, step s = .next t → s.fault ≠ 0 → t.fault = 0 → ∃ rest, s.inputs = .reset :: rest)

/-- R150, R153: which status every frame is answered with. ILLEGAL exactly when the frame spells no instruction; UNSEEDED and
GAINS_UNSET exactly when the state precondition fails; OVERFLOW only past those and under FAULT; NUMERIC only past OVERFLOW; OK
otherwise. -/
def Obligations.ErrorsFollowThePriorityOrder : Prop :=
  ∀ (s : State) (f : Frame) (rest : List Input), s.inputs = .request f :: rest →
    ∃ t r, step s = .next t ∧ t.responses = s.responses ++ [r] ∧
      let fp := s.cfg.fpArith
      let outOf32 := fun v : Int => v < -2 ^ 31 ∨ v > 2 ^ 31 - 1
      let illegal := ∀ i, decode f ≠ .ok i
      let unseeded := ∃ a raw, decode f = .ok (.encUpdate a raw) ∧ s.last.get a = none
      let gainsUnset :=
        (∃ x y, decode f = .ok (.vpidCompute x y) ∧ (s.vkp = none ∨ s.vki = none ∨ s.vkd = none)) ∨
        (∃ x y, decode f = .ok (.ppidCompute x y) ∧ s.pkp = none)
      let overflow := s.cfg.int32Overflow = .fault ∧
        ((∃ a raw l, decode f = .ok (.encUpdate a raw) ∧ s.last.get a = some l ∧
            outOf32 ((s.pos.get a).toInt + encDelta s.cfg.encDeltaMode l.toInt raw.toInt)) ∨
          (∃ x y, decode f = .ok (.ppidCompute x y) ∧ s.pkp.isSome ∧ outOf32 (x.toInt - y.toInt)))
      let numeric :=
        (∃ x y kp ki kd, decode f = .ok (.vpidCompute x y) ∧ s.vkp = some kp ∧ s.vki = some ki ∧ s.vkd = some kd ∧
          f32IsNaN fp (f32Add fp s.acc
            (pidIncrement fp kp ki kd (x.toInt - y.toInt) s.e0.toInt s.e1.toInt)) = true) ∨
        (∃ x y kp, decode f = .ok (.ppidCompute x y) ∧ s.pkp = some kp ∧ ¬ overflow ∧
          f32IsNaN fp (f32Mul fp kp (f32OfInt fp (wrapS 32 (x.toInt - y.toInt)))) = true)
      (r.status = .error .illegal ↔ illegal) ∧ (r.status = .error .unseeded ↔ unseeded) ∧
      (r.status = .error .gainsUnset ↔ gainsUnset) ∧ (r.status = .error .overflow ↔ overflow) ∧
      (r.status = .error .numeric ↔ numeric) ∧
      (r.status = .ok ↔ ¬ illegal ∧ ¬ unseeded ∧ ¬ gainsUnset ∧ ¬ overflow ∧ ¬ numeric)

/-- R51, R150: where a response carries its status code and its results, and the codes. -/
def Obligations.ResponseLayoutAndCodes : Prop :=
  (∀ r : Response, r.bits.extractLsb' 64 3 = r.status.code ∧ r.bits.extractLsb' 67 29 = 0 ∧
    r.bits.extractLsb' 32 32 = r.r0 ∧ r.bits.extractLsb' 0 32 = r.r1) ∧
  Status.ok.code = 0 ∧ (Status.error .illegal).code = 1 ∧ (Status.error .unseeded).code = 2 ∧
  (Status.error .gainsUnset).code = 3 ∧ (Status.error .numeric).code = 4 ∧ (Status.error .overflow).code = 5

/-! ### Block control (44_block_control) -/

/-- R140: NOP is the all-zero frame, answers OK and changes nothing. -/
def Obligations.NopAnswersOkAndChangesNothing : Prop :=
  (∀ f, decode f = .ok .nop ↔ f = 0) ∧
  ∀ s : State, exec .nop s = .next { s with responses := s.responses ++ [⟨.ok, 0, 0⟩] }

/-- R141: STATUS_READ answers FAULT in R0[4:0] with zeros above, and changes nothing. -/
def Obligations.StatusReadAnswersFault : Prop :=
  (∀ f, decode f = .ok .statusRead ↔ f = frameOf 0xF0 0 0 0 0 0) ∧
  ∀ s : State, exec .statusRead s = .next { s with responses := s.responses ++ [⟨.ok, 0#27 ++ s.fault, 0⟩] }

/-! ### Encoder tracker (40_encoder) -/

/-- R72: ENC_CLEAR sets POS[a] to 0 and LAST[a] to the sample, answers OK, and changes nothing else. -/
def Obligations.EncClearSeedsTheAxis : Prop :=
  ∀ (a : Axis) (raw : BitVec 16) (s : State),
    (∀ f, decode f = .ok (.encClear a raw) ↔ f = frameOf 0x01 (selBit a) 0 0 0 (0#16 ++ raw)) ∧
    exec (.encClear a raw) s = .next { s with
      pos := s.pos.set a 0, last := s.last.set a (some raw), responses := s.responses ++ [⟨.ok, 0, 0⟩] }

/-- R73: ENC_UPDATE. Unseeded: UNSEEDED. Out of 32 bits under FAULT: OVERFLOW. Otherwise POS[a] and LAST[a] are written and
the new position and the velocity are answered. -/
def Obligations.EncUpdateAdvancesThePosition : Prop :=
  ∀ (a : Axis) (raw : BitVec 16) (s : State),
    (∀ f, decode f = .ok (.encUpdate a raw) ↔ f = frameOf 0x02 (selBit a) 0 0 0 (0#16 ++ raw)) ∧
    (s.last.get a = none →
      exec (.encUpdate a raw) s = .next { s with
        fault := s.fault ||| 0x02, responses := s.responses ++ [⟨.error .unseeded, 0, 0⟩] }) ∧
    ∀ l : BitVec 16, s.last.get a = some l →
      let d := encDelta s.cfg.encDeltaMode l.toInt raw.toInt
      let p := (s.pos.get a).toInt + d
      ((p < -2 ^ 31 ∨ p > 2 ^ 31 - 1) ∧ s.cfg.int32Overflow = .fault →
        exec (.encUpdate a raw) s = .next { s with
          fault := s.fault ||| 0x10, responses := s.responses ++ [⟨.error .overflow, 0, 0⟩] }) ∧
      (¬ ((p < -2 ^ 31 ∨ p > 2 ^ 31 - 1) ∧ s.cfg.int32Overflow = .fault) →
        exec (.encUpdate a raw) s = .next { s with
          pos := s.pos.set a (BitVec.ofInt 32 p), last := s.last.set a (some raw),
          responses := s.responses ++
            [⟨.ok, BitVec.ofInt 32 p, BitVec.ofInt 32 (encVel s.cfg.velTie s.cfg.velNarrow d)⟩] })

/-- R74: ENC_READ answers POS[a], and LAST[a] with bit 16 set on a seeded axis or 0 on an unseeded one; it changes
nothing. -/
def Obligations.EncReadAnswersTheAxis : Prop :=
  ∀ (a : Axis) (s : State),
    (∀ f, decode f = .ok (.encRead a) ↔ f = frameOf 0x03 (selBit a) 0 0 0 0) ∧
    (s.last.get a = none →
      exec (.encRead a) s = .next { s with responses := s.responses ++ [⟨.ok, s.pos.get a, 0⟩] }) ∧
    ∀ l : BitVec 16, s.last.get a = some l →
      exec (.encRead a) s = .next { s with
        responses := s.responses ++ [⟨.ok, s.pos.get a, 0#15 ++ 1#1 ++ l⟩] }

/-- R70: the wrap-corrected delta of two 16-bit samples: its range and its residue in each mode, when the correction is made,
and the one difference, +32768, at which the modes disagree. -/
def Obligations.EncDeltaCorrectsOneWrap : Prop :=
  ∀ l c : Int, -32768 ≤ l → l ≤ 32767 → -32768 ≤ c → c ≤ 32767 →
    (c - l > 32768 → encDelta .wide l c = c - l - 65536) ∧
    (c - l < -32768 → encDelta .wide l c = c - l + 65536) ∧
    (-32768 ≤ c - l ∧ c - l ≤ 32768 → encDelta .wide l c = c - l) ∧
    (-32768 ≤ encDelta .wide l c ∧ encDelta .wide l c ≤ 32768) ∧
    (-32768 ≤ encDelta .wrap16 l c ∧ encDelta .wrap16 l c ≤ 32767) ∧
    (encDelta .wide l c - (c - l)) % 65536 = 0 ∧ (encDelta .wrap16 l c - (c - l)) % 65536 = 0 ∧
    (c - l ≠ 32768 → encDelta .wide l c = encDelta .wrap16 l c) ∧
    (c - l = 32768 → encDelta .wide l c = 32768 ∧ encDelta .wrap16 l c = -32768)

/-- R71, R10: the velocity of every delta ENC_UPDATE can form. There is an integer r within one half of d * 37/20, at a tie
the one farther from zero or the even one as VEL_TIE says; r fits 16 bits exactly when |d| ≤ 17712; and the velocity is r
wrapped or saturated as VEL_NARROW says. -/
def Obligations.EncVelIsTheRoundedProduct : Prop :=
  ∀ (d : Int) (tie : VelTie) (narrow : VelNarrow), -32768 ≤ d → d ≤ 32768 →
    ∃ r : Int,
      (-10 ≤ 20 * r - 37 * d ∧ 20 * r - 37 * d ≤ 10) ∧
      (20 * r - 37 * d = 10 ∨ 20 * r - 37 * d = -10 →
        (tie = .away → |37 * d| < |20 * r|) ∧ (tie = .even → r % 2 = 0)) ∧
      (|r| > 32767 ↔ |d| ≥ 17713) ∧
      (|d| ≤ 17712 → encVel tie narrow d = r) ∧
      (narrow = .wrap → -32768 ≤ encVel tie narrow d ∧ encVel tie narrow d ≤ 32767 ∧
        (encVel tie narrow d - r) % 65536 = 0) ∧
      (narrow = .saturate → encVel tie narrow d = max (-32768) (min 32767 r))

/-- R75, its first two points: a counter that moves by at most 32767 counts between samples adds exactly its movement to
POS[a] (mod 2^32); a raw difference outside [-32768, 32768] is corrected by one wrap. -/
def Obligations.MovementWithinBandwidthIsAddedExactly : Prop :=
  (∀ (s : State) (a : Axis) (l : BitVec 16) (m : Int), s.last.get a = some l → -32767 ≤ m → m ≤ 32767 →
    (s.cfg.int32Overflow = .wrap ∨ (-2 ^ 31 ≤ (s.pos.get a).toInt + m ∧ (s.pos.get a).toInt + m ≤ 2 ^ 31 - 1)) →
    ∃ t, exec (.encUpdate a (BitVec.ofInt 16 (l.toInt + m))) s = .next t ∧
      t.pos.get a = s.pos.get a + BitVec.ofInt 32 m) ∧
  (∀ l c : Int, -32768 ≤ l → l ≤ 32767 → -32768 ≤ c → c ≤ 32767 →
    (c - l > 32768 → ∀ mode, encDelta mode l c = c - l - 65536) ∧
    (c - l < -32768 → ∀ mode, encDelta mode l c = c - l + 65536))

/-- R76: after any sequence of events POS[a] is the exact sum of the deltas of the successful ENC_UPDATEs since the last
ENC_CLEAR or reset, read mod 2^32 as i32; under INT32_OVERFLOW = FAULT the sum itself. -/
def Obligations.PositionIsTheSumOfTheDeltas : Prop :=
  ∀ (ins : List Input) (s t : State) (a : Axis),
    Host.Core.run Sys2Proof.core ins.length { s with inputs := ins } = .next t →
    let g := ins.foldl (ExactAxis.afterInput s.cfg a) (ExactAxis.ofState a s)
    (t.pos.get a).toInt = wrapS 32 g.sum ∧ (t.last.get a).map rawValue = g.last ∧
    (s.cfg.int32Overflow = .fault → (t.pos.get a).toInt = g.sum)

/-! ### Velocity controller (41_velocity_pid) -/

/-- R90: VPID_SET_PARAMS stores the three values f32_from_bits gives, unchecked, answers OK, and changes nothing else; under
binary32 those are the values whose interchange patterns the operands are, any pattern. -/
def Obligations.VpidSetParamsStoresTheGains : Prop :=
  ∀ (kp ki kd : Word) (s : State),
    (∀ f, decode f = .ok (.vpidSetParams kp ki kd) ↔ f = frameOf 0x12 0 0 kp ki kd) ∧
    let fp := s.cfg.fpArith
    exec (.vpidSetParams kp ki kd) s = .next { s with
      vkp := some (f32FromBits fp kp), vki := some (f32FromBits fp ki), vkd := some (f32FromBits fp kd),
      responses := s.responses ++ [⟨.ok, 0, 0⟩] } ∧
    (fp = .binary32 → exec (.vpidSetParams kp ki kd) s = .next { s with
      vkp := some kp, vki := some ki, vkd := some kd, responses := s.responses ++ [⟨.ok, 0, 0⟩] })

/-- R91: VPID_RESET zeroes the history and the accumulator, answers OK, and changes nothing else. -/
def Obligations.VpidResetZeroesTheHistory : Prop :=
  (∀ f, decode f = .ok .vpidReset ↔ f = frameOf 0x11 0 0 0 0 0) ∧
  ∀ s : State, exec .vpidReset s = .next { s with
    e0 := 0, e1 := 0, e2 := 0, acc := 0x00000000#32, responses := s.responses ++ [⟨.ok, 0, 0⟩] }

/-- R92: VPID_COMPUTE. A gain unset: GAINS_UNSET. A NaN sum: NUMERIC. Otherwise the history is shifted, ACC is the clamped
sum, and its truncation and its bits are answered. -/
def Obligations.VpidComputeAddsTheIncrement : Prop :=
  ∀ (t y : BitVec 16) (s : State),
    (∀ f, decode f = .ok (.vpidCompute t y) ↔ f = frameOf 0x10 0 0 (0#16 ++ t) (0#16 ++ y) 0) ∧
    (s.vkp = none ∨ s.vki = none ∨ s.vkd = none →
      exec (.vpidCompute t y) s = .next { s with
        fault := s.fault ||| 0x04, responses := s.responses ++ [⟨.error .gainsUnset, 0, 0⟩] }) ∧
    ∀ kp ki kd : F32, s.vkp = some kp → s.vki = some ki → s.vkd = some kd →
      let fp := s.cfg.fpArith
      let n0 := t.toInt - y.toInt
      let n1 := s.e0.toInt
      let n2 := s.e1.toInt
      let p1 := f32Mul fp kp (f32OfInt fp (n0 - n1))
      let p2 := f32Mul fp ki (f32OfInt fp n0)
      let p3 := f32Mul fp kd (f32OfInt fp (n0 - 2 * n1 + n2))
      let sum := f32Add fp s.acc (f32Add fp (f32Add fp p1 p2) p3)
      let c := clampF fp sum 0xC4480000#32 0x44480000#32
      (f32IsNaN fp sum = true →
        exec (.vpidCompute t y) s = .next { s with
          fault := s.fault ||| 0x08, responses := s.responses ++ [⟨.error .numeric, 0, 0⟩] }) ∧
      (f32IsNaN fp sum = false →
        exec (.vpidCompute t y) s = .next { s with
          e0 := BitVec.ofInt 32 n0, e1 := s.e0, e2 := s.e1, acc := c,
          responses := s.responses ++ [⟨.ok, BitVec.ofInt 32 (f32Trunc0 fp c), f32Bits fp c⟩] })

/-- R93, R92, under FP_ARITH = binary32 (log 16): a successful VPID_COMPUTE answers an output in [-800, 800], the new ACC is
finite and in [-800, 800], whatever the state it started from, and the output is ACC truncated toward zero. With the gains
set and a sum that is no NaN the compute succeeds, and the new ACC is the sum inside [-800, 800], 800.0 above and -800.0
below, infinities included. -/
def Obligations.VpidOutputStaysInRange : Prop :=
  ∀ (t y : BitVec 16) (s : State), s.cfg.fpArith = .binary32 →
    (∀ (u : State) (r0 r1 : Word), exec (.vpidCompute t y) s = .next u → u.responses = s.responses ++ [⟨.ok, r0, r1⟩] →
      -800 ≤ r0.toInt ∧ r0.toInt ≤ 800 ∧ finiteWithin 800 u.acc ∧ r1 = u.acc ∧
      r0.toInt = (b32Units u.acc).tdiv (2 ^ 149)) ∧
    (∀ kp ki kd : F32, s.vkp = some kp → s.vki = some ki → s.vkd = some kd →
      let n0 := t.toInt - y.toInt
      let n1 := s.e0.toInt
      let n2 := s.e1.toInt
      let inc := b32Add (b32Add (b32Mul kp (b32OfInt (n0 - n1))) (b32Mul ki (b32OfInt n0)))
        (b32Mul kd (b32OfInt (n0 - 2 * n1 + n2)))
      let sum := b32Add s.acc inc
      b32IsNaN sum = false →
      ∃ u r0, exec (.vpidCompute t y) s = .next u ∧ u.responses = s.responses ++ [⟨.ok, r0, u.acc⟩] ∧
        isClamped 800 0xC4480000#32 0x44480000#32 sum u.acc)

/-- R94, under FP_ARITH = binary32 (log 16): from an all-zero history the output is
trunc0(clampF(((kp*e0) + (ki*e0)) + (kd*e0), -800, 800)), whenever that sum is no NaN. -/
def Obligations.ComputeFromZeroHistory : Prop :=
  ∀ (t y : BitVec 16) (s : State) (kp ki kd : F32), s.cfg.fpArith = .binary32 →
    s.e0 = 0 → s.e1 = 0 → s.acc = 0 → s.vkp = some kp → s.vki = some ki → s.vkd = some kd →
    let e := b32OfInt (t.toInt - y.toInt)
    let inc := b32Add (b32Add (b32Mul kp e) (b32Mul ki e)) (b32Mul kd e)
    b32IsNaN inc = false →
    ∃ u, exec (.vpidCompute t y) s = .next u ∧
      u.responses = s.responses ++
        [⟨.ok, BitVec.ofInt 32 (b32Trunc0 (clampF .binary32 inc 0xC4480000#32 0x44480000#32)), u.acc⟩]

/-- R95: the increment depends only on the arithmetic, the gains, the operands, E0 and E1: two states that agree on these
and differ anywhere else add the same increment, each to its own ACC. That the clamp's literals 800.0 and -800.0 are these
patterns under supplied arithmetic too is the model's choice (log 10). -/
def Obligations.IncrementIgnoresTheAccumulator : Prop :=
  ∀ (t y : BitVec 16) (s₁ s₂ : State), s₁.cfg.fpArith = s₂.cfg.fpArith → s₁.vkp = s₂.vkp → s₁.vki = s₂.vki →
    s₁.vkd = s₂.vkd → s₁.e0 = s₂.e0 → s₁.e1 = s₂.e1 →
    ∃ inc : F32,
      (∀ u r0 r1, exec (.vpidCompute t y) s₁ = .next u → u.responses = s₁.responses ++ [⟨.ok, r0, r1⟩] →
        u.acc = clampF s₁.cfg.fpArith (f32Add s₁.cfg.fpArith s₁.acc inc) 0xC4480000#32 0x44480000#32) ∧
      (∀ u r0 r1, exec (.vpidCompute t y) s₂ = .next u → u.responses = s₂.responses ++ [⟨.ok, r0, r1⟩] →
        u.acc = clampF s₂.cfg.fpArith (f32Add s₂.cfg.fpArith s₂.acc inc) 0xC4480000#32 0x44480000#32)

/-- R176, R91, R92: both orders of a VPID_RESET and another client's VPID_COMPUTE are runs, and they differ: computed first,
the history ends all zero; reset first, E0 is the new error and E1, E2 are zero. -/
def Obligations.ResetComputeRaceHasBothOrders : Prop :=
  ∀ (t y : BitVec 16) (s : State),
    (∃ u v, exec (.vpidCompute t y) s = .next u ∧ exec .vpidReset u = .next v ∧
      v.e0 = 0 ∧ v.e1 = 0 ∧ v.e2 = 0 ∧ v.acc = 0) ∧
    (∃ u v, exec .vpidReset s = .next u ∧ exec (.vpidCompute t y) u = .next v ∧
      v.e1 = 0 ∧ v.e2 = 0 ∧
      (∀ r0 r1, v.responses = u.responses ++ [⟨.ok, r0, r1⟩] → v.e0.toInt = t.toInt - y.toInt))

/-! ### Position controller (42_position_pid) -/

/-- R110: PPID_SET_PARAMS stores the value f32_from_bits gives for kp, unchecked, discards B and C, answers OK, and changes
nothing else; under binary32 that is the value whose interchange pattern kp is. -/
def Obligations.PpidSetParamsStoresOnlyKp : Prop :=
  ∀ (kp ki kd : Word) (s : State),
    (∀ f, decode f = .ok (.ppidSetParams kp ki kd) ↔ f = frameOf 0x22 0 0 kp ki kd) ∧
    exec (.ppidSetParams kp ki kd) s = .next { s with
      pkp := some (f32FromBits s.cfg.fpArith kp), responses := s.responses ++ [⟨.ok, 0, 0⟩] } ∧
    (s.cfg.fpArith = .binary32 → exec (.ppidSetParams kp ki kd) s = .next { s with
      pkp := some kp, responses := s.responses ++ [⟨.ok, 0, 0⟩] })

/-- R111: PPID_COMPUTE. kp unset: GAINS_UNSET. The error out of 32 bits under FAULT: OVERFLOW. A NaN product: NUMERIC.
Otherwise the clamped, truncated product is answered; it changes no state. -/
def Obligations.PpidComputeScalesTheError : Prop :=
  ∀ (t y : Word) (s : State),
    (∀ f, decode f = .ok (.ppidCompute t y) ↔ f = frameOf 0x20 0 0 t y 0) ∧
    (s.pkp = none →
      exec (.ppidCompute t y) s = .next { s with
        fault := s.fault ||| 0x04, responses := s.responses ++ [⟨.error .gainsUnset, 0, 0⟩] }) ∧
    ∀ kp : F32, s.pkp = some kp →
      let fp := s.cfg.fpArith
      let e := t.toInt - y.toInt
      let out := e < -2 ^ 31 ∨ e > 2 ^ 31 - 1
      let x := f32Mul fp kp (f32OfInt fp (if out then wrapS 32 e else e))
      (out ∧ s.cfg.int32Overflow = .fault →
        exec (.ppidCompute t y) s = .next { s with
          fault := s.fault ||| 0x10, responses := s.responses ++ [⟨.error .overflow, 0, 0⟩] }) ∧
      (¬ (out ∧ s.cfg.int32Overflow = .fault) → f32IsNaN fp x = true →
        exec (.ppidCompute t y) s = .next { s with
          fault := s.fault ||| 0x08, responses := s.responses ++ [⟨.error .numeric, 0, 0⟩] }) ∧
      (¬ (out ∧ s.cfg.int32Overflow = .fault) → f32IsNaN fp x = false →
        exec (.ppidCompute t y) s = .next { s with
          responses := s.responses ++
            [⟨.ok, BitVec.ofInt 32 (f32Trunc0 fp (clampF fp x 0xC2480000#32 0x42480000#32)), 0⟩] })

/-- R112, its first point, and R111, under FP_ARITH = binary32 (log 16): a successful PPID_COMPUTE answers an output in
[-50, 50] for every gain. With kp set, no overflow and a product that is no NaN the compute succeeds, and the output is the
truncation of the product inside [-50, 50], of 50.0 above and of -50.0 below, infinities included. -/
def Obligations.PpidOutputStaysInRange : Prop :=
  ∀ (t y : Word) (s : State), s.cfg.fpArith = .binary32 →
    (∀ (u : State) (r0 r1 : Word), exec (.ppidCompute t y) s = .next u → u.responses = s.responses ++ [⟨.ok, r0, r1⟩] →
      -50 ≤ r0.toInt ∧ r0.toInt ≤ 50 ∧ r1 = 0) ∧
    (∀ kp : F32, s.pkp = some kp →
      let e := t.toInt - y.toInt
      let out := e < -2 ^ 31 ∨ e > 2 ^ 31 - 1
      let x := b32Mul kp (b32OfInt (if out then wrapS 32 e else e))
      ¬ (out ∧ s.cfg.int32Overflow = .fault) → b32IsNaN x = false →
      ∃ c r0, isClamped 50 0xC2480000#32 0x42480000#32 x c ∧ r0.toInt = (b32Units c).tdiv (2 ^ 149) ∧
        exec (.ppidCompute t y) s = .next { s with responses := s.responses ++ [⟨.ok, r0, 0⟩] })

/-- R112, its second point: with |2x| ≤ 50 and no overflow or underflow, doubling kp doubles the product exactly, and doubles
the output exactly when the fractional part of |x| is below one half. -/
def Obligations.DoublingKpDoublesTheProduct : Prop :=
  ∀ (kp kp2 : F32) (e : Int), b32IsFinite kp = true → b32IsFinite kp2 = true → b32Units kp2 = 2 * b32Units kp →
    -2 ^ 31 ≤ e → e ≤ 2 ^ 31 - 1 →
    let x := b32Mul kp (b32OfInt e)
    let x2 := b32Mul kp2 (b32OfInt e)
    let out := b32Trunc0 (clampF .binary32 x 0xC2480000#32 0x42480000#32)
    let out2 := b32Trunc0 (clampF .binary32 x2 0xC2480000#32 0x42480000#32)
    (b32Mag kp * b32Mag (b32OfInt e) = 0 ∨ 2 ^ 172 ≤ b32Mag kp * b32Mag (b32OfInt e)) →
    2 * |b32Units x| ≤ 50 * 2 ^ 149 →
    b32Units x2 = 2 * b32Units x ∧ (out2 = 2 * out ↔ 2 * (|b32Units x| % 2 ^ 149) < 2 ^ 149)

/-! ### Actuation gate (43_actuation_gate) -/

/-- R122: GATE_APPLY writes the shaped command's duty and direction lines to the motor's latches, answers them, and changes
nothing else. -/
def Obligations.GateApplyDrivesTheMotor : Prop :=
  ∀ (m : Motor) (md : SysMode) (cmd : Word) (s : State),
    (∀ f, decode f = .ok (.gateApply m md cmd) ↔ f = frameOf 0x30 (selBit m) (modeBit md) cmd 0 0) ∧
    let g := gateDir s.cfg.dirPolarity (gateShape cmd.toInt md)
    exec (.gateApply m md cmd) s = .next { s with
      duty := s.duty.set m g.duty, dira := s.dira.set m g.dira, dirb := s.dirb.set m g.dirb,
      responses := s.responses ++ [⟨.ok, 0#16 ++ g.duty, 0#30 ++ BitVec.ofBool g.dira ++ BitVec.ofBool g.dirb⟩] }

/-- R120: the clamps and the dead-zone as one map: in VC a magnitude below 30 gives 0, in PF one below 120; what passes is
limited to 1000 and 200. -/
def Obligations.GateShapeClampsThenZeroes : Prop :=
  ∀ cmd : Int,
    gateShape cmd .vc = (if |cmd| < 30 then 0 else if cmd > 1000 then 1000 else if cmd < -1000 then -1000 else cmd) ∧
    gateShape cmd .pf = (if |cmd| < 120 then 0 else if cmd > 200 then 200 else if cmd < -200 then -200 else cmd)

/-- R121: the duty is the magnitude, the sign selects one line as DIR_POLARITY says, a zero command leaves both low, and
(1, 1) is never produced. -/
def Obligations.GateDirSelectsOneLine : Prop :=
  (∀ polarity, gateDir polarity 0 = ⟨0, false, false⟩) ∧
  (∀ c : Int, 0 < c → c ≤ 1000 →
    gateDir .aPositive c = ⟨BitVec.ofInt 16 c, true, false⟩ ∧ gateDir .bPositive c = ⟨BitVec.ofInt 16 c, false, true⟩ ∧
    gateDir .aPositive (-c) = ⟨BitVec.ofInt 16 c, false, true⟩ ∧
    gateDir .bPositive (-c) = ⟨BitVec.ofInt 16 c, true, false⟩ ∧
    ((BitVec.ofInt 16 c).toNat : Int) = c) ∧
  (∀ polarity c, ¬ ((gateDir polarity c).dira = true ∧ (gateDir polarity c).dirb = true))

/-- R123: a command whose magnitude is below 30 in VC, or below 120 in PF, gives duty 0 and both direction lines low. -/
def Obligations.SmallCommandsStopTheMotor : Prop :=
  ∀ (m : Motor) (md : SysMode) (cmd : Word) (s : State),
    (md = .vc ∧ |cmd.toInt| < 30) ∨ (md = .pf ∧ |cmd.toInt| < 120) →
    exec (.gateApply m md cmd) s = .next { s with
      duty := s.duty.set m 0, dira := s.dira.set m false, dirb := s.dirb.set m false,
      responses := s.responses ++ [⟨.ok, 0, 0⟩] }

/-- R124: after any GATE_APPLY the duty is at most 1000, at most 200 in PF, and a command that is not stopped keeps its sign:
the line that is high is the one DIR_POLARITY gives the sign of cmd. -/
def Obligations.DutySaturatesAndKeepsTheSign : Prop :=
  ∀ (m : Motor) (md : SysMode) (cmd : Word) (s : State),
    ∃ t, exec (.gateApply m md cmd) s = .next t ∧
      (t.duty.get m).toNat ≤ 1000 ∧ (md = .pf → (t.duty.get m).toNat ≤ 200) ∧
      (gateShape cmd.toInt md ≠ 0 → (gateShape cmd.toInt md).sign = cmd.toInt.sign) ∧
      (t.duty.get m ≠ 0 →
        (t.dira.get m = true ↔ (0 < cmd.toInt ↔ s.cfg.dirPolarity = .aPositive)) ∧
        (t.dirb.get m = true ↔ (0 < cmd.toInt ↔ s.cfg.dirPolarity = .bPositive)))

/-! ### Rules of the whole block -/

/-- R22 to R27, R43: the frame of every instruction. Only ENC_CLEAR and ENC_UPDATE of an axis change its POS and LAST, only
VPID_COMPUTE and VPID_RESET the history and ACC, only VPID_SET_PARAMS the velocity gains, only PPID_SET_PARAMS kp, only
GATE_APPLY of a motor its latches; only an error response changes FAULT; one response is added; the parameters and the
waiting inputs stay. -/
def Obligations.InstructionsWriteOnlyTheirOwnElements : Prop :=
  ∀ (i : Instr) (s t : State), exec i s = .next t →
    (∀ a, (∀ raw, i ≠ .encClear a raw) → (∀ raw, i ≠ .encUpdate a raw) →
      t.pos.get a = s.pos.get a ∧ t.last.get a = s.last.get a) ∧
    ((∀ x y, i ≠ .vpidCompute x y) → i ≠ .vpidReset →
      t.e0 = s.e0 ∧ t.e1 = s.e1 ∧ t.e2 = s.e2 ∧ t.acc = s.acc) ∧
    ((∀ kp ki kd, i ≠ .vpidSetParams kp ki kd) → t.vkp = s.vkp ∧ t.vki = s.vki ∧ t.vkd = s.vkd) ∧
    ((∀ kp ki kd, i ≠ .ppidSetParams kp ki kd) → t.pkp = s.pkp) ∧
    (∀ m, (∀ md cmd, i ≠ .gateApply m md cmd) →
      t.duty.get m = s.duty.get m ∧ t.dira.get m = s.dira.get m ∧ t.dirb.get m = s.dirb.get m) ∧
    (∃ r, t.responses = s.responses ++ [r] ∧ (r.status = .ok → t.fault = s.fault)) ∧
    t.cfg = s.cfg ∧ t.inputs = s.inputs

/-- R43: VPID_RESET, VPID_SET_PARAMS, PPID_SET_PARAMS, GATE_APPLY and ENC_CLEAR are idempotent: repeated with the same
operands they change nothing further, and answer the same again. -/
def Obligations.SettersAndClearsAreIdempotent : Prop :=
  ∀ (i : Instr) (s : State),
    (i = .vpidReset ∨ (∃ kp ki kd, i = .vpidSetParams kp ki kd) ∨ (∃ kp ki kd, i = .ppidSetParams kp ki kd) ∨
      (∃ m md cmd, i = .gateApply m md cmd) ∨ (∃ a raw, i = .encClear a raw)) →
    ∃ t r, exec i s = .next t ∧ t.responses = s.responses ++ [r] ∧
      exec i t = .next { t with responses := t.responses ++ [r] }

/-- R2, R43, R48: operations of different sub-blocks, axes or motors do not interfere: in either order they leave the same
state, and each gives the same response. -/
def Obligations.UnitsDoNotInterfere : Prop :=
  ∀ (i j : Instr) (s : State), unitOf i ≠ none → unitOf j ≠ none → unitOf i ≠ unitOf j →
    ∃ t u v w ri rj, exec i s = .next t ∧ exec j t = .next u ∧ exec j s = .next v ∧ exec i v = .next w ∧
      u.responses = s.responses ++ [ri, rj] ∧ w.responses = s.responses ++ [rj, ri] ∧
      w = { u with responses := w.responses }

/-- R22, R24, R25, R31: what has been seeded or set stays so until a reset, whatever the request; and then no ENC_UPDATE of
that axis answers UNSEEDED and no compute of that controller answers GAINS_UNSET. -/
def Obligations.SeedAndGainsLastUntilReset : Prop :=
  (∀ s t : State, step s = .next t → (∀ rest, s.inputs ≠ .reset :: rest) →
    (∀ a, (s.last.get a).isSome → (t.last.get a).isSome) ∧
    (s.vkp.isSome → t.vkp.isSome) ∧ (s.vki.isSome → t.vki.isSome) ∧ (s.vkd.isSome → t.vkd.isSome) ∧
    (s.pkp.isSome → t.pkp.isSome)) ∧
  (∀ (s t : State) (i : Instr) (e : ErrorCode), exec i s = .next t → t.responses = s.responses ++ [⟨.error e, 0, 0⟩] →
    (e = .unseeded → ∃ a raw, i = .encUpdate a raw ∧ s.last.get a = none) ∧
    (e = .gainsUnset → (∃ x y, i = .vpidCompute x y ∧ (s.vkp = none ∨ s.vki = none ∨ s.vkd = none)) ∨
      (∃ x y, i = .ppidCompute x y ∧ s.pkp = none)))

/-- R20, R23, R24, R26, R74, R120, R121: every step keeps the invariant of the block's state. Its clause on ACC, finite and in
[-800, 800], is claimed under FP_ARITH = binary32 only (log 16); every other clause under all parameters. -/
def Obligations.EveryStepKeepsTheInvariant : Prop :=
  ∀ s t : State, s.Inv → step s = .next t → t.Inv

/-- R31: the invariant holds after reset, whatever the parameters, those of `State.reset` (the defaults: the model's choice,
log 13) among them. -/
def Obligations.InvariantHoldsAtReset : Prop :=
  State.reset.Inv ∧ ∀ cfg : Config, (State.resetWith cfg).Inv

/-! ### Assembly (30_encoding) -/

/-- R61: the expansions of the pseudo-instructions, and that GATE_STOP's choice of VC has no effect. -/
def Obligations.PseudoInstructionsExpand : Prop :=
  (∀ m, assemble (.gateStop m) = assemble (.gateApply m .vc 0)) ∧
  assemble .stopAll = some [.gateApply .one .vc 0, .gateApply .two .vc 0] ∧
  (∀ kp, assemble (.ppidSetKp kp) = assemble (.ppidSetParams kp (.decimal false 0 1) (.decimal false 0 1))) ∧
  (∀ m s, exec (.gateApply m .vc 0) s = exec (.gateApply m .pf 0) s)

/-- R54, R60: a number in range is the value the operand carries, a raw sample up to a multiple of 65536; a gain is the
pattern written, or the decimal real rounded to nearest even (binary32 overflow: log 7); a number out of range is an
assembly error, in every form that takes one. -/
def Obligations.AssembledOperandsCarryTheirNumbers : Prop :=
  (∀ t y : Int, -32768 ≤ t ∧ t ≤ 32767 ∧ -32768 ≤ y ∧ y ≤ 32767 →
    ∃ bt bv : BitVec 16, assemble (.vpidCompute t y) = some [.vpidCompute bt bv] ∧ bt.toInt = t ∧ bv.toInt = y) ∧
  (∀ t y : Int, -2 ^ 31 ≤ t ∧ t ≤ 2 ^ 31 - 1 ∧ -2 ^ 31 ≤ y ∧ y ≤ 2 ^ 31 - 1 →
    ∃ bt bv : Word, assemble (.ppidCompute t y) = some [.ppidCompute bt bv] ∧ bt.toInt = t ∧ bv.toInt = y) ∧
  (∀ (m : Motor) (md : SysMode) (cmd : Int), -2 ^ 31 ≤ cmd ∧ cmd ≤ 2 ^ 31 - 1 →
    ∃ bc : Word, assemble (.gateApply m md cmd) = some [.gateApply m md bc] ∧ bc.toInt = cmd) ∧
  (∀ (a : Axis) (raw : Int), -32768 ≤ raw ∧ raw ≤ 65535 →
    ∃ br : BitVec 16, assemble (.encClear a raw) = some [.encClear a br] ∧
      assemble (.encUpdate a raw) = some [.encUpdate a br] ∧ ((br.toNat : Int) - raw) % 65536 = 0) ∧
  (∀ p i d : GainLit, ∃ kp ki kd : F32,
    assemble (.vpidSetParams p i d) = some [.vpidSetParams kp ki kd] ∧
    assemble (.ppidSetParams p i d) = some [.ppidSetParams kp ki kd] ∧ isGain p kp ∧ isGain i ki ∧ isGain d kd) ∧
  (∀ t y : Int, (t < -32768 ∨ 32767 < t ∨ y < -32768 ∨ 32767 < y) → assemble (.vpidCompute t y) = none) ∧
  (∀ t y : Int, (t < -2 ^ 31 ∨ 2 ^ 31 - 1 < t ∨ y < -2 ^ 31 ∨ 2 ^ 31 - 1 < y) → assemble (.ppidCompute t y) = none) ∧
  (∀ (m : Motor) (md : SysMode) (cmd : Int), (cmd < -2 ^ 31 ∨ 2 ^ 31 - 1 < cmd) →
    assemble (.gateApply m md cmd) = none) ∧
  (∀ (a : Axis) (raw : Int), (raw < -32768 ∨ 65535 < raw) →
    assemble (.encClear a raw) = none ∧ assemble (.encUpdate a raw) = none)

/-! ### Binary32 arithmetic (00_scope R11; the IEEE 754 rules are general knowledge, log 7) -/

/-- R11, D13: the binary32 sum of two finite values is correctly rounded: finite below the overflow bound and no finite value
is nearer, at a tie the even significand; an infinity of the sum's sign from the bound on; an exact zero sum is +0.0, and -0.0
only of two negative operands. An infinite operand is the sum, where that is no NaN. -/
def Obligations.Binary32AddIsCorrectlyRounded : Prop :=
  (∀ x y : F32, b32IsFinite x = true → b32IsFinite y = true →
    let v := b32Units x + b32Units y
    (|v| < overflowBound →
      b32IsFinite (b32Add x y) = true ∧
      ∀ z : F32, b32IsFinite z = true →
        |b32Units (b32Add x y) - v| ≤ |b32Units z - v| ∧
        (|b32Units (b32Add x y) - v| = |b32Units z - v| → b32Units z ≠ b32Units (b32Add x y) →
          (b32Add x y).getLsbD 0 = false)) ∧
    (overflowBound ≤ |v| → b32Add x y = if v < 0 then 0xFF800000#32 else 0x7F800000#32) ∧
    (v = 0 → b32Add x y = if x.getLsbD 31 = true ∧ y.getLsbD 31 = true then 0x80000000#32 else 0x00000000#32)) ∧
  (∀ x y : F32, b32IsNaN (b32Add x y) = false →
    (b32IsInf x = true → b32Add x y = x) ∧ (b32IsInf y = true → b32Add x y = y))

/-- R11, D13, R111: the binary32 product of two finite values is correctly rounded, and its sign is the exclusive or of the
signs. The exact product is in units of 2^-298. Where an operand is an infinity and the product is no NaN, the product is the
infinity with that sign. -/
def Obligations.Binary32MulIsCorrectlyRounded : Prop :=
  (∀ x y : F32, b32IsFinite x = true → b32IsFinite y = true →
    let v := b32Units x * b32Units y
    (b32Mul x y).getLsbD 31 = (x.getLsbD 31 ^^ y.getLsbD 31) ∧
    (|v| < overflowBound * 2 ^ 149 →
      b32IsFinite (b32Mul x y) = true ∧
      ∀ z : F32, b32IsFinite z = true →
        |b32Units (b32Mul x y) * 2 ^ 149 - v| ≤ |b32Units z * 2 ^ 149 - v| ∧
        (|b32Units (b32Mul x y) * 2 ^ 149 - v| = |b32Units z * 2 ^ 149 - v| → b32Units z ≠ b32Units (b32Mul x y) →
          (b32Mul x y).getLsbD 0 = false)) ∧
    (overflowBound * 2 ^ 149 ≤ |v| → b32IsInf (b32Mul x y) = true)) ∧
  (∀ x y : F32, b32IsInf x = true ∨ b32IsInf y = true → b32IsNaN (b32Mul x y) = false →
    b32Mul x y = if x.getLsbD 31 = y.getLsbD 31 then 0x7F800000#32 else 0xFF800000#32)

/-- R92, R111, R11: in a state that meets the invariant every integer VPID_COMPUTE converts has magnitude at most 262140 and
converts exactly; so does every integer of magnitude below 2^24; and every 32-bit integer, which PPID_COMPUTE converts, is
rounded to nearest, ties to even, and 0 gives +0.0 (log 7). -/
def Obligations.VpidIntegersConvertExactly : Prop :=
  (∀ (s : State) (t y : BitVec 16), s.Inv →
    let n0 := t.toInt - y.toInt
    let n1 := s.e0.toInt
    let n2 := s.e1.toInt
    ∀ n ∈ [n0 - n1, n0, n0 - 2 * n1 + n2],
      |n| ≤ 262140 ∧ b32IsFinite (f32OfInt .binary32 n) = true ∧ b32Units (f32OfInt .binary32 n) = n * 2 ^ 149) ∧
  (∀ i : Int, |i| < 2 ^ 24 →
    b32IsFinite (f32OfInt .binary32 i) = true ∧ b32Units (f32OfInt .binary32 i) = i * 2 ^ 149) ∧
  (∀ i : Int, -2 ^ 31 ≤ i → i ≤ 2 ^ 31 - 1 → isNearest (i * 2 ^ 149) 1 (f32OfInt .binary32 i)) ∧
  f32OfInt .binary32 0 = 0x00000000#32

/-- R11: comparisons with a NaN are false, a NaN passes through clampF unchanged, and NaN results arise from a NaN operand,
from infinity times zero, and from infinities of opposite sign, and from nothing else. -/
def Obligations.NaNOnlyFromInvalidOperations : Prop :=
  (∀ x y : F32, b32IsNaN x = true ∨ b32IsNaN y = true → b32Gt x y = false ∧ b32Lt x y = false) ∧
  (∀ x lo hi : F32, b32IsNaN x = true → clampF .binary32 x lo hi = x) ∧
  (∀ x y : F32, b32IsNaN (b32Add x y) = true ↔
    (b32IsNaN x = true ∨ b32IsNaN y = true ∨
      (b32IsInf x = true ∧ b32IsInf y = true ∧ x.getLsbD 31 ≠ y.getLsbD 31))) ∧
  (∀ x y : F32, b32IsNaN (b32Mul x y) = true ↔
    (b32IsNaN x = true ∨ b32IsNaN y = true ∨ (b32IsInf x = true ∧ b32Units y = 0) ∨
      (b32Units x = 0 ∧ b32IsInf y = true)))

/-- R11, under binary32: f32_gt and f32_lt are the order of the values, the infinities at its ends (log 7), and clampF gives
`hi` above it, else `lo` below it, else `x`. -/
def Obligations.ComparisonsAndClampFollowTheOrder : Prop :=
  (∀ x y : F32, (f32Gt .binary32 x y = true ↔ isBelow y x) ∧ (f32Lt .binary32 x y = true ↔ isBelow x y)) ∧
  (∀ x lo hi : F32,
    (isBelow hi x → clampF .binary32 x lo hi = hi) ∧
    (¬ isBelow hi x → isBelow x lo → clampF .binary32 x lo hi = lo) ∧
    (¬ isBelow hi x → ¬ isBelow x lo → clampF .binary32 x lo hi = x))
end

