-- ==== Sys2Proof/Laws/Arith.lean ====
section
/-! SUPPORT. The integer primitives of R9 and R10. -/

namespace Sys2Proof.Machine

theorem wrapS_eq_bmod (n : Nat) (v : Int) : wrapS n v = v.bmod (2 ^ n) := by
  rw [wrapS, BitVec.toInt_ofInt]

theorem wrapS16_eq (v : Int) : wrapS 16 v = if v % 65536 < 32768 then v % 65536 else v % 65536 - 65536 := by
  rw [wrapS_eq_bmod, Int.bmod_def]
  rfl

theorem wrapS32_eq (v : Int) :
    wrapS 32 v = if v % 4294967296 < 2147483648 then v % 4294967296 else v % 4294967296 - 4294967296 := by
  rw [wrapS_eq_bmod, Int.bmod_def]
  rfl

theorem wrapS16_range (v : Int) : -32768 ≤ wrapS 16 v ∧ wrapS 16 v ≤ 32767 := by
  rw [wrapS16_eq]
  split <;> omega

theorem wrapS16_residue (v : Int) : (wrapS 16 v - v) % 65536 = 0 := by
  rw [wrapS16_eq]
  split <;> omega

theorem wrapS16_of_mem {v : Int} (h1 : -32768 ≤ v) (h2 : v ≤ 32767) : wrapS 16 v = v := by
  rw [wrapS16_eq]
  split <;> omega

theorem wrapS32_range (v : Int) : -2 ^ 31 ≤ wrapS 32 v ∧ wrapS 32 v ≤ 2 ^ 31 - 1 := by
  rw [wrapS32_eq]
  split <;> omega

theorem wrapS32_of_mem {v : Int} (h1 : -2 ^ 31 ≤ v) (h2 : v ≤ 2 ^ 31 - 1) : wrapS 32 v = v := by
  rw [wrapS32_eq]
  split <;> omega

theorem ofInt32_wrapS32 (v : Int) : BitVec.ofInt 32 (wrapS 32 v) = BitVec.ofInt 32 v := BitVec.ofInt_toInt

theorem toInt_ofInt32 (v : Int) : (BitVec.ofInt 32 v).toInt = wrapS 32 v := rfl

theorem clampI_mem {v lo hi : Int} (h : lo ≤ hi) : lo ≤ clampI v lo hi ∧ clampI v lo hi ≤ hi := by
  unfold clampI
  split
  · exact ⟨le_refl _, h⟩
  · split <;> omega

/-- A result of the INT32_OVERFLOW policy is the value mod 2^32, and is the value itself unless it wrapped. -/
theorem int32Result_eq_some {policy : Int32Overflow} {v p : Int} (h : int32Result policy v = some p) :
    p = wrapS 32 v ∧ (policy = .fault → p = v ∧ -2 ^ 31 ≤ v ∧ v ≤ 2 ^ 31 - 1) := by
  unfold int32Result at h
  split at h
  · cases policy
    · exact ⟨(Option.some.inj h).symm, fun hp => by cases hp⟩
    · cases h
  · next hr =>
    obtain rfl := Option.some.inj h
    have hm : -2 ^ 31 ≤ v ∧ v ≤ 2 ^ 31 - 1 := by omega
    exact ⟨(wrapS32_of_mem hm.1 hm.2).symm, fun _ => ⟨rfl, hm⟩⟩

/-- The policy has no result exactly on an overflow under FAULT. -/
theorem int32Result_eq_none {policy : Int32Overflow} {v : Int} :
    int32Result policy v = none ↔ (v < -2 ^ 31 ∨ v > 2 ^ 31 - 1) ∧ policy = .fault := by
  unfold int32Result
  split
  · next h => cases policy <;> simp only [h, reduceCtorEq, and_true, and_false]
  · next h => simp only [h, reduceCtorEq, false_and]

/-- `round_tie` answers an integer within one half, and at a tie the one its rule names (R10). -/
theorem roundTie_spec (num den : Int) (tie : VelTie) (hd : 0 < den) :
    (-den ≤ 2 * (den * roundTie num den tie - num) ∧ 2 * (den * roundTie num den tie - num) ≤ den) ∧
    (2 * (den * roundTie num den tie - num) = den ∨ 2 * (den * roundTie num den tie - num) = -den →
      (tie = .away → |num| < |den * roundTie num den tie|) ∧ (tie = .even → roundTie num den tie % 2 = 0)) := by
  have hdiv := Int.mul_ediv_add_emod num den
  have hr0 := Int.emod_nonneg num hd.ne'
  have hr1 := Int.emod_lt_of_pos num hd
  have hup : den * (num / den + 1) = den * (num / den) + den := by rw [mul_add, mul_one]
  have hlo : den * (num / den) = num - num % den := by omega
  have hev : num / den % 2 = 0 ∨ num / den % 2 = 1 := Int.emod_two_eq_zero_or_one _
  unfold roundTie
  by_cases h1 : 2 * (num % den) < den
  · simp only [h1, if_true, hlo]
    omega
  by_cases h2 : 2 * (num % den) > den
  · simp only [h1, h2, if_true, if_false, hup, hlo]
    omega
  simp only [h1, h2, if_false]
  cases tie
  · by_cases h3 : 0 ≤ num
    · simp only [h3, if_true, hup, hlo, reduceCtorEq, false_implies, and_true]
      exact ⟨by omega, fun _ _ => by rw [abs_of_nonneg h3, abs_of_nonneg (by omega)]; omega⟩
    · simp only [h3, if_false, hlo, reduceCtorEq, false_implies, and_true]
      exact ⟨by omega, fun _ _ => by rw [abs_of_neg (by omega), abs_of_neg (by omega)]; omega⟩
  · by_cases h3 : num / den % 2 = 0
    · rw [if_pos h3, hlo]
      exact ⟨by omega, fun _ => ⟨fun h => (by cases h), fun _ => h3⟩⟩
    · rw [if_neg h3, hup, hlo]
      exact ⟨by omega, fun _ => ⟨fun h => (by cases h), fun _ => by show (num / den + 1) % 2 = 0; generalize num / den = q at h3 hev ⊢; omega⟩⟩

end Sys2Proof.Machine
end

