-- ==== Sys2Proof/Laws/Binary32.lean ====
section
/-! SUPPORT. The binary32 format (R11): patterns and their magnitudes, and what rounding gives. -/

namespace Sys2Proof.Machine

/-- In binary32 a value is held as its interchange pattern, so both conversions of R11 are the identity. -/
@[simp] theorem f32Bits_binary32 (x : F32) : f32Bits .binary32 x = x := rfl
@[simp] theorem f32FromBits_binary32 (b : Word) : f32FromBits .binary32 b = b := rfl

/-- The magnitude, in units of 2^-149, of a pattern whose lower 31 bits are `m`. -/
def magOf (m : Nat) : Nat := if m / 2 ^ 23 = 0 then m % 2 ^ 23 else (2 ^ 23 + m % 2 ^ 23) * 2 ^ (m / 2 ^ 23 - 1)

theorem magOf_mk (sh q : Nat) (h : sh = 0 ∨ 2 ^ 23 ≤ q) (hq : q ≤ 2 ^ 24) : magOf (sh * 2 ^ 23 + q) = q * 2 ^ sh := by
  unfold magOf
  by_cases h0 : q < 2 ^ 23
  · obtain rfl : sh = 0 := by omega
    rw [if_pos (by omega)]
    omega
  · by_cases h1 : q = 2 ^ 24
    · subst h1
      rw [if_neg (by omega), show (sh * 2 ^ 23 + 2 ^ 24) / 2 ^ 23 - 1 = sh + 1 by omega,
        show (sh * 2 ^ 23 + 2 ^ 24) % 2 ^ 23 = 0 by omega, pow_succ]
      ring
    · rw [if_neg (by omega), show (sh * 2 ^ 23 + q) / 2 ^ 23 - 1 = sh by omega,
        show 2 ^ 23 + (sh * 2 ^ 23 + q) % 2 ^ 23 = q by omega]

theorem magOf_succ_lt (m : Nat) : magOf m < magOf (m + 1) := by
  obtain ⟨sh, q, rfl, h, hq⟩ : ∃ sh q, m = sh * 2 ^ 23 + q ∧ (sh = 0 ∨ 2 ^ 23 ≤ q) ∧ q < 2 ^ 24 := by
    by_cases h : m < 2 ^ 23
    · exact ⟨0, m, by omega, .inl rfl, by omega⟩
    · exact ⟨m / 2 ^ 23 - 1, 2 ^ 23 + m % 2 ^ 23, by omega, by omega, by omega⟩
  rw [add_assoc, magOf_mk sh q h (by omega), magOf_mk sh (q + 1) (by omega) (by omega)]
  exact Nat.mul_lt_mul_of_pos_right (by omega) (by positivity)

theorem magOf_strictMono : StrictMono magOf := strictMono_nat_of_lt_succ magOf_succ_lt

theorem b32Exp_eq (x : F32) : b32Exp x = x.toNat % 2 ^ 31 / 2 ^ 23 := by
  simp only [b32Exp, BitVec.extractLsb'_toNat, Nat.shiftRight_eq_div_pow]
  omega

theorem b32Frac_eq (x : F32) : b32Frac x = x.toNat % 2 ^ 31 % 2 ^ 23 := by
  simp only [b32Frac, BitVec.extractLsb'_toNat, Nat.shiftRight_eq_div_pow]
  omega

theorem b32Mag_eq (x : F32) : b32Mag x = magOf (x.toNat % 2 ^ 31) := by
  rw [b32Mag, magOf, b32Exp_eq, b32Frac_eq]

theorem b32IsFinite_iff (x : F32) : b32IsFinite x = true ↔ x.toNat % 2 ^ 31 < b32InfBits := by
  simp only [b32IsFinite, b32Exp_eq, b32InfBits, bne_iff_ne]
  have := x.isLt
  omega

theorem b32IsNaN_iff (x : F32) : b32IsNaN x = true ↔ b32InfBits < x.toNat % 2 ^ 31 := by
  simp only [b32IsNaN, b32Exp_eq, b32Frac_eq, b32InfBits, Bool.and_eq_true, beq_iff_eq, bne_iff_ne]
  have := x.isLt
  omega

theorem b32IsInf_iff (x : F32) : b32IsInf x = true ↔ x.toNat % 2 ^ 31 = b32InfBits := by
  simp only [b32IsInf, b32Exp_eq, b32Frac_eq, b32InfBits, Bool.and_eq_true, beq_iff_eq]
  have := x.isLt
  omega

theorem b32Sign_eq (x : F32) : b32Sign x = decide (2 ^ 31 ≤ x.toNat) := by
  have : x.getLsbD 31 = x.msb := by simp [BitVec.msb_eq_getLsbD_last]
  rw [b32Sign, this, BitVec.msb_eq_decide]

theorem toNat_b32Signed {neg : Bool} {m : Nat} (h : m < 2 ^ 31) :
    (b32Signed neg m).toNat = if neg then 2 ^ 31 + m else m := by
  rw [b32Signed, BitVec.toNat_ofNat]
  cases neg <;> simp <;> omega

theorem b32Signed_low {neg : Bool} {m : Nat} (h : m < 2 ^ 31) : (b32Signed neg m).toNat % 2 ^ 31 = m := by
  rw [toNat_b32Signed h]
  cases neg <;> simp <;> omega

theorem b32Sign_b32Signed {neg : Bool} {m : Nat} (h : m < 2 ^ 31) : b32Sign (b32Signed neg m) = neg := by
  rw [b32Sign_eq, toNat_b32Signed h]
  cases neg
  · simp
    omega
  · simp

theorem b32Units_b32Signed {neg : Bool} {m : Nat} (h : m < 2 ^ 31) :
    b32Units (b32Signed neg m) = if neg then -(magOf m : Int) else (magOf m : Int) := by
  rw [b32Units, b32Sign_b32Signed h, b32Mag_eq, b32Signed_low h]

theorem natAbs_b32Units (x : F32) : (b32Units x).natAbs = b32Mag x := by
  unfold b32Units
  split <;> omega

/-- The pattern that rounding starts from: the largest whose magnitude does not exceed `num / den`. -/
structure RoundAt (num den sh q : Nat) : Prop where
  q_lt : q < 2 ^ 24
  normal : sh = 0 ∨ 2 ^ 23 ≤ q
  le : q * (den * 2 ^ sh) ≤ num
  lt : num < (q + 1) * (den * 2 ^ sh)

theorem roundAt (num den : Nat) (hd : 0 < den) :
    RoundAt num den (Nat.log2 (num / den) - 23) (num / (den * 2 ^ (Nat.log2 (num / den) - 23))) := by
  set L := num / den with hL
  set sh := Nat.log2 L - 23 with hsh
  have hD : 0 < den * 2 ^ sh := by positivity
  have hq : num / (den * 2 ^ sh) = L / 2 ^ sh := by rw [hL, Nat.div_div_eq_div_mul]
  refine ⟨?_, ?_, Nat.div_mul_le_self _ _, ?_⟩
  · rw [hq, Nat.div_lt_iff_lt_mul (by positivity), ← pow_add]
    by_cases h0 : L = 0
    · rw [h0]; positivity
    · refine lt_of_lt_of_le ((Nat.log2_lt h0).1 (Nat.lt_succ_self _)) (Nat.pow_le_pow_right (by norm_num) (by omega))
  · by_cases h : sh = 0
    · exact .inl h
    · right
      rw [hq, Nat.le_div_iff_mul_le (by positivity), ← pow_add]
      have h0 : L ≠ 0 := by rintro h0; rw [h0] at hsh; simp at hsh; omega
      exact (Nat.le_log2 h0).1 (by omega)
  · rw [mul_comm]; exact Nat.lt_mul_div_succ _ hD

/-- The two neighbours of `num / den` and which of them rounding takes. -/
theorem b32Nearest_neighbours (num den : Nat) (hd : 0 < den) :
    ∃ lo : Nat, magOf lo * den ≤ num ∧ num < magOf (lo + 1) * den ∧
      ((b32Nearest num den = lo ∧ 2 * (num - magOf lo * den) ≤ magOf (lo + 1) * den - magOf lo * den ∧
          (2 * (num - magOf lo * den) = magOf (lo + 1) * den - magOf lo * den → lo % 2 = 0)) ∨
       (b32Nearest num den = lo + 1 ∧ magOf (lo + 1) * den - magOf lo * den ≤ 2 * (num - magOf lo * den) ∧
          (2 * (num - magOf lo * den) = magOf (lo + 1) * den - magOf lo * den → lo % 2 = 1))) := by
  obtain ⟨q_lt, normal, le, lt⟩ := roundAt num den hd
  simp only [b32Nearest]
  set sh := Nat.log2 (num / den) - 23 with hsh
  set D := den * 2 ^ sh with hD
  set q := num / D with hq
  have hmod : num % D = num - q * D := by rw [Nat.mod_eq_sub_div_mul]
  have e0 : magOf (sh * 2 ^ 23 + q) * den = q * D := by rw [magOf_mk sh q normal (by omega), hD]; ring
  have e1 : magOf (sh * 2 ^ 23 + q + 1) * den = (q + 1) * D := by
    rw [add_assoc, magOf_mk sh (q + 1) (by omega) (by omega), hD]; ring
  have e2 : (q + 1) * D = q * D + D := by ring
  refine ⟨sh * 2 ^ 23 + q, by omega, by omega, ?_⟩
  simp only [hmod]
  rw [e0, e1, e2]
  generalize q * D = m at *
  by_cases hup : 2 * (num - m) > D ∨ (2 * (num - m) = D ∧ q % 2 = 1)
  · rw [if_pos hup]
    omega
  · rw [if_neg hup]
    omega

theorem magOf_infBits : magOf b32InfBits = 2 ^ 24 * 2 ^ 253 := by
  rw [show b32InfBits = 253 * 2 ^ 23 + 2 ^ 24 from rfl, magOf_mk _ _ (by omega) (by omega)]

theorem magOf_maxFinite : magOf (b32InfBits - 1) = (2 ^ 24 - 1) * 2 ^ 253 := by
  rw [show b32InfBits - 1 = 253 * 2 ^ 23 + (2 ^ 24 - 1) from rfl, magOf_mk _ _ (by omega) (by omega)]

/-- Rounding to nearest: no pattern's magnitude is nearer to `num / den`, and at a tie the pattern is even. -/
theorem b32Nearest_nearest (num den : Nat) (hd : 0 < den) (k : Nat) :
    |((magOf (b32Nearest num den) * den : Nat) : Int) - num| ≤ |((magOf k * den : Nat) : Int) - num| ∧
    (|((magOf (b32Nearest num den) * den : Nat) : Int) - num| = |((magOf k * den : Nat) : Int) - num| → magOf k ≠ magOf (b32Nearest num den) →
      b32Nearest num den % 2 = 0) := by
  obtain ⟨lo, h1, h2, h3⟩ := b32Nearest_neighbours num den hd
  have hk : magOf k * den ≤ magOf lo * den ∨ magOf (lo + 1) * den ≤ magOf k * den := by
    rcases Nat.lt_or_ge k (lo + 1) with h | h
    · exact .inl (Nat.mul_le_mul_right _ (magOf_strictMono.monotone (by omega)))
    · exact .inr (Nat.mul_le_mul_right _ (magOf_strictMono.monotone h))
  have hne : magOf k ≠ magOf (b32Nearest num den) → magOf k * den ≠ magOf (b32Nearest num den) * den := 
    fun h h' => h (Nat.eq_of_mul_eq_mul_right hd h')
  rcases h3 with ⟨e, h4, h5⟩ | ⟨e, h4, h5⟩ <;> rw [e] at hne ⊢ <;>
    generalize magOf lo * den = A at * <;> generalize magOf (lo + 1) * den = B at * <;>
    generalize magOf k * den = C at * <;> simp only [Int.abs_eq_natAbs] <;> (refine ⟨by omega, fun h6 h7 => ?_⟩; have := hne h7; omega)

/-- When rounding overflows (R11, G11). -/
theorem b32Nearest_overflow (num den : Nat) (hd : 0 < den) :
    b32InfBits ≤ b32Nearest num den ↔ (2 ^ 25 - 1) * 2 ^ 252 * den ≤ num := by
  obtain ⟨lo, h1, h2, h3⟩ := b32Nearest_neighbours num den hd
  have hI := magOf_infBits
  have hM := magOf_maxFinite
  have b : b32InfBits % 2 = 0 := by decide
  have b1 : 0 < b32InfBits := by decide
  by_cases ha : b32InfBits ≤ lo
  · have : magOf b32InfBits * den ≤ magOf lo * den := Nat.mul_le_mul_right _ (magOf_strictMono.monotone ha)
    rw [hI] at this
    constructor
    · intro _
      have : (2 ^ 25 - 1) * 2 ^ 252 * den ≤ 2 ^ 24 * 2 ^ 253 * den := Nat.mul_le_mul_right _ (by norm_num)
      omega
    · intro _; rcases h3 with ⟨e, -⟩ | ⟨e, -⟩ <;> omega
  · by_cases hb : lo + 1 = b32InfBits
    · obtain rfl : lo = b32InfBits - 1 := by omega
      rw [hb, hI] at h2 h3
      rw [hM] at h1 h3
      have e1 : (2 ^ 24 - 1) * 2 ^ 253 * den = (2 ^ 24 - 1) * 2 * (2 ^ 252 * den) := by ring
      have e2 : 2 ^ 24 * 2 ^ 253 * den = 2 ^ 25 * (2 ^ 252 * den) := by ring
      have e3 : (2 ^ 25 - 1) * 2 ^ 252 * den = (2 ^ 25 - 1) * (2 ^ 252 * den) := by ring
      rw [e1, e2] at h3
      rw [e2] at h2
      rw [e1] at h1
      rw [e3]
      generalize 2 ^ 252 * den = X at *
      rcases h3 with ⟨e, h4, h5⟩ | ⟨e, h4, h5⟩ <;> constructor <;> intro h <;> omega
    · have hlt : magOf (lo + 1) * den ≤ magOf (b32InfBits - 1) * den := Nat.mul_le_mul_right _ (magOf_strictMono.monotone (by omega))
      rw [hM] at hlt
      constructor
      · intro h; rcases h3 with ⟨e, -⟩ | ⟨e, -⟩ <;> omega
      · intro h
        have : (2 ^ 24 - 1) * 2 ^ 253 * den ≤ (2 ^ 25 - 1) * 2 ^ 252 * den := Nat.mul_le_mul_right _ (by norm_num)
        omega

/-- An exact value is not changed by rounding. -/
theorem b32Nearest_exact (m den : Nat) (hd : 0 < den) : b32Nearest (magOf m * den) den = m := by
  have h := (b32Nearest_nearest (magOf m * den) den hd m).1
  rw [sub_self, abs_zero, abs_nonpos_iff, sub_eq_zero] at h
  have h' : magOf (b32Nearest (magOf m * den) den) * den = magOf m * den := by exact_mod_cast h
  exact magOf_strictMono.injective (Nat.eq_of_mul_eq_mul_right hd h')

theorem b32RoundBits_eq (num den : Nat) (hd : 0 < den) : b32RoundBits num den = min (b32Nearest num den) b32InfBits := by
  unfold b32RoundBits
  split
  · next h =>
    refine (Nat.min_eq_right ((b32Nearest_overflow num den hd).2 ?_)).symm
    have h0 : num / den ≠ 0 := by
      intro h0
      rw [h0, Nat.log2_zero] at h
      omega
    have h1 : 2 ^ 24 * 2 ^ 253 * den ≤ num := by
      have h' : 2 ^ (24 + 253) ≤ num / den := (Nat.le_log2 h0).1 h
      rw [pow_add] at h'
      exact (Nat.mul_le_mul_right den h').trans (Nat.div_mul_le_self num den)
    have h2 : (2 ^ 25 - 1) * 2 ^ 252 * den ≤ 2 ^ 24 * 2 ^ 253 * den := Nat.mul_le_mul_right _ (by norm_num)
    omega
  · rfl

theorem b32RoundBits_le (num den : Nat) : b32RoundBits num den ≤ b32InfBits := by
  unfold b32RoundBits
  split
  · exact le_refl _
  · exact Nat.min_le_right _ _

theorem b32RoundBits_lt (num den : Nat) : b32RoundBits num den < 2 ^ 31 :=
  lt_of_le_of_lt (b32RoundBits_le num den) (by decide)

/-- A rounded value is never NaN. -/
theorem b32IsNaN_b32Round (neg : Bool) (num den : Nat) : b32IsNaN (b32Round neg num den) = false := by
  rw [Bool.eq_false_iff, ne_eq, b32IsNaN_iff, b32Round, b32Signed_low (b32RoundBits_lt num den)]
  exact Nat.not_lt.2 (b32RoundBits_le num den)

/-- A value in the format is not changed by rounding. -/
theorem b32RoundBits_exact {m den : Nat} (hd : 0 < den) (hm : m ≤ b32InfBits) :
    b32RoundBits (magOf m * den) den = m := by
  rw [b32RoundBits_eq _ _ hd, b32Nearest_exact m den hd]
  exact Nat.min_eq_left hm

/-- A pattern from its sign and its lower bits. -/
theorem b32Signed_self (x : F32) : b32Signed (b32Sign x) (x.toNat % 2 ^ 31) = x := by
  apply BitVec.eq_of_toNat_eq
  rw [toNat_b32Signed (Nat.mod_lt _ (by norm_num)), b32Sign_eq]
  have := x.isLt
  split
  · simp_all
    omega
  · simp_all

theorem b32Sign_of_units_neg {x : F32} (h : b32Units x < 0) : b32Sign x = true := by
  by_contra hs
  rw [b32Units, if_neg hs] at h
  omega

theorem b32Sign_of_units_pos {x : F32} (h : 0 < b32Units x) : b32Sign x = false := by
  by_contra hs
  rw [b32Units, if_pos (by simpa using hs)] at h
  omega

/-- Adding +0 to a value other than -0 gives the value back (R94). -/
theorem b32Add_zero_left {x : F32} (hn : b32IsNaN x = false) (h0 : x ≠ 0x80000000#32) : b32Add 0 x = x := by
  have z1 : b32IsNaN 0 = false := by decide
  have z2 : b32IsInf 0 = false := by decide
  have z3 : b32Units 0 = 0 := by decide
  have z4 : b32Sign 0 = false := by decide
  unfold b32Add
  rw [z1, hn, z2, z3, z4]
  simp only [Bool.or_self, Bool.false_eq_true, if_false, zero_add, Bool.false_and]
  by_cases hi : b32IsInf x = true
  · rw [if_pos hi]
  rw [if_neg hi]
  have hlow : x.toNat % 2 ^ 31 ≤ b32InfBits := by
    by_contra h
    exact absurd ((b32IsNaN_iff x).2 (by omega)) (by simp [hn])
  have hself := b32Signed_self x
  have hround (neg : Bool) (hs : b32Sign x = neg) : b32Round neg (b32Units x).natAbs 1 = x := by
    rw [natAbs_b32Units, b32Mag_eq, b32Round]
    have := b32RoundBits_exact (den := 1) (by norm_num) hlow
    rw [mul_one] at this
    rw [this, ← hs, hself]
  split
  · next hv =>
    have hm : magOf (x.toNat % 2 ^ 31) = magOf 0 := by
      rw [← b32Mag_eq, ← natAbs_b32Units, hv]
      rfl
    have hl := magOf_strictMono.injective hm
    rw [hl] at hself
    cases hs : b32Sign x with
    | true => rw [hs] at hself; exact absurd hself.symm h0
    | false => rw [hs] at hself; exact hself
  · next hv =>
    apply hround
    rcases lt_or_gt_of_ne hv with h | h
    · rw [b32Sign_of_units_neg h]
      simp [h]
    · rw [b32Sign_of_units_pos h]
      simp [show ¬ b32Units x < 0 by omega]

theorem b32IsNaN_of_finite {x : F32} (h : b32IsFinite x = true) : b32IsNaN x = false := by
  have := (b32IsFinite_iff x).1 h
  rw [Bool.eq_false_iff, ne_eq, b32IsNaN_iff]
  omega

theorem b32IsInf_of_finite {x : F32} (h : b32IsFinite x = true) : b32IsInf x = false := by
  have := (b32IsFinite_iff x).1 h
  rw [Bool.eq_false_iff, ne_eq, b32IsInf_iff]
  omega

theorem b32One_pos : 0 < b32One := by decide

/-- A magnitude below the overflow bound rounds to a finite value. -/
theorem b32Round_finite (neg : Bool) (num den : Nat) (hd : 0 < den) (h : num < (2 ^ 25 - 1) * 2 ^ 252 * den) :
    b32IsFinite (b32Round neg num den) = true ∧ b32RoundBits num den = b32Nearest num den ∧
    b32Nearest num den < b32InfBits := by
  have h1 : b32Nearest num den < b32InfBits := by
    by_contra hx
    have := (b32Nearest_overflow num den hd).1 (by omega)
    omega
  have h2 : b32RoundBits num den = b32Nearest num den := by
    rw [b32RoundBits_eq _ _ hd]
    omega
  refine ⟨?_, h2, h1⟩
  rw [b32IsFinite_iff, b32Round, b32Signed_low (b32RoundBits_lt _ _), h2]
  exact h1

/-- A magnitude from the overflow bound on rounds to infinity. -/
theorem b32Round_inf (neg : Bool) (num den : Nat) (hd : 0 < den) (h : (2 ^ 25 - 1) * 2 ^ 252 * den ≤ num) :
    b32Round neg num den = b32Signed neg b32InfBits := by
  rw [b32Round, b32RoundBits_eq _ _ hd, Nat.min_eq_right ((b32Nearest_overflow num den hd).2 h)]

/-- Rounding `± num / den` to nearest: no value is nearer, and at a tie the significand is even. -/
theorem b32Round_nearest (neg : Bool) (num den : Nat) (hd : 0 < den) (h : num < (2 ^ 25 - 1) * 2 ^ 252 * den) (v : Int)
    (hv : v = if neg then -(num : Int) else num) (z : F32) :
    |b32Units (b32Round neg num den) * den - v| ≤ |b32Units z * den - v| ∧
    (|b32Units (b32Round neg num den) * den - v| = |b32Units z * den - v| → b32Units z ≠ b32Units (b32Round neg num den) →
      (b32Round neg num den).getLsbD 0 = false) := by
  obtain ⟨h1, h2, h3⟩ := b32Round_finite neg num den hd h
  have hu : b32Units (b32Round neg num den) = if neg then -(magOf (b32Nearest num den) : Int) else magOf (b32Nearest num den) := by
    rw [b32Round, b32Units_b32Signed (b32RoundBits_lt _ _), h2]
  have hlow : (b32Round neg num den).getLsbD 0 = decide (b32Nearest num den % 2 = 1) := by
    have e : (b32Round neg num den).toNat % 2 = b32Nearest num den % 2 := by
      have := b32Signed_low (neg := neg) (b32RoundBits_lt num den)
      rw [h2] at this
      rw [b32Round, h2]; omega
    rw [BitVec.getLsbD, Nat.testBit_zero, e]
  obtain ⟨hn1, hn2⟩ := b32Nearest_nearest num den hd (z.toNat % 2 ^ 31)
  obtain ⟨hk1, hk2⟩ := b32Nearest_nearest num den hd 0
  have hz' : b32Units z = magOf (z.toNat % 2 ^ 31) ∨ b32Units z = -(magOf (z.toNat % 2 ^ 31) : Int) := by
    have := natAbs_b32Units z
    rw [b32Mag_eq] at this
    omega
  have h0 : magOf 0 = 0 := rfl
  rw [hlow, hu]
  rw [h0] at hk1 hk2
  generalize magOf (z.toNat % 2 ^ 31) = M at *
  generalize magOf (b32Nearest num den) = R at *
  have hD : (0 : Int) < den := by exact_mod_cast hd
  push_cast at hn1 hn2 hk1 hk2
  have key : ∀ w : Int, w = M ∨ w = -(M : Int) → |(R : Int) * den - num| ≤ |w * den - num| ∧ (|(R : Int) * den - num| = |w * den - num| → w ≠ R → b32Nearest num den % 2 = 0) := by
    intro w hw
    rcases hw with rfl | rfl
    · exact ⟨hn1, fun h h' => hn2 h (by exact_mod_cast h')⟩
    · have hM : |(M:Int) * den - num| ≤ |-(M : Int) * den - num| ∧ ((M:Int) ≠ 0 → (num : Int) ≠ 0 → |(M:Int) * den - num| < |-(M : Int) * den - num|) := by
        have hp : (0 : Int) ≤ (M : Int) * den := by positivity
        have hp' : (M:Int) ≠ 0 → 0 < (M : Int) * den := fun h => by positivity
        rw [neg_mul]
        generalize (M:Int) * den = P at *
        simp only [Int.abs_eq_natAbs]
        refine ⟨by omega, fun a b => ?_⟩
        have := hp' a
        omega
      refine ⟨hn1.trans hM.1, fun h h' => ?_⟩
      by_cases hm0 : (M : Int) = 0
      · exact hn2 (by rw [h, hm0]; simp) (by intro h''; apply h'; rw [← h'']; omega)
      · by_cases hnum : (num : Int) = 0
        · have : num = 0 := by exact_mod_cast hnum
          subst this
          have := b32Nearest_exact 0 den hd
          rw [h0, zero_mul] at this
          rw [this]
        · have := hM.2 hm0 hnum
          omega
  cases neg with
  | false =>
    simp only [Bool.false_eq_true, if_false] at hv ⊢
    rw [hv]
    obtain ⟨k1, k2⟩ := key (b32Units z) hz'
    exact ⟨k1, fun a b => by have := k2 a b; simp [this]⟩
  | true =>
    simp only [if_true] at hv ⊢
    rw [hv]
    obtain ⟨k1, k2⟩ := key (-(b32Units z)) (by omega)
    have e1 : |-(R:Int) * den - -num| = |(R : Int) * den - num| := by rw [← abs_neg]; congr 1; ring
    have e2 : |b32Units z * den - -num| = |-b32Units z * den - num| := by rw [← abs_neg]; congr 1; ring
    rw [e1, e2]
    exact ⟨k1, fun a b => by have := k2 a (by omega); simp [this]⟩

theorem b32Add_finite {x y : F32} (hx : b32IsFinite x = true) (hy : b32IsFinite y = true)
    (hv : b32Units x + b32Units y ≠ 0) :
    b32Add x y = b32Round (decide (b32Units x + b32Units y < 0)) (b32Units x + b32Units y).natAbs 1 := by
  simp only [b32Add, b32IsNaN_of_finite hx, b32IsNaN_of_finite hy, b32IsInf_of_finite hx, b32IsInf_of_finite hy,
    Bool.or_self, Bool.false_eq_true, if_false, hv]

theorem b32Add_cancel {x y : F32} (hx : b32IsFinite x = true) (hy : b32IsFinite y = true)
    (hv : b32Units x + b32Units y = 0) : b32Add x y = b32Signed (b32Sign x && b32Sign y) 0 := by
  simp only [b32Add, b32IsNaN_of_finite hx, b32IsNaN_of_finite hy, b32IsInf_of_finite hx, b32IsInf_of_finite hy,
    Bool.or_self, Bool.false_eq_true, if_false, hv, if_true]

theorem b32Mul_finite {x y : F32} (hx : b32IsFinite x = true) (hy : b32IsFinite y = true) :
    b32Mul x y = b32Round (b32Sign x != b32Sign y) (b32Mag x * b32Mag y) b32One := by
  simp only [b32Mul, b32IsNaN_of_finite hx, b32IsNaN_of_finite hy, b32IsInf_of_finite hx, b32IsInf_of_finite hy,
    Bool.or_self, Bool.false_eq_true, if_false]

/-- A magnitude of at most 24 significant bits is in the format. -/
theorem magOf_surj (q sh : Nat) (hq : q < 2 ^ 24) (hs : sh ≤ 252) :
    ∃ m, m < b32InfBits ∧ magOf m = q * 2 ^ sh := by
  by_cases h : sh = 0 ∨ 2 ^ 23 ≤ q
  · exact ⟨sh * 2 ^ 23 + q, by unfold b32InfBits; omega, magOf_mk sh q h (by omega)⟩
  · induction sh generalizing q with
    | zero => exact absurd (.inl rfl) h
    | succ n ih =>
      by_cases h' : n = 0 ∨ 2 ^ 23 ≤ 2 * q
      · refine ⟨n * 2 ^ 23 + 2 * q, by unfold b32InfBits; omega, ?_⟩
        rw [magOf_mk n (2 * q) h' (by omega), pow_succ]; ring
      · obtain ⟨m, h1, h2⟩ := ih (2 * q) (by omega) (by omega) h'
        exact ⟨m, h1, by rw [h2, pow_succ]; ring⟩

/-- An integer of at most 24 bits converts exactly (R92). -/
theorem b32OfInt_exact {i : Int} (hi : |i| < 2 ^ 24) :
    b32IsFinite (b32OfInt i) = true ∧ b32Units (b32OfInt i) = i * 2 ^ 149 := by
  obtain ⟨m, h1, h2⟩ := magOf_surj i.natAbs 149 (by rw [Int.abs_eq_natAbs] at hi; omega) (by norm_num)
  have hm : m < 2 ^ 31 := lt_trans h1 (by decide)
  have e : b32OfInt i = b32Signed (decide (i < 0)) m := by
    rw [b32OfInt, show i.natAbs * b32One = magOf m * 1 by rw [h2, mul_one]; rfl, b32Round,
      b32RoundBits_exact (by norm_num) h1.le]
  rw [e]
  refine ⟨by rw [b32IsFinite_iff, b32Signed_low hm]; exact h1, ?_⟩
  rw [b32Units_b32Signed hm, h2]
  push_cast
  by_cases h : i < 0
  · simp only [h, decide_true, if_true]; rw [abs_of_neg h]; ring
  · simp only [h, decide_false, Bool.false_eq_true, if_false]; rw [abs_of_nonneg (by omega)]

/-- Every finite value lies strictly between the infinities, as `b32Units` reads them. -/
theorem b32Units_finite_lt {x : F32} (h : b32IsFinite x = true) :
    b32Units 0xFF800000#32 < b32Units x ∧ b32Units x < b32Units 0x7F800000#32 := by
  have h1 := magOf_strictMono ((b32IsFinite_iff x).1 h)
  rw [magOf_infBits, ← b32Mag_eq, ← natAbs_b32Units] at h1
  have hp : b32Units 0x7F800000#32 = 2 ^ 24 * 2 ^ 253 := by decide
  have hn : b32Units 0xFF800000#32 = -(2 ^ 24 * 2 ^ 253) := by decide
  rw [hp, hn]
  omega

/-- A value is finite, an infinity, or NaN. -/
theorem b32_kinds (x : F32) :
    b32IsFinite x = true ∨ x = 0x7F800000#32 ∨ x = 0xFF800000#32 ∨ b32IsNaN x = true := by
  rw [b32IsFinite_iff, b32IsNaN_iff, ← BitVec.toNat_inj, ← BitVec.toNat_inj, BitVec.toNat_ofNat, BitVec.toNat_ofNat,
    b32InfBits]
  have := x.isLt
  omega

/-- Doubling a value that is not subnormal doubles its rounding (R112). -/
theorem b32Nearest_double (num den : Nat) (hd : 0 < den) (h : 2 ^ 23 ≤ num / den) :
    b32Nearest (2 * num) den = b32Nearest num den + 2 ^ 23 ∧
    magOf (b32Nearest (2 * num) den) = 2 * magOf (b32Nearest num den) := by
  have hL : num / den ≠ 0 := by omega
  set L := num / den with hLd
  have hl : 23 ≤ Nat.log2 L := (Nat.le_log2 hL).2 h
  have h2L : Nat.log2 (2 * num / den) = Nat.log2 L + 1 := by
    have h1 : 2 ^ (Nat.log2 L) ≤ L := (Nat.le_log2 hL).1 (le_refl _)
    have h2 : L < 2 ^ (Nat.log2 L + 1) := (Nat.log2_lt hL).1 (Nat.lt_succ_self _)
    have h3 : 2 * L ≤ 2 * num / den := by rw [Nat.le_div_iff_mul_le hd, mul_assoc]; exact Nat.mul_le_mul_left _ (Nat.div_mul_le_self _ _)
    have h4 : 2 * num / den < 2 * 2 ^ (Nat.log2 L + 1) := by
      rw [Nat.div_lt_iff_lt_mul hd]
      have : num < 2 ^ (Nat.log2 L + 1) * den := by rwa [hLd, Nat.div_lt_iff_lt_mul hd] at h2
      rw [mul_assoc]; omega
    have hne : 2 * num / den ≠ 0 := by omega
    apply le_antisymm
    · rw [← Nat.lt_succ_iff, Nat.log2_lt hne]
      rw [show (Nat.log2 L + 1).succ = Nat.log2 L + 1 + 1 by rfl, pow_succ 2 (Nat.log2 L + 1)]; omega
    · rw [Nat.le_log2 hne, pow_succ]; omega
  have hr := roundAt num den hd
  have hq : b32Nearest (2 * num) den = b32Nearest num den + 2 ^ 23 := by
    simp only [b32Nearest]
    rw [h2L, ← hLd]
    have hs : Nat.log2 L + 1 - 23 = (Nat.log2 L - 23) + 1 := by omega
    rw [hs]
    generalize Nat.log2 L - 23 = sh
    have e : den * 2 ^ (sh + 1) = 2 * (den * 2 ^ sh) := by rw [pow_succ]; ring
    rw [e, Nat.mul_div_mul_left _ _ (by norm_num : 0 < 2), Nat.mul_mod_mul_left]
    have c : (2 * (2 * (num % (den * 2 ^ sh))) > 2 * (den * 2 ^ sh) ∨ 2 * (2 * (num % (den * 2 ^ sh))) = 2 * (den * 2 ^ sh) ∧ num / (den * 2 ^ sh) % 2 = 1) ↔
      (2 * (num % (den * 2 ^ sh)) > den * 2 ^ sh ∨ 2 * (num % (den * 2 ^ sh)) = den * 2 ^ sh ∧ num / (den * 2 ^ sh) % 2 = 1) := by omega
    simp only [c]
    ring
  refine ⟨hq, ?_⟩
  rw [hq]
  have hq' : ∃ sh q, b32Nearest num den = sh * 2 ^ 23 + q ∧ 2 ^ 23 ≤ q ∧ q ≤ 2 ^ 24 := by
    refine ⟨Nat.log2 L - 23, _, rfl, ?_, ?_⟩
    · have : 2 ^ 23 ≤ num / (den * 2 ^ (Nat.log2 L - 23)) := by
        rw [← Nat.div_div_eq_div_mul, ← hLd, Nat.le_div_iff_mul_le (by positivity), ← pow_add]
        exact (Nat.le_log2 hL).1 (by omega)
      rw [← hLd]
      split <;> omega
    · have := hr.q_lt
      rw [← hLd] at this ⊢
      split <;> omega
  obtain ⟨sh, q, e, h1, h2⟩ := hq'
  rw [e, show sh * 2 ^ 23 + q + 2 ^ 23 = (sh + 1) * 2 ^ 23 + q by ring, magOf_mk _ _ (.inr h1) h2, magOf_mk _ _ (.inr h1) h2, pow_succ]
  ring

end Sys2Proof.Machine
end

