-- ==== Sys2Proof/Laws/Controllers.lean ====
section
/-! SUPPORT. The controllers' clamps (R92, R93, R111, R112) and what their computations answer. -/

namespace Sys2Proof.Machine

theorem f32Literal_800 : f32Literal 800 = 0x44480000#32 := by decide
theorem f32Literal_neg_800 : f32Literal (-800) = 0xC4480000#32 := by decide
theorem f32Literal_50 : f32Literal 50 = 0x42480000#32 := by decide
theorem f32Literal_neg_50 : f32Literal (-50) = 0xC2480000#32 := by decide

theorem clampSymF_vpidLim (fp : FpArith) (x : F32) :
    clampSymF fp x Config.vpidLim = clampF fp x 0xC4480000#32 0x44480000#32 := by
  rw [clampSymF, Config.vpidLim, f32Literal_800, f32Literal_neg_800]

theorem clampSymF_ppidLim (fp : FpArith) (x : F32) :
    clampSymF fp x Config.ppidLim = clampF fp x 0xC2480000#32 0x42480000#32 := by
  rw [clampSymF, Config.ppidLim, f32Literal_50, f32Literal_neg_50]

/-- clampF where nothing is NaN, in the order of the values (R11). -/
theorem clampF_binary32 {x lo hi : F32} (hx : b32IsNaN x = false) (hlo : b32IsNaN lo = false)
    (hhi : b32IsNaN hi = false) :
    clampF .binary32 x lo hi =
      if b32Units hi < b32Units x then hi else if b32Units x < b32Units lo then lo else x := by
  simp [clampF, b32ClampF, b32Gt, b32Lt, hx, hlo, hhi]

/-- Clamping any value but a NaN between finite bounds. -/
theorem finiteWithin_clampF {x lo hi : F32} {lim : Int} (hl : 0 ≤ lim) (h2 : lim < 2 ^ 100)
    (hhi : b32Units hi = lim * b32One) (hlo : b32Units lo = -(lim * b32One)) (f1 : b32IsFinite hi = true)
    (f2 : b32IsFinite lo = true) (hn : b32IsNaN x = false) : finiteWithin lim (clampF .binary32 x lo hi) := by
  have n1 := b32IsNaN_of_finite f1
  have n2 := b32IsNaN_of_finite f2
  have ho : (0:Int) ≤ lim * b32One := mul_nonneg hl (by decide)
  simp only [clampF, b32ClampF, b32Gt, b32Lt, hn, n1, n2, hhi, hlo]
  by_cases h : b32Units x > lim * b32One
  · simp only [h, decide_true, Bool.not_false, Bool.and_self, if_true]
    exact ⟨f1, by omega, by omega⟩
  by_cases h' : b32Units x < -(lim * b32One)
  · simp only [h, h', decide_true, decide_false, Bool.not_false, Bool.and_self, Bool.and_false, if_true,
      Bool.false_eq_true, if_false]
    exact ⟨f2, by omega, by omega⟩
  · simp only [h, h', decide_false, Bool.and_false, Bool.false_eq_true, if_false]
    refine ⟨?_, by omega, by omega⟩
    rw [b32IsFinite_iff]
    by_contra hf
    have := magOf_strictMono.monotone (not_lt.1 hf)
    rw [magOf_infBits, ← b32Mag_eq, ← natAbs_b32Units] at this
    have : lim * b32One < 2 ^ 24 * 2 ^ 253 := by
      have : lim * b32One < 2 ^ 100 * b32One := mul_lt_mul_of_pos_right h2 (by decide)
      refine this.trans ?_
      norm_num [b32One]
    omega

theorem finiteWithin_clamp800 {x : F32} (hn : b32IsNaN x = false) :
    finiteWithin 800 (clampF .binary32 x 0xC4480000#32 0x44480000#32) :=
  finiteWithin_clampF (by norm_num) (by norm_num) (by decide) (by decide) (by decide) (by decide) hn

theorem finiteWithin_clamp50 {x : F32} (hn : b32IsNaN x = false) :
    finiteWithin 50 (clampF .binary32 x 0xC2480000#32 0x42480000#32) :=
  finiteWithin_clampF (by norm_num) (by norm_num) (by decide) (by decide) (by decide) (by decide) hn

theorem b32Trunc0_range {lim : Int} {x : F32} (h : finiteWithin lim x) :
    -lim ≤ b32Trunc0 x ∧ b32Trunc0 x ≤ lim := by
  obtain ⟨-, h1, h2⟩ := h
  unfold b32Trunc0
  have hb : (0 : Int) < b32One := by decide
  generalize (b32One : Int) = B at *
  generalize b32Units x = v at *
  constructor
  · exact Int.le_tdiv_of_mul_le hb (by rw [neg_mul]; omega)
  · have := Int.tdiv_le_tdiv hb h2
    rwa [Int.mul_tdiv_cancel _ hb.ne'] at this

/-- VPID_COMPUTE with its gains set, in the words of R92. -/
theorem exec_vpidCompute_eq {kp ki kd : F32} (t y : BitVec 16) (s : State) (h1 : s.vkp = some kp) (h2 : s.vki = some ki)
    (h3 : s.vkd = some kd) :
    exec (.vpidCompute t y) s =
      let sum := f32Add s.cfg.fpArith s.acc
        (pidIncrement s.cfg.fpArith kp ki kd (t.toInt - y.toInt) s.e0.toInt s.e1.toInt)
      let c := clampF s.cfg.fpArith sum 0xC4480000#32 0x44480000#32
      match f32IsNaN s.cfg.fpArith sum with
      | true => .next (s.raise .numeric)
      | false =>
        .next ((s.writeVpid (BitVec.ofInt 32 (t.toInt - y.toInt)) s.e0 s.e1 c).respondOk
          (BitVec.ofInt 32 (f32Trunc0 s.cfg.fpArith c)) (f32Bits s.cfg.fpArith c)) := by
  simp only [exec, execVpidCompute, h1, h2, h3, clampSymF_vpidLim]
  rfl

/-- PPID_COMPUTE with kp set, in the words of R111. -/
theorem exec_ppidCompute_eq {kp : F32} (t y : Word) (s : State) (h : s.pkp = some kp) :
    exec (.ppidCompute t y) s =
      match int32Result s.cfg.int32Overflow (t.toInt - y.toInt) with
      | none => .next (s.raise .overflow)
      | some e =>
        let x := f32Mul s.cfg.fpArith kp (f32OfInt s.cfg.fpArith e)
        match f32IsNaN s.cfg.fpArith x with
        | true => .next (s.raise .numeric)
        | false =>
          .next (s.respondOk
            (BitVec.ofInt 32 (f32Trunc0 s.cfg.fpArith (clampF s.cfg.fpArith x 0xC2480000#32 0x42480000#32))) 0) := by
  simp only [exec, execPpidCompute, h, clampSymF_ppidLim]
  rfl

end Sys2Proof.Machine
end

