-- ==== Sys2Proof/Laws/Decode.lean ====
section
/-! SUPPORT. The fields of a frame, which frames select a row, and what the decoder reads from them. -/

namespace Sys2Proof

variable (o : BitVec 8) (s m : Bool) (a b c : Word)

theorem Frame.sel_eq (f : Frame) : f.sel = f.getLsbD 119 := by
  have h : f.extractLsb' 119 1 = BitVec.ofBool (f.getLsbD 119) := by
    apply BitVec.eq_of_getLsbD_eq
    intro i hi
    obtain rfl : i = 0 := by omega
    simp
  rw [Frame.sel, h]
  cases f.getLsbD 119 <;> rfl

theorem Frame.mode_eq (f : Frame) : f.mode = f.getLsbD 118 := by
  have h : f.extractLsb' 118 1 = BitVec.ofBool (f.getLsbD 118) := by
    apply BitVec.eq_of_getLsbD_eq
    intro i hi
    obtain rfl : i = 0 := by omega
    simp
  rw [Frame.mode, h]
  cases f.getLsbD 118 <;> rfl

theorem Frame.make_getLsbD (i : Nat) : (Frame.make o s m a b c).getLsbD i =
    if i < 32 then c.getLsbD i else if i < 64 then b.getLsbD (i - 32)
    else if i < 96 then a.getLsbD (i - 64) else if i < 118 then false
    else if i < 119 then (decide (i = 118) && m) else if i < 120 then (decide (i = 119) && s)
    else o.getLsbD (i - 120) := by
  simp only [Frame.make, BitVec.getLsbD_append, BitVec.getLsbD_ofBool, BitVec.getLsbD_zero, Nat.sub_sub]
  by_cases h1 : i < 32
  · simp [h1]
  by_cases h2 : i < 64
  · simp [h1, h2, show i - 32 < 32 by omega]
  by_cases h3 : i < 96
  · simp [h1, h2, h3, show ¬ i - 32 < 32 by omega, show i - (32 + 32) < 32 by omega]
  have e1 : ¬ i - 32 < 32 := by omega
  have e2 : ¬ i - (32 + 32) < 32 := by omega
  by_cases h4 : i < 118
  · simp [h1, h2, h3, h4, e1, e2, show i - (32 + 32 + 32) < 22 by omega]
  by_cases h5 : i < 119
  · obtain rfl : i = 118 := by omega
    simp
  by_cases h6 : i < 120
  · obtain rfl : i = 119 := by omega
    simp
  · simp [h1, h2, h3, h4, h5, h6, e1, e2, show ¬ i - (32 + 32 + 32) < 22 by omega,
      show ¬ i - (32 + 32 + 32 + 22) < 1 by omega, show ¬ i - (32 + 32 + 32 + 22 + 1) < 1 by omega]

@[simp] theorem Frame.make_opc : (Frame.make o s m a b c).opc = o := by
  apply BitVec.eq_of_getLsbD_eq
  intro i hi
  simp [Frame.opc, Frame.make_getLsbD, hi, show ¬ 120 + i < 32 by omega, show ¬ 120 + i < 64 by omega,
    show ¬ 120 + i < 96 by omega, show ¬ 120 + i < 118 by omega, show ¬ 120 + i < 119 by omega]

@[simp] theorem Frame.make_sel : (Frame.make o s m a b c).sel = s := by
  simp only [Frame.sel_eq, Frame.make_getLsbD]
  simp

@[simp] theorem Frame.make_mode : (Frame.make o s m a b c).mode = m := by
  simp only [Frame.mode_eq, Frame.make_getLsbD]
  simp

@[simp] theorem Frame.make_rsvd : (Frame.make o s m a b c).rsvd = 0 := by
  apply BitVec.eq_of_getLsbD_eq
  intro i hi
  simp [Frame.rsvd, Frame.make_getLsbD, hi, show 96 + i < 118 by omega, show ¬ 96 + i < 32 by omega,
    show ¬ 96 + i < 64 by omega]

@[simp] theorem Frame.make_a : (Frame.make o s m a b c).a = a := by
  apply BitVec.eq_of_getLsbD_eq
  intro i hi
  simp [Frame.a, Frame.make_getLsbD, hi, show 64 + i < 96 by omega, show ¬ 64 + i < 32 by omega]

@[simp] theorem Frame.make_b : (Frame.make o s m a b c).b = b := by
  apply BitVec.eq_of_getLsbD_eq
  intro i hi
  simp [Frame.b, Frame.make_getLsbD, hi, show 32 + i < 64 by omega]

@[simp] theorem Frame.make_c : (Frame.make o s m a b c).c = c := by
  apply BitVec.eq_of_getLsbD_eq
  intro i hi
  simp [Frame.c, Frame.make_getLsbD, hi]

/-- A frame is its seven fields (R50). -/
theorem Frame.ext_fields {f g : Frame} (hopc : f.opc = g.opc) (hsel : f.sel = g.sel) (hmode : f.mode = g.mode)
    (hrsvd : f.rsvd = g.rsvd) (ha : f.a = g.a) (hb : f.b = g.b) (hc : f.c = g.c) : f = g := by
  apply BitVec.eq_of_getLsbD_eq
  intro i hi
  have bit {n st : Nat} {p q : Frame} (h : p.extractLsb' st n = q.extractLsb' st n) (h1 : st ≤ i)
      (h2 : i < st + n) : p.getLsbD i = q.getLsbD i := by
    have := congrArg (fun v => v.getLsbD (i - st)) h
    simpa [show i - st < n by omega, show st + (i - st) = i by omega] using this
  by_cases h1 : i < 32
  · exact bit hc (by omega) (by omega)
  by_cases h2 : i < 64
  · exact bit hb (by omega) (by omega)
  by_cases h3 : i < 96
  · exact bit ha (by omega) (by omega)
  by_cases h4 : i < 118
  · exact bit hrsvd (by omega) (by omega)
  by_cases h5 : i < 119
  · obtain rfl : i = 118 := by omega
    rw [← Frame.mode_eq, ← Frame.mode_eq, hmode]
  by_cases h6 : i < 120
  · obtain rfl : i = 119 := by omega
    rw [← Frame.sel_eq, ← Frame.sel_eq, hsel]
  · exact bit hopc (by omega) (by omega)

/-- The fields of an AND are the ANDs of the fields. -/
theorem Frame.and_fields (f g : Frame) :
    (f &&& g : Frame).opc = f.opc &&& g.opc ∧ (f &&& g : Frame).sel = (f.sel && g.sel) ∧
    (f &&& g : Frame).mode = (f.mode && g.mode) ∧ (f &&& g : Frame).rsvd = f.rsvd &&& g.rsvd ∧
    (f &&& g : Frame).a = f.a &&& g.a ∧ (f &&& g : Frame).b = f.b &&& g.b ∧ (f &&& g : Frame).c = f.c &&& g.c := by
  simp [Frame.opc, Frame.sel_eq, Frame.mode_eq, Frame.rsvd, Frame.a, Frame.b, Frame.c, BitVec.extractLsb'_and]

/-- A row's mask and match, field by field. -/
theorem Opcode.selects_iff (op : Opcode) (f : Frame) : op.selects f = true ↔
    (f.opc &&& op.mask.opc = op.pattern.opc) ∧ ((f.sel && op.mask.sel) = op.pattern.sel) ∧
    ((f.mode && op.mask.mode) = op.pattern.mode) ∧ (f.rsvd &&& op.mask.rsvd = op.pattern.rsvd) ∧
    (f.a &&& op.mask.a = op.pattern.a) ∧ (f.b &&& op.mask.b = op.pattern.b) ∧ (f.c &&& op.mask.c = op.pattern.c) := by
  obtain ⟨h1, h2, h3, h4, h5, h6, h7⟩ := Frame.and_fields f op.mask
  rw [Opcode.selects, beq_iff_eq]
  constructor
  · intro h
    rw [← h1, ← h2, ← h3, ← h4, ← h5, ← h6, ← h7, h]
    simp
  · rintro ⟨k1, k2, k3, k4, k5, k6, k7⟩
    exact Frame.ext_fields (h1.trans k1) (h2.trans k2) (h3.trans k3) (h4.trans k4) (h5.trans k5) (h6.trans k6)
      (h7.trans k7)

theorem Word.and_full (x : Word) : x &&& 0xFFFFFFFF#32 = x := BitVec.and_allOnes

theorem Word.and_upper_eq_zero (x : Word) : x &&& 0xFFFF0000#32 = 0 ↔ x.extractLsb' 16 16 = 0 := by
  constructor
  · intro h
    apply BitVec.eq_of_getLsbD_eq
    intro i hi
    have := congrArg (fun v => v.getLsbD (16 + i)) h
    have hm : ∀ i < 16, (0xFFFF0000#32).getLsbD (16 + i) = true := by decide
    simpa [BitVec.getLsbD_and, hm i hi, hi] using this
  · intro h
    apply BitVec.eq_of_getLsbD_eq
    intro i hi
    have hm : ∀ i < 16, (0xFFFF0000#32).getLsbD i = false := by decide
    by_cases h16 : i < 16
    · simp [BitVec.getLsbD_and, hm i h16]
    · have := congrArg (fun v => v.getLsbD (i - 16)) h
      have hx : x.getLsbD i = false := by
        simpa [show i - 16 < 16 by omega, show 16 + (i - 16) = i by omega] using this
      simp [BitVec.getLsbD_and, hx]

/-- The fields of each row's mask outside OPC and RSVD, which every mask covers whole. -/
theorem Opcode.mask_fields (op : Opcode) :
    (op.mask.sel, op.mask.mode, op.mask.a, op.mask.b, op.mask.c) =
      match op with
      | .nop | .vpidReset | .statusRead => (true, true, 0xFFFFFFFF#32, 0xFFFFFFFF#32, 0xFFFFFFFF#32)
      | .encClear | .encUpdate => (false, true, 0xFFFFFFFF#32, 0xFFFFFFFF#32, 0xFFFF0000#32)
      | .encRead => (false, true, 0xFFFFFFFF#32, 0xFFFFFFFF#32, 0xFFFFFFFF#32)
      | .vpidCompute => (true, true, 0xFFFF0000#32, 0xFFFF0000#32, 0xFFFFFFFF#32)
      | .vpidSetParams | .ppidSetParams => (true, true, 0#32, 0#32, 0#32)
      | .ppidCompute => (true, true, 0#32, 0#32, 0xFFFFFFFF#32)
      | .gateApply => (false, false, 0#32, 0xFFFFFFFF#32, 0xFFFFFFFF#32) := by
  cases op <;> decide

/-- What every row shares: its mask covers OPC and RSVD, and its match is its OPC value with zeros below. -/
theorem Opcode.row_fields (op : Opcode) :
    op.mask.opc = 0xFF#8 ∧ op.mask.rsvd = 0x3FFFFF#22 ∧ op.pattern.opc = op.value ∧ op.pattern.sel = false ∧
    op.pattern.mode = false ∧ op.pattern.rsvd = 0 ∧ op.pattern.a = 0 ∧ op.pattern.b = 0 ∧ op.pattern.c = 0 := by
  cases op <;> decide

/-- A frame selects a row exactly when it has the row's OPC and its must-be-zero fields are zero (R55, R56). -/
theorem Opcode.selects_iff_fields (op : Opcode) (f : Frame) :
    op.selects f = true ↔ f.opc = op.value ∧ Machine.unusedFieldsZero op f := by
  have hopc : f.opc &&& 0xFF#8 = f.opc := BitVec.and_allOnes
  have hrsvd : f.rsvd &&& 0x3FFFFF#22 = f.rsvd := BitVec.and_allOnes
  have zero (x : Word) : x &&& 0#32 = 0 := BitVec.and_zero
  obtain ⟨m1, m2, p1, p2, p3, p4, p5, p6, p7⟩ := op.row_fields
  have hm := op.mask_fields
  simp only [Opcode.selects_iff, m1, m2, p1, p2, p3, p4, p5, p6, p7, hopc, hrsvd]
  generalize op.mask.sel = ks, op.mask.mode = km, op.mask.a = ka, op.mask.b = kb, op.mask.c = kc at hm ⊢
  cases op <;> cases hm <;>
    simp only [Word.and_full, Word.and_upper_eq_zero, zero, Bool.and_true, Bool.and_false,
      Machine.unusedFieldsZero, true_and, and_true, and_comm, and_left_comm, and_assoc]

theorem Opcode.mem_table (op : Opcode) : op ∈ opcodeTable := by cases op <;> decide

theorem Opcode.value_injective {p q : Opcode} (h : p.value = q.value) : p = q := by
  revert h
  cases p <;> cases q <;> decide

/-- A frame that selects a row decodes to that row's operation (R59). -/
theorem decode_of_selects {op : Opcode} {f : Frame} (h : op.selects f = true) : decode f = .ok (op.assemble f) := by
  unfold decode
  cases hf : opcodeTable.find? (fun op => op.selects f) with
  | none => exact absurd h (by simpa using List.find?_eq_none.1 hf op op.mem_table)
  | some q =>
    have hq : q.selects f = true := List.find?_some (p := fun op : Opcode => op.selects f) hf
    obtain rfl : op = q := Opcode.value_injective
      (((op.selects_iff_fields f).1 h).1.symm.trans ((q.selects_iff_fields f).1 hq).1)
    rfl

/-- A frame decodes to an instruction exactly through a row it selects. -/
theorem decode_eq_ok_iff (f : Frame) (i : Instr) :
    decode f = .ok i ↔ ∃ op : Opcode, op.selects f = true ∧ op.assemble f = i := by
  constructor
  · intro h
    unfold decode at h
    cases hf : opcodeTable.find? (fun op => op.selects f) with
    | none => simp [hf] at h
    | some op => exact ⟨op, List.find?_some (p := fun op : Opcode => op.selects f) hf, by simpa [hf] using h⟩
  · rintro ⟨op, hs, rfl⟩
    exact decode_of_selects hs

/-- A frame that selects no row spells no operation. -/
theorem decode_eq_error_iff (f : Frame) :
    (∃ e, decode f = .error e) ↔ ∀ op : Opcode, op.selects f = false := by
  constructor
  · rintro ⟨e, h⟩ op
    by_contra hs
    rw [decode_of_selects (op := op) (by simpa using hs)] at h
    cases h
  · intro h
    cases hd : decode f with
    | error e => exact ⟨e, rfl⟩
    | ok i =>
      obtain ⟨op, hs, -⟩ := (decode_eq_ok_iff f i).1 hd
      rw [h op] at hs
      cases hs

theorem low_half_setWidth (x : BitVec 16) : (x.setWidth 32 : Word).extractLsb' 0 16 = x := by
  apply BitVec.eq_of_getLsbD_eq
  intro i hi
  simp [hi, show i < 32 by omega]

theorem high_half_setWidth (x : BitVec 16) : (x.setWidth 32 : Word).extractLsb' 16 16 = 0 := by
  apply BitVec.eq_of_getLsbD_eq
  intro i hi
  simp [hi]

theorem setWidth_low_half {x : Word} (h : x.extractLsb' 16 16 = 0) : (x.extractLsb' 0 16).setWidth 32 = x := by
  apply BitVec.eq_of_getLsbD_eq
  intro i hi
  by_cases h16 : i < 16
  · simp [hi, h16]
  · have := congrArg (fun v => v.getLsbD (i - 16)) h
    have hx : x.getLsbD i = false := by
      simpa [show i - 16 < 16 by omega, show 16 + (i - 16) = i by omega] using this
    rw [hx]
    simp [h16]

@[simp] theorem idxOfSel_selOfIdx (i : Idx) : idxOfSel (selOfIdx i) = i := by cases i <;> rfl
@[simp] theorem selOfIdx_idxOfSel (b : Bool) : selOfIdx (idxOfSel b) = b := by cases b <;> rfl
@[simp] theorem modeOfBit_bitOfMode (m : SysMode) : modeOfBit (bitOfMode m) = m := by cases m <;> rfl
@[simp] theorem bitOfMode_modeOfBit (b : Bool) : bitOfMode (modeOfBit b) = b := by cases b <;> rfl

/-! ### Bytes -/

theorem bytesOf_get (order : FrameByteOrder) (n : Nat) (v : BitVec (8 * n)) (k : Nat) (hk : k < n) :
    (bytesOf order n v)[k]? = some (match order with
      | .little => v.extractLsb' (8 * k) 8
      | .big => v.extractLsb' (8 * n - 8 - 8 * k) 8) := by
  cases order <;> simp [bytesOf, hk]

theorem valueOfBytes_append (xs ys : List Byte) :
    valueOfBytes (xs ++ ys) = valueOfBytes xs + 256 ^ xs.length * valueOfBytes ys := by
  induction xs with
  | nil => simp [valueOfBytes]
  | cons x xs ih => simp only [List.cons_append, valueOfBytes, ih, List.length_cons, pow_succ]; ring

/-- Little-endian bytes spell the value's low part. -/
theorem valueOfBytes_little {m : Nat} (v : BitVec (8 * m)) (n : Nat) (hn : n ≤ m) :
    valueOfBytes ((List.range n).map fun k => v.extractLsb' (8 * k) 8) = v.toNat % 256 ^ n := by
  induction n with
  | zero => simp [valueOfBytes, Nat.mod_one]
  | succ n ih =>
    rw [List.range_succ, List.map_append, valueOfBytes_append, ih (by omega)]
    simp only [List.map_cons, List.map_nil, valueOfBytes, List.length_map, List.length_range, mul_zero, add_zero,
      BitVec.extractLsb'_toNat]
    rw [Nat.shiftRight_eq_div_pow, show 2 ^ (8 * n) = 256 ^ n by rw [pow_mul]; norm_num, show 2 ^ 8 = 256 by norm_num,
      pow_succ, Nat.mod_mul]

theorem valueOfBytes_lt (bs : List Byte) : valueOfBytes bs < 256 ^ bs.length := by
  induction bs with
  | nil => simp [valueOfBytes]
  | cons b bs ih =>
    have := b.isLt
    simp only [valueOfBytes, List.length_cons, pow_succ]
    omega

/-- The byte at place k of the number that bytes spell. -/
theorem valueOfBytes_byte (bs : List Byte) (k : Nat) (hk : k < bs.length) :
    valueOfBytes bs / 256 ^ k % 256 = bs[k].toNat := by
  induction bs generalizing k with
  | nil => simp at hk
  | cons b bs ih =>
    have := b.isLt
    cases k with
    | zero =>
      simp only [valueOfBytes, pow_zero, Nat.div_one, List.getElem_cons_zero]
      omega
    | succ k =>
      simp only [valueOfBytes, List.getElem_cons_succ]
      rw [pow_succ', ← Nat.div_div_eq_div_mul, show (b.toNat + 256 * valueOfBytes bs) / 256 = valueOfBytes bs by omega]
      exact ih k (by simpa using hk)

theorem frameBytes_little_of_value {bs : List Byte} (h : bs.length = 16) :
    frameBytes .little (BitVec.ofNat 128 (valueOfBytes bs)) = bs := by
  have hlt := valueOfBytes_lt bs
  rw [h] at hlt
  apply List.ext_getElem
  · simp [frameBytes, bytesOf, h]
  · intro k h1 h2
    apply BitVec.eq_of_toNat_eq
    simp only [frameBytes, bytesOf, List.getElem_map, List.getElem_range, BitVec.extractLsb'_toNat, BitVec.toNat_ofNat]
    rw [Nat.mod_eq_of_lt (a := valueOfBytes bs) (by norm_num at hlt ⊢; exact hlt), Nat.shiftRight_eq_div_pow,
      show 2 ^ (8 * k) = 256 ^ k by rw [pow_mul]; norm_num]
    exact valueOfBytes_byte bs k h2

theorem frameBytes_big (f : Frame) : frameBytes .big f = (frameBytes .little f).reverse := by
  simp [frameBytes, bytesOf, List.range_succ]

/-- Every sixteen bytes are the bytes of exactly the frame they spell (R41). -/
theorem exists_frame_of_bytes (order : FrameByteOrder) {bs : List Byte} (h : bs.length = 16) :
    ∃ f, frameBytes order f = bs ∧ frameOfBytes order bs = some f := by
  cases order with
  | little => exact ⟨_, frameBytes_little_of_value h, by simp [frameOfBytes, h]⟩
  | big =>
    refine ⟨BitVec.ofNat 128 (valueOfBytes bs.reverse), ?_, by simp [frameOfBytes, h]⟩
    rw [frameBytes_big, frameBytes_little_of_value (by simpa using h), List.reverse_reverse]

end Sys2Proof
end

