-- ==== Sys2Proof/Laws/State.lean ====
section
/-! SUPPORT. One lemma per field per update of the state, and the laws of the two-element records. -/

namespace Sys2Proof.Machine

section Two
variable {α : Type} (t : Two α) (i j : Idx) (v w : α)

@[simp] theorem Two.get_set_self : (t.set i v).get i = v := by cases i <;> rfl

@[simp] theorem Two.get_set_of_ne {i j : Idx} (h : j ≠ i) : (t.set i v).get j = t.get j := by
  cases i <;> cases j <;> first | rfl | exact absurd rfl h

theorem Two.get_set : (t.set i v).get j = if j = i then v else t.get j := by
  by_cases h : j = i
  · subst h; simp
  · simp [h]

@[simp] theorem Two.set_set : (t.set i v).set i w = t.set i w := by cases i <;> rfl

@[simp] theorem Two.set_get_self : t.set i (t.get i) = t := by cases i <;> rfl

theorem Two.set_comm {i j : Idx} (h : i ≠ j) : (t.set i v).set j w = (t.set j w).set i v := by
  cases i <;> cases j <;> first | rfl | exact absurd rfl h

theorem Two.ext_get {t u : Two α} (h : ∀ i, t.get i = u.get i) : t = u := by
  cases t; cases u
  exact congrArg₂ Two.mk (h .one) (h .two)

end Two

section Updates
variable (s : State)

/-! `State.respond` -/
@[simp] theorem State.respond_cfg (st : Status) (r0 r1 : Word) : (s.respond st r0 r1).cfg = s.cfg := rfl
@[simp] theorem State.respond_pos (st : Status) (r0 r1 : Word) : (s.respond st r0 r1).pos = s.pos := rfl
@[simp] theorem State.respond_last (st : Status) (r0 r1 : Word) : (s.respond st r0 r1).last = s.last := rfl
@[simp] theorem State.respond_e0 (st : Status) (r0 r1 : Word) : (s.respond st r0 r1).e0 = s.e0 := rfl
@[simp] theorem State.respond_e1 (st : Status) (r0 r1 : Word) : (s.respond st r0 r1).e1 = s.e1 := rfl
@[simp] theorem State.respond_e2 (st : Status) (r0 r1 : Word) : (s.respond st r0 r1).e2 = s.e2 := rfl
@[simp] theorem State.respond_acc (st : Status) (r0 r1 : Word) : (s.respond st r0 r1).acc = s.acc := rfl
@[simp] theorem State.respond_vkp (st : Status) (r0 r1 : Word) : (s.respond st r0 r1).vkp = s.vkp := rfl
@[simp] theorem State.respond_vki (st : Status) (r0 r1 : Word) : (s.respond st r0 r1).vki = s.vki := rfl
@[simp] theorem State.respond_vkd (st : Status) (r0 r1 : Word) : (s.respond st r0 r1).vkd = s.vkd := rfl
@[simp] theorem State.respond_pkp (st : Status) (r0 r1 : Word) : (s.respond st r0 r1).pkp = s.pkp := rfl
@[simp] theorem State.respond_duty (st : Status) (r0 r1 : Word) : (s.respond st r0 r1).duty = s.duty := rfl
@[simp] theorem State.respond_dira (st : Status) (r0 r1 : Word) : (s.respond st r0 r1).dira = s.dira := rfl
@[simp] theorem State.respond_dirb (st : Status) (r0 r1 : Word) : (s.respond st r0 r1).dirb = s.dirb := rfl
@[simp] theorem State.respond_fault (st : Status) (r0 r1 : Word) : (s.respond st r0 r1).fault = s.fault := rfl
@[simp] theorem State.respond_inputs (st : Status) (r0 r1 : Word) : (s.respond st r0 r1).inputs = s.inputs := rfl
@[simp] theorem State.respond_responses (st : Status) (r0 r1 : Word) : (s.respond st r0 r1).responses = s.responses ++ [⟨st, r0, r1⟩] := rfl

/-! `State.respondOk` -/
@[simp] theorem State.respondOk_cfg (r0 r1 : Word) : (s.respondOk r0 r1).cfg = s.cfg := rfl
@[simp] theorem State.respondOk_pos (r0 r1 : Word) : (s.respondOk r0 r1).pos = s.pos := rfl
@[simp] theorem State.respondOk_last (r0 r1 : Word) : (s.respondOk r0 r1).last = s.last := rfl
@[simp] theorem State.respondOk_e0 (r0 r1 : Word) : (s.respondOk r0 r1).e0 = s.e0 := rfl
@[simp] theorem State.respondOk_e1 (r0 r1 : Word) : (s.respondOk r0 r1).e1 = s.e1 := rfl
@[simp] theorem State.respondOk_e2 (r0 r1 : Word) : (s.respondOk r0 r1).e2 = s.e2 := rfl
@[simp] theorem State.respondOk_acc (r0 r1 : Word) : (s.respondOk r0 r1).acc = s.acc := rfl
@[simp] theorem State.respondOk_vkp (r0 r1 : Word) : (s.respondOk r0 r1).vkp = s.vkp := rfl
@[simp] theorem State.respondOk_vki (r0 r1 : Word) : (s.respondOk r0 r1).vki = s.vki := rfl
@[simp] theorem State.respondOk_vkd (r0 r1 : Word) : (s.respondOk r0 r1).vkd = s.vkd := rfl
@[simp] theorem State.respondOk_pkp (r0 r1 : Word) : (s.respondOk r0 r1).pkp = s.pkp := rfl
@[simp] theorem State.respondOk_duty (r0 r1 : Word) : (s.respondOk r0 r1).duty = s.duty := rfl
@[simp] theorem State.respondOk_dira (r0 r1 : Word) : (s.respondOk r0 r1).dira = s.dira := rfl
@[simp] theorem State.respondOk_dirb (r0 r1 : Word) : (s.respondOk r0 r1).dirb = s.dirb := rfl
@[simp] theorem State.respondOk_fault (r0 r1 : Word) : (s.respondOk r0 r1).fault = s.fault := rfl
@[simp] theorem State.respondOk_inputs (r0 r1 : Word) : (s.respondOk r0 r1).inputs = s.inputs := rfl
@[simp] theorem State.respondOk_responses (r0 r1 : Word) : (s.respondOk r0 r1).responses = s.responses ++ [⟨.ok, r0, r1⟩] := rfl

/-! `State.raise` -/
@[simp] theorem State.raise_cfg (e : ErrorCode) : (s.raise e).cfg = s.cfg := rfl
@[simp] theorem State.raise_pos (e : ErrorCode) : (s.raise e).pos = s.pos := rfl
@[simp] theorem State.raise_last (e : ErrorCode) : (s.raise e).last = s.last := rfl
@[simp] theorem State.raise_e0 (e : ErrorCode) : (s.raise e).e0 = s.e0 := rfl
@[simp] theorem State.raise_e1 (e : ErrorCode) : (s.raise e).e1 = s.e1 := rfl
@[simp] theorem State.raise_e2 (e : ErrorCode) : (s.raise e).e2 = s.e2 := rfl
@[simp] theorem State.raise_acc (e : ErrorCode) : (s.raise e).acc = s.acc := rfl
@[simp] theorem State.raise_vkp (e : ErrorCode) : (s.raise e).vkp = s.vkp := rfl
@[simp] theorem State.raise_vki (e : ErrorCode) : (s.raise e).vki = s.vki := rfl
@[simp] theorem State.raise_vkd (e : ErrorCode) : (s.raise e).vkd = s.vkd := rfl
@[simp] theorem State.raise_pkp (e : ErrorCode) : (s.raise e).pkp = s.pkp := rfl
@[simp] theorem State.raise_duty (e : ErrorCode) : (s.raise e).duty = s.duty := rfl
@[simp] theorem State.raise_dira (e : ErrorCode) : (s.raise e).dira = s.dira := rfl
@[simp] theorem State.raise_dirb (e : ErrorCode) : (s.raise e).dirb = s.dirb := rfl
@[simp] theorem State.raise_fault (e : ErrorCode) : (s.raise e).fault = setFault s.fault e := rfl
@[simp] theorem State.raise_inputs (e : ErrorCode) : (s.raise e).inputs = s.inputs := rfl
@[simp] theorem State.raise_responses (e : ErrorCode) : (s.raise e).responses = s.responses ++ [⟨.error e, 0, 0⟩] := rfl

/-! `State.writeEnc` -/
@[simp] theorem State.writeEnc_cfg (a : Axis) (p : BitVec 32) (l : Option (BitVec 16)) : (s.writeEnc a p l).cfg = s.cfg := rfl
@[simp] theorem State.writeEnc_pos (a : Axis) (p : BitVec 32) (l : Option (BitVec 16)) : (s.writeEnc a p l).pos = s.pos.set a p := rfl
@[simp] theorem State.writeEnc_last (a : Axis) (p : BitVec 32) (l : Option (BitVec 16)) : (s.writeEnc a p l).last = s.last.set a l := rfl
@[simp] theorem State.writeEnc_e0 (a : Axis) (p : BitVec 32) (l : Option (BitVec 16)) : (s.writeEnc a p l).e0 = s.e0 := rfl
@[simp] theorem State.writeEnc_e1 (a : Axis) (p : BitVec 32) (l : Option (BitVec 16)) : (s.writeEnc a p l).e1 = s.e1 := rfl
@[simp] theorem State.writeEnc_e2 (a : Axis) (p : BitVec 32) (l : Option (BitVec 16)) : (s.writeEnc a p l).e2 = s.e2 := rfl
@[simp] theorem State.writeEnc_acc (a : Axis) (p : BitVec 32) (l : Option (BitVec 16)) : (s.writeEnc a p l).acc = s.acc := rfl
@[simp] theorem State.writeEnc_vkp (a : Axis) (p : BitVec 32) (l : Option (BitVec 16)) : (s.writeEnc a p l).vkp = s.vkp := rfl
@[simp] theorem State.writeEnc_vki (a : Axis) (p : BitVec 32) (l : Option (BitVec 16)) : (s.writeEnc a p l).vki = s.vki := rfl
@[simp] theorem State.writeEnc_vkd (a : Axis) (p : BitVec 32) (l : Option (BitVec 16)) : (s.writeEnc a p l).vkd = s.vkd := rfl
@[simp] theorem State.writeEnc_pkp (a : Axis) (p : BitVec 32) (l : Option (BitVec 16)) : (s.writeEnc a p l).pkp = s.pkp := rfl
@[simp] theorem State.writeEnc_duty (a : Axis) (p : BitVec 32) (l : Option (BitVec 16)) : (s.writeEnc a p l).duty = s.duty := rfl
@[simp] theorem State.writeEnc_dira (a : Axis) (p : BitVec 32) (l : Option (BitVec 16)) : (s.writeEnc a p l).dira = s.dira := rfl
@[simp] theorem State.writeEnc_dirb (a : Axis) (p : BitVec 32) (l : Option (BitVec 16)) : (s.writeEnc a p l).dirb = s.dirb := rfl
@[simp] theorem State.writeEnc_fault (a : Axis) (p : BitVec 32) (l : Option (BitVec 16)) : (s.writeEnc a p l).fault = s.fault := rfl
@[simp] theorem State.writeEnc_inputs (a : Axis) (p : BitVec 32) (l : Option (BitVec 16)) : (s.writeEnc a p l).inputs = s.inputs := rfl
@[simp] theorem State.writeEnc_responses (a : Axis) (p : BitVec 32) (l : Option (BitVec 16)) : (s.writeEnc a p l).responses = s.responses := rfl

/-! `State.writeVpid` -/
@[simp] theorem State.writeVpid_cfg (x0 x1 x2 : BitVec 32) (c : F32) : (s.writeVpid x0 x1 x2 c).cfg = s.cfg := rfl
@[simp] theorem State.writeVpid_pos (x0 x1 x2 : BitVec 32) (c : F32) : (s.writeVpid x0 x1 x2 c).pos = s.pos := rfl
@[simp] theorem State.writeVpid_last (x0 x1 x2 : BitVec 32) (c : F32) : (s.writeVpid x0 x1 x2 c).last = s.last := rfl
@[simp] theorem State.writeVpid_e0 (x0 x1 x2 : BitVec 32) (c : F32) : (s.writeVpid x0 x1 x2 c).e0 = x0 := rfl
@[simp] theorem State.writeVpid_e1 (x0 x1 x2 : BitVec 32) (c : F32) : (s.writeVpid x0 x1 x2 c).e1 = x1 := rfl
@[simp] theorem State.writeVpid_e2 (x0 x1 x2 : BitVec 32) (c : F32) : (s.writeVpid x0 x1 x2 c).e2 = x2 := rfl
@[simp] theorem State.writeVpid_acc (x0 x1 x2 : BitVec 32) (c : F32) : (s.writeVpid x0 x1 x2 c).acc = c := rfl
@[simp] theorem State.writeVpid_vkp (x0 x1 x2 : BitVec 32) (c : F32) : (s.writeVpid x0 x1 x2 c).vkp = s.vkp := rfl
@[simp] theorem State.writeVpid_vki (x0 x1 x2 : BitVec 32) (c : F32) : (s.writeVpid x0 x1 x2 c).vki = s.vki := rfl
@[simp] theorem State.writeVpid_vkd (x0 x1 x2 : BitVec 32) (c : F32) : (s.writeVpid x0 x1 x2 c).vkd = s.vkd := rfl
@[simp] theorem State.writeVpid_pkp (x0 x1 x2 : BitVec 32) (c : F32) : (s.writeVpid x0 x1 x2 c).pkp = s.pkp := rfl
@[simp] theorem State.writeVpid_duty (x0 x1 x2 : BitVec 32) (c : F32) : (s.writeVpid x0 x1 x2 c).duty = s.duty := rfl
@[simp] theorem State.writeVpid_dira (x0 x1 x2 : BitVec 32) (c : F32) : (s.writeVpid x0 x1 x2 c).dira = s.dira := rfl
@[simp] theorem State.writeVpid_dirb (x0 x1 x2 : BitVec 32) (c : F32) : (s.writeVpid x0 x1 x2 c).dirb = s.dirb := rfl
@[simp] theorem State.writeVpid_fault (x0 x1 x2 : BitVec 32) (c : F32) : (s.writeVpid x0 x1 x2 c).fault = s.fault := rfl
@[simp] theorem State.writeVpid_inputs (x0 x1 x2 : BitVec 32) (c : F32) : (s.writeVpid x0 x1 x2 c).inputs = s.inputs := rfl
@[simp] theorem State.writeVpid_responses (x0 x1 x2 : BitVec 32) (c : F32) : (s.writeVpid x0 x1 x2 c).responses = s.responses := rfl

/-! `State.writeGains` -/
@[simp] theorem State.writeGains_cfg (kp ki kd : F32) : (s.writeGains kp ki kd).cfg = s.cfg := rfl
@[simp] theorem State.writeGains_pos (kp ki kd : F32) : (s.writeGains kp ki kd).pos = s.pos := rfl
@[simp] theorem State.writeGains_last (kp ki kd : F32) : (s.writeGains kp ki kd).last = s.last := rfl
@[simp] theorem State.writeGains_e0 (kp ki kd : F32) : (s.writeGains kp ki kd).e0 = s.e0 := rfl
@[simp] theorem State.writeGains_e1 (kp ki kd : F32) : (s.writeGains kp ki kd).e1 = s.e1 := rfl
@[simp] theorem State.writeGains_e2 (kp ki kd : F32) : (s.writeGains kp ki kd).e2 = s.e2 := rfl
@[simp] theorem State.writeGains_acc (kp ki kd : F32) : (s.writeGains kp ki kd).acc = s.acc := rfl
@[simp] theorem State.writeGains_vkp (kp ki kd : F32) : (s.writeGains kp ki kd).vkp = some kp := rfl
@[simp] theorem State.writeGains_vki (kp ki kd : F32) : (s.writeGains kp ki kd).vki = some ki := rfl
@[simp] theorem State.writeGains_vkd (kp ki kd : F32) : (s.writeGains kp ki kd).vkd = some kd := rfl
@[simp] theorem State.writeGains_pkp (kp ki kd : F32) : (s.writeGains kp ki kd).pkp = s.pkp := rfl
@[simp] theorem State.writeGains_duty (kp ki kd : F32) : (s.writeGains kp ki kd).duty = s.duty := rfl
@[simp] theorem State.writeGains_dira (kp ki kd : F32) : (s.writeGains kp ki kd).dira = s.dira := rfl
@[simp] theorem State.writeGains_dirb (kp ki kd : F32) : (s.writeGains kp ki kd).dirb = s.dirb := rfl
@[simp] theorem State.writeGains_fault (kp ki kd : F32) : (s.writeGains kp ki kd).fault = s.fault := rfl
@[simp] theorem State.writeGains_inputs (kp ki kd : F32) : (s.writeGains kp ki kd).inputs = s.inputs := rfl
@[simp] theorem State.writeGains_responses (kp ki kd : F32) : (s.writeGains kp ki kd).responses = s.responses := rfl

/-! `State.writePkp` -/
@[simp] theorem State.writePkp_cfg (kp : F32) : (s.writePkp kp).cfg = s.cfg := rfl
@[simp] theorem State.writePkp_pos (kp : F32) : (s.writePkp kp).pos = s.pos := rfl
@[simp] theorem State.writePkp_last (kp : F32) : (s.writePkp kp).last = s.last := rfl
@[simp] theorem State.writePkp_e0 (kp : F32) : (s.writePkp kp).e0 = s.e0 := rfl
@[simp] theorem State.writePkp_e1 (kp : F32) : (s.writePkp kp).e1 = s.e1 := rfl
@[simp] theorem State.writePkp_e2 (kp : F32) : (s.writePkp kp).e2 = s.e2 := rfl
@[simp] theorem State.writePkp_acc (kp : F32) : (s.writePkp kp).acc = s.acc := rfl
@[simp] theorem State.writePkp_vkp (kp : F32) : (s.writePkp kp).vkp = s.vkp := rfl
@[simp] theorem State.writePkp_vki (kp : F32) : (s.writePkp kp).vki = s.vki := rfl
@[simp] theorem State.writePkp_vkd (kp : F32) : (s.writePkp kp).vkd = s.vkd := rfl
@[simp] theorem State.writePkp_pkp (kp : F32) : (s.writePkp kp).pkp = some kp := rfl
@[simp] theorem State.writePkp_duty (kp : F32) : (s.writePkp kp).duty = s.duty := rfl
@[simp] theorem State.writePkp_dira (kp : F32) : (s.writePkp kp).dira = s.dira := rfl
@[simp] theorem State.writePkp_dirb (kp : F32) : (s.writePkp kp).dirb = s.dirb := rfl
@[simp] theorem State.writePkp_fault (kp : F32) : (s.writePkp kp).fault = s.fault := rfl
@[simp] theorem State.writePkp_inputs (kp : F32) : (s.writePkp kp).inputs = s.inputs := rfl
@[simp] theorem State.writePkp_responses (kp : F32) : (s.writePkp kp).responses = s.responses := rfl

/-! `State.writeGate` -/
@[simp] theorem State.writeGate_cfg (m : Motor) (d : BitVec 16) (da db : Bool) : (s.writeGate m d da db).cfg = s.cfg := rfl
@[simp] theorem State.writeGate_pos (m : Motor) (d : BitVec 16) (da db : Bool) : (s.writeGate m d da db).pos = s.pos := rfl
@[simp] theorem State.writeGate_last (m : Motor) (d : BitVec 16) (da db : Bool) : (s.writeGate m d da db).last = s.last := rfl
@[simp] theorem State.writeGate_e0 (m : Motor) (d : BitVec 16) (da db : Bool) : (s.writeGate m d da db).e0 = s.e0 := rfl
@[simp] theorem State.writeGate_e1 (m : Motor) (d : BitVec 16) (da db : Bool) : (s.writeGate m d da db).e1 = s.e1 := rfl
@[simp] theorem State.writeGate_e2 (m : Motor) (d : BitVec 16) (da db : Bool) : (s.writeGate m d da db).e2 = s.e2 := rfl
@[simp] theorem State.writeGate_acc (m : Motor) (d : BitVec 16) (da db : Bool) : (s.writeGate m d da db).acc = s.acc := rfl
@[simp] theorem State.writeGate_vkp (m : Motor) (d : BitVec 16) (da db : Bool) : (s.writeGate m d da db).vkp = s.vkp := rfl
@[simp] theorem State.writeGate_vki (m : Motor) (d : BitVec 16) (da db : Bool) : (s.writeGate m d da db).vki = s.vki := rfl
@[simp] theorem State.writeGate_vkd (m : Motor) (d : BitVec 16) (da db : Bool) : (s.writeGate m d da db).vkd = s.vkd := rfl
@[simp] theorem State.writeGate_pkp (m : Motor) (d : BitVec 16) (da db : Bool) : (s.writeGate m d da db).pkp = s.pkp := rfl
@[simp] theorem State.writeGate_duty (m : Motor) (d : BitVec 16) (da db : Bool) : (s.writeGate m d da db).duty = s.duty.set m d := rfl
@[simp] theorem State.writeGate_dira (m : Motor) (d : BitVec 16) (da db : Bool) : (s.writeGate m d da db).dira = s.dira.set m da := rfl
@[simp] theorem State.writeGate_dirb (m : Motor) (d : BitVec 16) (da db : Bool) : (s.writeGate m d da db).dirb = s.dirb.set m db := rfl
@[simp] theorem State.writeGate_fault (m : Motor) (d : BitVec 16) (da db : Bool) : (s.writeGate m d da db).fault = s.fault := rfl
@[simp] theorem State.writeGate_inputs (m : Motor) (d : BitVec 16) (da db : Bool) : (s.writeGate m d da db).inputs = s.inputs := rfl
@[simp] theorem State.writeGate_responses (m : Motor) (d : BitVec 16) (da db : Bool) : (s.writeGate m d da db).responses = s.responses := rfl

/-! `State.withInputs` -/
@[simp] theorem State.withInputs_cfg (is : List Input) : (s.withInputs is).cfg = s.cfg := rfl
@[simp] theorem State.withInputs_pos (is : List Input) : (s.withInputs is).pos = s.pos := rfl
@[simp] theorem State.withInputs_last (is : List Input) : (s.withInputs is).last = s.last := rfl
@[simp] theorem State.withInputs_e0 (is : List Input) : (s.withInputs is).e0 = s.e0 := rfl
@[simp] theorem State.withInputs_e1 (is : List Input) : (s.withInputs is).e1 = s.e1 := rfl
@[simp] theorem State.withInputs_e2 (is : List Input) : (s.withInputs is).e2 = s.e2 := rfl
@[simp] theorem State.withInputs_acc (is : List Input) : (s.withInputs is).acc = s.acc := rfl
@[simp] theorem State.withInputs_vkp (is : List Input) : (s.withInputs is).vkp = s.vkp := rfl
@[simp] theorem State.withInputs_vki (is : List Input) : (s.withInputs is).vki = s.vki := rfl
@[simp] theorem State.withInputs_vkd (is : List Input) : (s.withInputs is).vkd = s.vkd := rfl
@[simp] theorem State.withInputs_pkp (is : List Input) : (s.withInputs is).pkp = s.pkp := rfl
@[simp] theorem State.withInputs_duty (is : List Input) : (s.withInputs is).duty = s.duty := rfl
@[simp] theorem State.withInputs_dira (is : List Input) : (s.withInputs is).dira = s.dira := rfl
@[simp] theorem State.withInputs_dirb (is : List Input) : (s.withInputs is).dirb = s.dirb := rfl
@[simp] theorem State.withInputs_fault (is : List Input) : (s.withInputs is).fault = s.fault := rfl
@[simp] theorem State.withInputs_inputs (is : List Input) : (s.withInputs is).inputs = is := rfl
@[simp] theorem State.withInputs_responses (is : List Input) : (s.withInputs is).responses = s.responses := rfl

/-! `State.hardReset`: R31's values, the environment kept -/
@[simp] theorem State.hardReset_cfg : s.hardReset.cfg = s.cfg := rfl
@[simp] theorem State.hardReset_pos : s.hardReset.pos = ⟨0, 0⟩ := rfl
@[simp] theorem State.hardReset_last : s.hardReset.last = ⟨none, none⟩ := rfl
@[simp] theorem State.hardReset_e0 : s.hardReset.e0 = 0 := rfl
@[simp] theorem State.hardReset_e1 : s.hardReset.e1 = 0 := rfl
@[simp] theorem State.hardReset_e2 : s.hardReset.e2 = 0 := rfl
@[simp] theorem State.hardReset_acc : s.hardReset.acc = 0 := rfl
@[simp] theorem State.hardReset_vkp : s.hardReset.vkp = s.cfg.vpidGainsAtReset.map (·.kp) := rfl
@[simp] theorem State.hardReset_vki : s.hardReset.vki = s.cfg.vpidGainsAtReset.map (·.ki) := rfl
@[simp] theorem State.hardReset_vkd : s.hardReset.vkd = s.cfg.vpidGainsAtReset.map (·.kd) := rfl
@[simp] theorem State.hardReset_pkp : s.hardReset.pkp = s.cfg.ppidKpAtReset := rfl
@[simp] theorem State.hardReset_duty : s.hardReset.duty = ⟨0, 0⟩ := rfl
@[simp] theorem State.hardReset_dira : s.hardReset.dira = ⟨false, false⟩ := rfl
@[simp] theorem State.hardReset_dirb : s.hardReset.dirb = ⟨false, false⟩ := rfl
@[simp] theorem State.hardReset_fault : s.hardReset.fault = 0 := rfl
@[simp] theorem State.hardReset_inputs : s.hardReset.inputs = s.inputs := rfl
@[simp] theorem State.hardReset_responses : s.hardReset.responses = s.responses := rfl

/-! `State.pushRequest` -/
@[simp] theorem State.pushRequest_inputs (f : Frame) : (s.pushRequest f).inputs = .request f :: s.inputs := rfl

theorem State.withInputs_pushRequest (f : Frame) : (s.pushRequest f).withInputs s.inputs = s := rfl

end Updates

end Sys2Proof.Machine
end

