-- ==== Sys2Proof/Laws/Exec.lean ====
section
/-! SUPPORT. What a meaning, a served event and a step can do, said once. -/

namespace Sys2Proof.Machine

/-- When an instruction raises an error (R73, R92, R111). -/
inductive Raises (s : State) : Instr → ErrorCode → Prop where
  | unseeded (a : Axis) (raw : BitVec 16) : s.last.get a = none → Raises s (.encUpdate a raw) .unseeded
  | encOverflow (a : Axis) (raw : BitVec 16) : Raises s (.encUpdate a raw) .overflow
  | vpidGainsUnset (t y : BitVec 16) : s.vkp = none ∨ s.vki = none ∨ s.vkd = none →
      Raises s (.vpidCompute t y) .gainsUnset
  | vpidNumeric (t y : BitVec 16) : Raises s (.vpidCompute t y) .numeric
  | ppidGainsUnset (t y : Word) : s.pkp = none → Raises s (.ppidCompute t y) .gainsUnset
  | ppidOverflow (t y : Word) : Raises s (.ppidCompute t y) .overflow
  | ppidNumeric (t y : Word) : Raises s (.ppidCompute t y) .numeric

/-- What a successful instruction writes. -/
inductive Writes (s : State) : Instr → State → Prop where
  | nop : Writes s .nop s
  | encClear (a : Axis) (raw : BitVec 16) : Writes s (.encClear a raw) (s.writeEnc a 0 (some raw))
  | encUpdate (a : Axis) (raw l : BitVec 16) (p : Int) (hl : s.last.get a = some l)
      (hp : int32Result s.cfg.int32Overflow
        ((s.pos.get a).toInt + encDelta s.cfg.encDeltaMode l.toInt raw.toInt) = some p) :
      Writes s (.encUpdate a raw) (s.writeEnc a (BitVec.ofInt 32 p) (some raw))
  | encRead (a : Axis) : Writes s (.encRead a) s
  | vpidCompute (t y : BitVec 16) (sum : F32) (hn : f32IsNaN s.cfg.fpArith sum = false) :
      Writes s (.vpidCompute t y) (s.writeVpid (BitVec.ofInt 32 (t.toInt - y.toInt)) s.e0 s.e1
        (clampSymF s.cfg.fpArith sum Config.vpidLim))
  | vpidReset : Writes s .vpidReset (s.writeVpid 0 0 0 0)
  | vpidSetParams (kp ki kd : Word) : Writes s (.vpidSetParams kp ki kd)
      (s.writeGains (f32FromBits s.cfg.fpArith kp) (f32FromBits s.cfg.fpArith ki) (f32FromBits s.cfg.fpArith kd))
  | ppidCompute (t y : Word) : Writes s (.ppidCompute t y) s
  | ppidSetParams (kp ki kd : Word) : Writes s (.ppidSetParams kp ki kd) (s.writePkp (f32FromBits s.cfg.fpArith kp))
  | gateApply (m : Motor) (md : SysMode) (cmd : Word) :
      Writes s (.gateApply m md cmd)
        (s.writeGate m (gateDir s.cfg.dirPolarity (gateShape cmd.toInt md)).duty
          (gateDir s.cfg.dirPolarity (gateShape cmd.toInt md)).dira
          (gateDir s.cfg.dirPolarity (gateShape cmd.toInt md)).dirb)
  | statusRead : Writes s .statusRead s

/-- Every instruction answers a next state: an error with no other effect, or its writes and an OK response. -/
theorem exec_cases (i : Instr) (s : State) :
    (∃ e, Raises s i e ∧ exec i s = .next (s.raise e)) ∨
    (∃ u r0 r1, Writes s i u ∧ exec i s = .next (u.respondOk r0 r1)) := by
  cases i with
  | nop => exact .inr ⟨_, _, _, .nop, rfl⟩
  | encClear a raw => exact .inr ⟨_, _, _, .encClear a raw, rfl⟩
  | encUpdate a raw =>
    cases hl : s.last.get a with
    | none => exact .inl ⟨_, .unseeded a raw hl, by simp [exec, execEncUpdate, hl]⟩
    | some l =>
      cases hp : int32Result s.cfg.int32Overflow
          ((s.pos.get a).toInt + encDelta s.cfg.encDeltaMode l.toInt raw.toInt) with
      | none =>
        refine .inl ⟨_, .encOverflow a raw, ?_⟩
        simp [exec, execEncUpdate, hl, i32Value, rawValue, hp]
      | some p =>
        refine .inr ⟨_, resultWord p, resultWord (encVel s.cfg.velTie s.cfg.velNarrow
          (encDelta s.cfg.encDeltaMode l.toInt raw.toInt)), .encUpdate a raw l p hl hp, ?_⟩
        simp only [exec, execEncUpdate, hl, i32Value, rawValue, hp]
        rfl
  | encRead a => exact .inr ⟨_, _, _, .encRead a, rfl⟩
  | vpidCompute t y =>
    simp only [exec, execVpidCompute]
    split
    · split
      · exact .inl ⟨_, .vpidNumeric t y, rfl⟩
      · next h => exact .inr ⟨_, _, _, .vpidCompute t y _ h, rfl⟩
    · next h =>
      refine .inl ⟨_, .vpidGainsUnset t y ?_, rfl⟩
      rcases hp : s.vkp with _ | kp
      · exact .inl rfl
      rcases hi : s.vki with _ | ki
      · exact .inr (.inl rfl)
      rcases hd : s.vkd with _ | kd
      · exact .inr (.inr rfl)
      exact (h kp ki kd hp hi hd).elim
  | vpidReset => exact .inr ⟨_, _, _, .vpidReset, rfl⟩
  | vpidSetParams kp ki kd => exact .inr ⟨_, _, _, .vpidSetParams kp ki kd, rfl⟩
  | ppidCompute t y =>
    simp only [exec, execPpidCompute]
    split
    · next h => exact .inl ⟨_, .ppidGainsUnset t y h, rfl⟩
    · split
      · exact .inl ⟨_, .ppidOverflow t y, rfl⟩
      · split
        · exact .inl ⟨_, .ppidNumeric t y, rfl⟩
        · exact .inr ⟨_, _, _, .ppidCompute t y, rfl⟩
  | ppidSetParams kp ki kd => exact .inr ⟨_, _, _, .ppidSetParams kp ki kd, rfl⟩
  | gateApply m md cmd => exact .inr ⟨_, _, _, .gateApply m md cmd, rfl⟩
  | statusRead => exact .inr ⟨_, _, _, .statusRead, rfl⟩

/-- `exec_cases` for the state an instruction answered. -/
theorem exec_inv {i : Instr} {s t : State} (h : exec i s = .next t) :
    (∃ e, Raises s i e ∧ t = s.raise e) ∨ (∃ u r0 r1, Writes s i u ∧ t = u.respondOk r0 r1) := by
  rcases exec_cases i s with ⟨e, hr, he⟩ | ⟨u, r0, r1, hw, he⟩ <;> rw [he] at h <;> injection h with h
  · exact .inl ⟨e, hr, h.symm⟩
  · exact .inr ⟨u, r0, r1, hw, h.symm⟩

/-- A write changes neither FAULT nor the ports' data nor the parameters. -/
theorem Writes.keeps {s u : State} {i : Instr} (h : Writes s i u) :
    u.cfg = s.cfg ∧ u.fault = s.fault ∧ u.inputs = s.inputs ∧ u.responses = s.responses := by
  cases h <;> exact ⟨rfl, rfl, rfl, rfl⟩

/-- What serving a frame answers: an instruction's state, or the ILLEGAL error. -/
theorem serveFrame_cases (f : Frame) (s : State) :
    (∃ i, decode f = .ok i ∧ serveFrame f s = exec i s) ∨
    ((∃ e, decode f = .error e) ∧ serveFrame f s = .next (s.raise .illegal)) := by
  unfold serveFrame
  cases hd : decode f with
  | ok i => exact .inl ⟨i, rfl, rfl⟩
  | error e => exact .inr ⟨⟨e, rfl⟩, rfl⟩

/-- A served frame answers a next state: an error with no other effect, or an instruction's writes and an OK response. -/
theorem serveFrame_next (f : Frame) (s : State) :
    (∃ e, serveFrame f s = .next (s.raise e)) ∨
    (∃ i u r0 r1, decode f = .ok i ∧ Writes s i u ∧ serveFrame f s = .next (u.respondOk r0 r1)) := by
  rcases serveFrame_cases f s with ⟨i, hd, hs⟩ | ⟨-, hs⟩
  · rcases exec_cases i s with ⟨e, -, he⟩ | ⟨u, r0, r1, hw, he⟩
    · exact .inl ⟨e, hs.trans he⟩
    · exact .inr ⟨i, u, r0, r1, hd, hw, hs.trans he⟩
  · exact .inl ⟨.illegal, hs⟩

/-- A served event is a frame, a transfer that is none, or a reset. -/
theorem serveInput_cases (i : Input) (s : State) :
    (∃ f, serveInput i s = serveFrame f s) ∨ serveInput i s = .next s ∨
    (i = .reset ∧ serveInput i s = .next s.hardReset) := by
  cases i with
  | request f => exact .inl ⟨f, rfl⟩
  | bytes bs =>
    simp only [serveInput]
    cases frameOfBytes s.cfg.frameByteOrder bs with
    | some f => exact .inl ⟨f, rfl⟩
    | none => exact .inr (.inl rfl)
  | reset => exact .inr (.inr ⟨rfl, rfl⟩)

theorem step_nil {s : State} (h : s.inputs = []) : step s = .next s := by
  simp [step, serveNext, h]

theorem step_cons {s : State} {i : Input} {rest : List Input} (h : s.inputs = i :: rest) :
    step s = serveInput i (s.withInputs rest) := by
  simp [step, serveNext, h]

theorem step_request {s : State} {f : Frame} {rest : List Input} (h : s.inputs = .request f :: rest) :
    step s = serveFrame f (s.withInputs rest) := by
  rw [step_cons h]
  rfl

theorem step_reset {s : State} {rest : List Input} (h : s.inputs = .reset :: rest) :
    step s = .next (s.withInputs rest).hardReset := by
  rw [step_cons h]
  rfl

/-- All that a step can do: nothing is waiting, or the first event leaves the queue and is no request, or a reset, or a frame
(whole or as its bytes) that raises an error with no other effect or whose instruction writes and answers OK. -/
theorem step_cases (s : State) :
    (s.inputs = [] ∧ step s = .next s) ∨
    (∃ bs rest, s.inputs = .bytes bs :: rest ∧ frameOfBytes s.cfg.frameByteOrder bs = none ∧
      step s = .next (s.withInputs rest)) ∨
    (∃ rest, s.inputs = .reset :: rest ∧ step s = .next (s.withInputs rest).hardReset) ∨
    (∃ f rest, (s.inputs = .request f :: rest ∨
        ∃ bs, frameOfBytes s.cfg.frameByteOrder bs = some f ∧ s.inputs = .bytes bs :: rest) ∧
      ((∃ e, step s = .next ((s.withInputs rest).raise e)) ∨
        (∃ i u r0 r1, decode f = .ok i ∧ Writes (s.withInputs rest) i u ∧ step s = .next (u.respondOk r0 r1)))) := by
  cases h : s.inputs with
  | nil => exact .inl ⟨rfl, step_nil h⟩
  | cons x rest =>
    right
    cases x with
    | request f =>
      rw [step_request h]
      exact .inr (.inr ⟨f, rest, .inl rfl, serveFrame_next f _⟩)
    | bytes bs =>
      rw [step_cons h]
      simp only [serveInput, State.withInputs_cfg]
      cases hf : frameOfBytes s.cfg.frameByteOrder bs with
      | none => exact .inl ⟨bs, rest, rfl, hf, rfl⟩
      | some f => exact .inr (.inr ⟨f, rest, .inr ⟨bs, hf, rfl⟩, serveFrame_next f _⟩)
    | reset => exact .inr (.inl ⟨rest, rfl, step_reset h⟩)

end Sys2Proof.Machine
end

