-- ==== Sys2Proof/Laws/Gate.lean ====
section
/-! SUPPORT. The gate's clamps, dead-zones and direction (R120, R121). -/

namespace Sys2Proof.Machine

theorem clampI_cases (a lo hi : Int) :
    (a < lo ∧ clampI a lo hi = lo) ∨ (¬ a < lo ∧ a > hi ∧ clampI a lo hi = hi) ∨
    (¬ a < lo ∧ ¬ a > hi ∧ clampI a lo hi = a) := by
  unfold clampI
  split
  · simp_all
  · split <;> simp_all

theorem deadZone_eq (width c : Int) : deadZone width c = if |c| < width then 0 else c := by
  unfold deadZone
  simp only [Int.abs_eq_natAbs]
  split <;> split <;> omega

theorem gateShape_vc (cmd : Int) : gateShape cmd .vc = deadZone 30 (clampI cmd (-1000) 1000) := rfl

theorem gateShape_pf (cmd : Int) :
    gateShape cmd .pf = deadZone 120 (clampI (clampI cmd (-1000) 1000) (-200) 200) := rfl

/-- The gate's result: stopped, or of the command's sign with a magnitude in [30, 1000]. -/
theorem gateShape_bounds (cmd : Int) (md : SysMode) :
    gateShape cmd md = 0 ∨
    (0 < cmd ∧ 30 ≤ gateShape cmd md ∧ gateShape cmd md ≤ 1000) ∨
    (cmd < 0 ∧ gateShape cmd md ≤ -30 ∧ -1000 ≤ gateShape cmd md) := by
  have h1 := clampI_cases cmd (-1000) 1000
  have h2 := clampI_cases (clampI cmd (-1000) 1000) (-200) 200
  cases md
  · rw [gateShape_vc, deadZone_eq]
    generalize clampI cmd (-1000) 1000 = c at *
    simp only [Int.abs_eq_natAbs]
    split <;> omega
  · rw [gateShape_pf, deadZone_eq]
    generalize clampI (clampI cmd (-1000) 1000) (-200) 200 = d at *
    generalize clampI cmd (-1000) 1000 = c at *
    simp only [Int.abs_eq_natAbs]
    split <;> omega

/-- `gate_dir` of a positive or a negative command. -/
theorem gateDir_pos (p : DirPolarity) {c : Int} (h : 0 < c) :
    gateDir p c = ⟨BitVec.ofInt 16 c, decide (p = .aPositive), decide (p = .bPositive)⟩ := by
  have h0 : c ≠ 0 := by omega
  unfold gateDir
  cases p <;> simp [h0, h]

theorem gateDir_neg (p : DirPolarity) {c : Int} (h : c < 0) :
    gateDir p c = ⟨BitVec.ofInt 16 (-c), decide (p = .bPositive), decide (p = .aPositive)⟩ := by
  have h0 : c ≠ 0 := by omega
  have h1 : ¬ 0 < c := by omega
  unfold gateDir
  cases p <;> simp [h0, h1]

theorem toNat_ofInt16 {c : Int} (h0 : 0 ≤ c) (h1 : c < 65536) : ((BitVec.ofInt 16 c).toNat : Int) = c := by
  rw [BitVec.toNat_ofInt]
  omega

end Sys2Proof.Machine
end

