-- ==== Sys2Proof/Laws/PerInstr.lean ====
section
/-! SUPPORT. The family RoundTrip: the decoder reads back the frame the encoder writes, one lemma per constructor. -/

namespace Sys2Proof.Laws.RoundTrip

/-- The frame of an instruction decodes to it. -/
def Statement (i : Instr) : Prop := decode (encode i) = .ok i

/-- The shape of every case: the encoder's frame selects the row `op`, and the operands assemble to the instruction. -/
theorem of_row {i : Instr} (op : Opcode) (hopc : (encode i).opc = op.value)
    (hz : Machine.unusedFieldsZero op (encode i)) (ha : op.assemble (encode i) = i) : Statement i := by
  rw [Statement, decode_of_selects ((op.selects_iff_fields _).2 ⟨hopc, hz⟩), ha]

theorem nop : Statement .nop :=
  of_row .nop (by simp [encode]) (by simp [encode, Machine.unusedFieldsZero]) rfl

theorem encClear (axis : Axis) (raw : BitVec 16) : Statement (.encClear axis raw) :=
  of_row .encClear (by simp [encode])
    (by simp only [encode, Machine.unusedFieldsZero]; simp [high_half_setWidth])
    (by simp only [encode, Opcode.assemble]; simp [low_half_setWidth])

theorem encUpdate (axis : Axis) (raw : BitVec 16) : Statement (.encUpdate axis raw) :=
  of_row .encUpdate (by simp [encode])
    (by simp only [encode, Machine.unusedFieldsZero]; simp [high_half_setWidth])
    (by simp only [encode, Opcode.assemble]; simp [low_half_setWidth])

theorem encRead (axis : Axis) : Statement (.encRead axis) :=
  of_row .encRead (by simp [encode]) (by simp [encode, Machine.unusedFieldsZero])
    (by simp [encode, Opcode.assemble])

theorem vpidCompute (target actual : BitVec 16) : Statement (.vpidCompute target actual) :=
  of_row .vpidCompute (by simp [encode])
    (by simp only [encode, Machine.unusedFieldsZero]; simp [high_half_setWidth])
    (by simp only [encode, Opcode.assemble]; simp [low_half_setWidth])

theorem vpidReset : Statement .vpidReset :=
  of_row .vpidReset (by simp [encode]) (by simp [encode, Machine.unusedFieldsZero]) rfl

theorem vpidSetParams (kp ki kd : F32) : Statement (.vpidSetParams kp ki kd) :=
  of_row .vpidSetParams (by simp [encode]) (by simp [encode, Machine.unusedFieldsZero])
    (by simp [encode, Opcode.assemble])

theorem ppidCompute (target actual : Word) : Statement (.ppidCompute target actual) :=
  of_row .ppidCompute (by simp [encode]) (by simp [encode, Machine.unusedFieldsZero])
    (by simp [encode, Opcode.assemble])

theorem ppidSetParams (kp ki kd : F32) : Statement (.ppidSetParams kp ki kd) :=
  of_row .ppidSetParams (by simp [encode]) (by simp [encode, Machine.unusedFieldsZero])
    (by simp [encode, Opcode.assemble])

theorem gateApply (motor : Motor) (mode : SysMode) (cmd : Word) : Statement (.gateApply motor mode cmd) :=
  of_row .gateApply (by simp [encode]) (by simp [encode, Machine.unusedFieldsZero])
    (by simp [encode, Opcode.assemble])

theorem statusRead : Statement .statusRead :=
  of_row .statusRead (by simp [encode]) (by simp [encode, Machine.unusedFieldsZero]) rfl

end Sys2Proof.Laws.RoundTrip
end

