-- ==== Sys2Proof/Laws/Serve.lean ====
section
/-! SUPPORT. What the waiting events and FAULT mean to a step. -/

namespace Sys2Proof.Machine

/-- An instruction answers a next state, and never reads or writes the waiting events. -/
theorem exec_withInputs (i : Instr) (s : State) (is : List Input) :
    ∃ t, exec i s = .next t ∧ t.inputs = s.inputs ∧ exec i (s.withInputs is) = .next (t.withInputs is) := by
  cases i <;> simp only [exec]
  case encUpdate a raw =>
    unfold execEncUpdate
    simp only [State.withInputs_last, State.withInputs_pos, State.withInputs_cfg]
    split
    · exact ⟨_, rfl, rfl, rfl⟩
    · split <;> exact ⟨_, rfl, rfl, rfl⟩
  case vpidCompute =>
    unfold execVpidCompute
    simp only [State.withInputs_vkp, State.withInputs_vki, State.withInputs_vkd, State.withInputs_cfg, State.withInputs_e0,
      State.withInputs_e1, State.withInputs_acc]
    split
    · split <;> exact ⟨_, rfl, rfl, rfl⟩
    · exact ⟨_, rfl, rfl, rfl⟩
  case ppidCompute =>
    unfold execPpidCompute
    simp only [State.withInputs_pkp, State.withInputs_cfg]
    split
    · exact ⟨_, rfl, rfl, rfl⟩
    · split
      · exact ⟨_, rfl, rfl, rfl⟩
      · split <;> exact ⟨_, rfl, rfl, rfl⟩
  all_goals exact ⟨_, rfl, rfl, rfl⟩

/-- The same of serving a frame. -/
theorem serveFrame_withInputs (f : Frame) (s : State) (is : List Input) :
    ∃ t, serveFrame f s = .next t ∧ t.inputs = s.inputs ∧ serveFrame f (s.withInputs is) = .next (t.withInputs is) := by
  unfold serveFrame
  cases decode f with
  | ok i => exact exec_withInputs i s is
  | error e => exact ⟨_, rfl, rfl, rfl⟩

/-- The same of serving an event. -/
theorem serveInput_withInputs (i : Input) (s : State) (is : List Input) :
    ∃ t, serveInput i s = .next t ∧ t.inputs = s.inputs ∧ serveInput i (s.withInputs is) = .next (t.withInputs is) := by
  cases i with
  | request f => exact serveFrame_withInputs f s is
  | bytes bs =>
    simp only [serveInput, State.withInputs_cfg]
    cases frameOfBytes s.cfg.frameByteOrder bs with
    | some f => exact serveFrame_withInputs f s is
    | none => exact ⟨_, rfl, rfl, rfl⟩
  | reset => exact ⟨_, rfl, rfl, rfl⟩

/-- FAULT keeps its bits and gains the error's (R151). -/
theorem setFault_getLsbD (fl : BitVec 5) (e : ErrorCode) :
    (∀ k, fl.getLsbD k = true → (setFault fl e).getLsbD k = true) ∧
    (setFault fl e).getLsbD (e.code.toNat - 1) = true := by
  constructor
  · intro k hk
    simp [setFault, hk]
  · cases e <;> simp [setFault, ErrorCode.faultMask, ErrorCode.code]

theorem setFault_ne_zero (fl : BitVec 5) (e : ErrorCode) : setFault fl e ≠ 0 := by
  intro h
  have := (setFault_getLsbD fl e).2
  rw [h] at this
  simp at this

end Sys2Proof.Machine
end

