-- ==== Sys2Proof/Tests/Slice0.lean ====
section
/-! SUPPORT. Tests. Expected values are the spec's: the vectors of 95_test_vectors.md are named in each test's comment, other
values are worked out by hand from the rule cited. The witnesses show that the statements' hypotheses can be met. -/

open Sys2Proof Sys2Proof.Machine Sys2Proof.Claims

namespace Sys2Proof.Tests

/-! ### Small states -/

/-- The reset state with one frame waiting. -/
def waiting (f : Frame) : State := State.reset.pushRequest f

/-- Reset state, but axis 1 seeded. -/
def seeded (pos : BitVec 32) (last : BitVec 16) : State :=
  { State.reset with pos := ⟨pos, 0⟩, last := ⟨some last, none⟩ }

/-- Reset state, but with velocity gains. -/
def withGains (kp ki kd : F32) : State := { State.reset with vkp := some kp, vki := some ki, vkd := some kd }

/-- Reset state, but with a position gain. -/
def withKp (kp : F32) : State := { State.reset with pkp := some kp }

/-- The same state under INT32_OVERFLOW = FAULT. -/
def faulting (s : State) : State := { s with cfg := { s.cfg with int32Overflow := .fault } }

/-- The response a state gives to a frame. -/
def answer (s : State) (f : Frame) : Option Response :=
  match step (s.pushRequest f) with
  | .next t => t.responses.getLast?
  | _ => none

/-- The state after a frame, its responses put aside. -/
def after (s : State) (f : Frame) : Option State :=
  match step (s.pushRequest f) with
  | .next t => some { t with responses := [] }
  | _ => none

/-! ### WellFormed: each check refuses an ill-formed term (R60) -/

theorem test_wf_raw_high : (Asm.encClear .one 65536).wf = false := by decide
theorem test_wf_raw_low : (Asm.encUpdate .two (-32769)).wf = false := by decide
theorem test_wf_raw_ends : (Asm.encClear .one 65535).wf = true ∧ (Asm.encClear .one (-32768)).wf = true := by decide
theorem test_wf_target16 : (Asm.vpidCompute 32768 0).wf = false := by decide
theorem test_wf_actual16 : (Asm.vpidCompute 0 (-32769)).wf = false := by decide
theorem test_wf_target32 : (Asm.ppidCompute 2147483648 0).wf = false := by decide
theorem test_wf_actual32 : (Asm.ppidCompute 0 (-2147483649)).wf = false := by decide
theorem test_wf_cmd32 : (Asm.gateApply .one .pf 2147483648).wf = false := by decide

/-! ### The fixed widths are the constants of R6 -/

theorem test_widths : Config.rawW = 16 ∧ Config.posW = 32 ∧ Config.velW = 16 ∧ Config.nAxes = 2 ∧ Config.vpidHist = 3 := by
  decide

/-! ### Decoding: words written out from R50 to R55 -/

theorem test_decode_nop : decode 0x00000000_00000000_00000000_00000000#128 = .ok .nop := by decide
/-- E-32. -/
theorem test_decode_encClear : decode 0x01800000_00000000_00000000_00007FF0#128 = .ok (.encClear .two 0x7FF0) := by decide
/-- E-4. -/
theorem test_decode_encUpdate : decode 0x02000000_00000000_00000000_00008000#128 = .ok (.encUpdate .one 0x8000) := by decide
/-- E-32. -/
theorem test_decode_encRead : decode 0x03800000_00000000_00000000_00000000#128 = .ok (.encRead .two) := by decide
/-- V-5: target and actual are different operands. -/
theorem test_decode_vpidCompute : decode 0x10000000_00000064_00000078_00000000#128 = .ok (.vpidCompute 100 120) := by decide
theorem test_decode_vpidReset : decode 0x11000000_00000000_00000000_00000000#128 = .ok .vpidReset := by decide
/-- V-1: three different gains. -/
theorem test_decode_vpidSetParams :
    decode 0x12000000_3F800000_3F000000_3E800000#128 = .ok (.vpidSetParams 0x3F800000 0x3F000000 0x3E800000) := by decide
/-- PP-3. -/
theorem test_decode_ppidCompute : decode 0x20000000_00000000_00000025_00000000#128 = .ok (.ppidCompute 0 37) := by decide
/-- PP-1. -/
theorem test_decode_ppidSetParams :
    decode 0x22000000_3F000000_40E00000_40E00000#128 = .ok (.ppidSetParams 0x3F000000 0x40E00000 0x40E00000) := by decide
/-- R122's example: SEL and MODE both set. -/
theorem test_decode_gateApply : decode 0x30C00000_00000078_00000000_00000000#128 = .ok (.gateApply .two .pf 120) := by decide
theorem test_decode_statusRead : decode 0xF0000000_00000000_00000000_00000000#128 = .ok .statusRead := by decide

/-- E-33, E-34, V-16, V-17, PP-18, G-23, B-3, B-4, B-7: a must-be-zero bit set. -/
theorem test_decode_mustBeZero :
    decode 0x01400000_00000000_00000000_00000000#128 = .error .mustBeZero ∧
    decode 0x01000000_00000000_00000000_00010000#128 = .error .mustBeZero ∧
    decode 0x10800000_00000001_00000000_00000000#128 = .error .mustBeZero ∧
    decode 0x10000000_00010000_00000000_00000000#128 = .error .mustBeZero ∧
    decode 0x20000000_00000000_00000000_00000001#128 = .error .mustBeZero ∧
    decode 0x30000000_00000005_00000001_00000000#128 = .error .mustBeZero ∧
    decode 0x00000001_00000000_00000000_00000000#128 = .error .mustBeZero ∧
    decode 0xF0000001_00000000_00000000_00000000#128 = .error .mustBeZero ∧
    decode 0x11800000_00000000_00000000_00000000#128 = .error .mustBeZero :=
  ⟨by decide, by decide, by decide, by decide, by decide, by decide, by decide, by decide, by decide⟩

/-- B-6: a reserved OPC. -/
theorem test_decode_reserved : decode 0x05000000_00000000_00000000_00000000#128 = .error .reservedOpcode := by decide

/-- The encoder writes the spec's frames. -/
theorem test_encode : encode (.gateApply .two .pf 120) = 0x30C00000_00000078_00000000_00000000#128 ∧
    encode (.vpidCompute 100 120) = 0x10000000_00000064_00000078_00000000#128 := by decide

/-- The table's word of ENC_UPDATE A1, 0x8000. -/
theorem test_decodeTableWord : decodeTableWord 128 0x02000000_00000000_00000000_00008000 = some (.encUpdate .one 0x8000) ∧
    decodeTableWord 128 0x05000000_00000000_00000000_00000000 = none := by decide

/-- R41: the first byte is bits [7:0] under LITTLE and bits [127:120] under BIG. -/
theorem test_bytes : frameOfBytes .little [0x01, 0, 0, 0, 0, 0, 0, 0, 0, 0, 0, 0, 0, 0, 0x80, 0x02] =
      some 0x02800000_00000000_00000000_00000001#128 ∧
    frameOfBytes .big [0x02, 0x80, 0, 0, 0, 0, 0, 0, 0, 0, 0, 0, 0, 0, 0, 0x01] =
      some 0x02800000_00000000_00000000_00000001#128 := by decide

/-! ### The assembler (R60, R61), on lines and frames of 95_test_vectors -/

theorem test_asm_gate : assembleLine "GATE_APPLY M2, VC, -500" = some [0x30800000_FFFFFE0C_00000000_00000000#128] := by decide
theorem test_asm_raw : assembleLine "ENC_CLEAR A2, 0x7FF0" = some [0x01800000_00000000_00000000_00007FF0#128] := by decide
theorem test_asm_gains : assembleLine "VPID_SET_PARAMS 1.0, 0.5, 0.25" =
    some [0x12000000_3F800000_3F000000_3E800000#128] := by decide
theorem test_asm_pattern : parseLine "VPID_SET_PARAMS f32:0x7FC00000, 0.0, 0.0" =
    some (.vpidSetParams (.bits 0x7FC00000) (.decimal false 0 1) (.decimal false 0 1)) := by decide
theorem test_asm_signed16 : assembleLine "VPID_COMPUTE -900, 0" = some [0x10000000_0000FC7C_00000000_00000000#128] := by decide
theorem test_asm_stopAll : assembleLine "STOP_ALL" =
    some [0x30000000_00000000_00000000_00000000#128, 0x30800000_00000000_00000000_00000000#128] := by decide
theorem test_asm_error : assembleLine "VPID_COMPUTE 32768, 0" = none ∧ assembleLine "ENC_READ M1" = none := by decide

/-! ### The operations, on the vectors of 95_test_vectors -/

/-- B-1. -/
theorem test_nop : answer State.reset 0 = some ⟨.ok, 0, 0⟩ := by decide

/-- E-32, P1 step 1. -/
theorem test_encClear : after (seeded 5 7) 0x01800000_00000000_00000000_00007FF0#128 =
    some { seeded 5 7 with last := ⟨some 7, some 0x7FF0⟩ } := by decide

/-- E-4: a forward wrap. -/
theorem test_encUpdate_wrap : answer (seeded 0 32767) 0x02000000_00000000_00000000_00008000#128 = some ⟨.ok, 1, 2⟩ := by decide
/-- E-29: OVERFLOW leaves the axis. -/
theorem test_encUpdate_overflow : after (faulting (seeded 2147483600 0)) 0x02000000_00000000_00000000_00000064#128 =
    some { faulting (seeded 2147483600 0) with fault := 0x10 } := by decide

/-- E-32. -/
theorem test_encRead : answer { State.reset with last := ⟨none, some 32752⟩ } 0x03800000_00000000_00000000_00000000#128 =
    some ⟨.ok, 0, 0x00017FF0⟩ := by decide

/-- V-3: the increment, the new accumulator, the output, and the step that puts them together. -/
theorem test_pidIncrement : pidIncrement .binary32 0x3F800000 0x3F000000 0x3E800000 50 100 0 = 0xC27A0000#32 := by decide
theorem test_vpidSum : b32Add 0x432F0000 0xC27A0000 = 0x42E10000#32 := by decide
theorem test_vpidClamp : clampSymF .binary32 0x42E10000#32 800 = 0x42E10000#32 := by decide
theorem test_vpidCompute : exec (.vpidCompute 100 50)
      { withGains 0x3F800000 0x3F000000 0x3E800000 with e0 := 100, acc := 0x432F0000 } =
    .next { withGains 0x3F800000 0x3F000000 0x3E800000 with
      e0 := 50, e1 := 100, acc := 0x42E10000, responses := [⟨.ok, 0x70, 0x42E10000⟩] } := by
  have sum : f32Add .binary32 0x432F0000
      (pidIncrement .binary32 0x3F800000 0x3F000000 0x3E800000 (i16Value 100 - i16Value 50) (i32Value 100) (i32Value 0)) =
      0x42E10000#32 := by
    rw [show i16Value 100 - i16Value 50 = 50 from rfl, show i32Value 100 = 100 from rfl, show i32Value 0 = 0 from rfl,
      test_pidIncrement]
    exact test_vpidSum
  unfold exec execVpidCompute
  dsimp only [withGains, State.reset, State.resetWith, Config.default]
  rw [sum, Config.vpidLim, test_vpidClamp]
  rfl
/-- V-14: infinity times zero is NUMERIC, with no partial effect. -/
theorem test_vpidCompute_numeric : after (withGains 0x7F800000 0 0) 0x10000000_00000000_00000000_00000000#128 =
    some { withGains 0x7F800000 0 0 with fault := 0x08 } := by decide

/-- R91's example. -/
theorem test_vpidReset : after { withGains 1 2 3 with e0 := 50, e1 := 100, acc := 0x42E10000 }
    0x11000000_00000000_00000000_00000000#128 = some (withGains 1 2 3) := by decide

/-- R90's example. -/
theorem test_vpidSetParams : after State.reset 0x12000000_3F800000_3F000000_3E800000#128 =
    some (withGains 0x3F800000 0x3F000000 0x3E800000) := by decide

/-- PP-3: truncation toward zero of -18.5. -/
theorem test_ppidCompute : answer (withKp 0x3F000000) 0x20000000_00000000_00000025_00000000#128 =
    some ⟨.ok, 0xFFFFFFEE, 0⟩ := by decide
/-- R111's corner case: 2147483647 - (-1) wraps, so the output is -50. -/
theorem test_ppidCompute_wrap : answer (withKp 0x3F800000) 0x20000000_7FFFFFFF_FFFFFFFF_00000000#128 =
    some ⟨.ok, 0xFFFFFFCE, 0⟩ := by decide

/-- PP-1. -/
theorem test_ppidSetParams : after State.reset 0x22000000_3F000000_40E00000_40E00000#128 = some (withKp 0x3F000000) := by
  decide

/-- G-21: the other motor is untouched. -/
theorem test_gateApply : after { State.reset with duty := ⟨30, 0⟩, dira := ⟨true, false⟩ }
      0x30800000_FFFFFE0C_00000000_00000000#128 =
    some { State.reset with duty := ⟨30, 500⟩, dira := ⟨true, false⟩, dirb := ⟨false, true⟩ } := by decide
/-- G-22: B_POSITIVE. -/
theorem test_gateApply_polarity :
    answer { State.reset with cfg := { Config.default with dirPolarity := .bPositive } }
      0x30000000_000001F4_00000000_00000000#128 = some ⟨.ok, 500, 1⟩ := by decide

/-- P4 step 5. -/
theorem test_statusRead : answer { State.reset with fault := 0x07 } 0xF0000000_00000000_00000000_00000000#128 =
    some ⟨.ok, 7, 0⟩ := by decide

/-- P4 steps 1 and 2: ILLEGAL adds its bit to FAULT. -/
theorem test_illegal : after { State.reset with fault := 0x02 } 0x05000000_00000000_00000000_00000000#128 =
    some { State.reset with fault := 0x03 } := by decide

/-- Reset from a state in which every element differs (R31, R170). -/
theorem test_reset : step { State.reset with
    pos := ⟨1, 2⟩, last := ⟨some 3, some 4⟩, e0 := 5, e1 := 6, e2 := 7, acc := 8, vkp := some 9, vki := some 10,
    vkd := some 11, pkp := some 12, duty := ⟨13, 14⟩, dira := ⟨true, true⟩, dirb := ⟨true, true⟩, fault := 31,
    inputs := [.reset] } = .next State.reset := rfl

/-- The reset gains of R7. -/
theorem test_reset_gains : (State.resetWith { Config.default with vpidGainsAtReset := some ⟨1, 2, 3⟩, ppidKpAtReset := some 4 }).vki =
    some 2 := by decide

/-! ### The helper functions, on the vectors of 95_test_vectors -/

/-- E-4 to E-9, E-20, E-21. -/
theorem test_encDelta : encDelta .wide 32767 (-32768) = 1 ∧ encDelta .wide (-32768) 32767 = -1 ∧
    encDelta .wide 0 (-32768) = -32768 ∧ encDelta .wide (-1) 32767 = 32768 ∧ encDelta .wide 32767 0 = -32767 ∧
    encDelta .wrap16 (-1) 32767 = -32768 := by decide

/-- E-2, E-3, E-10, E-11, E-14 to E-17. -/
theorem test_encVel : [100, -110, 10, -10, 17712, 17713, -17713, 3].map (encVel .away .wrap) =
    [185, -204, 19, -19, 32767, -32767, 32767, 6] := by decide

/-- E-26 to E-28, E-13, and E-22 to E-25. -/
theorem test_encVel_parameters : [10, -10, 50, 30].map (encVel .even .wrap) = [18, -18, 92, 56] ∧
    [-32768, 32768, 17713, -17713].map (encVel .away .saturate) = [-32768, 32767, 32767, -32768] := by decide

/-- G-1 to G-11. -/
theorem test_gateShape_vc : [0, 29, -29, 30, -30, 250, 1000, 1500, -5000, -2147483648, 2147483647].map (gateShape · .vc) =
    [0, 0, 0, 30, -30, 250, 1000, 1000, -1000, -1000, 1000] := by decide

/-- G-12 to G-20. -/
theorem test_gateShape_pf : [30, 119, 120, -120, 199, 201, 1500, -5000, 0].map (gateShape · .pf) =
    [0, 0, 120, -120, 199, 200, 200, -200, 0] := by decide

/-! ### Binary32: patterns from R11 and general knowledge of IEEE 754 -/

/-- 1, 2^24, 2^24 + 1 (a tie, to even), 2^24 + 3 (a tie, to even), and -2^31. -/
theorem test_b32OfInt : [1, 16777216, 16777217, 16777219, -2147483648].map b32OfInt =
    [0x3F800000#32, 0x4B800000#32, 0x4B800000#32, 0x4B800002#32, 0xCF000000#32] := by decide

/-- 1 + 2^-24 is a tie, 1 + 3*2^-24 rounds up to even; the largest finite value doubled is infinity; x - x is +0. -/
theorem test_b32Add : b32Add 0x3F800000 0x33800000 = 0x3F800000#32 ∧ b32Add 0x3F800001 0x33800000 = 0x3F800002#32 ∧
    b32Add 0x7F7FFFFF 0x7F7FFFFF = 0x7F800000#32 ∧ b32Add 0x3F800000 0xBF800000 = 0x00000000#32 ∧
    b32Add 0x80000000 0x80000000 = 0x80000000#32 := by decide

/-- 0.5 * 37 = 18.5; half the least subnormal is a tie to zero, with the sign kept; infinity times zero is the quiet NaN. -/
theorem test_b32Mul : b32Mul 0x3F000000 0x42140000 = 0x41940000#32 ∧ b32Mul 0xBF000000 0x00000001 = 0x80000000#32 ∧
    b32Mul 0x7F800000 0 = 0x7FC00000#32 ∧ b32Mul 0x7F7FFFFF 0x40000000 = 0x7F800000#32 := by decide

/-- -62.5 and 112.5 (V-7, V-3). -/
theorem test_b32Trunc0 : b32Trunc0 0xC27A0000 = -62 ∧ b32Trunc0 0x42E10000 = 112 := by decide

/-! ### Witnesses: the hypotheses of each statement are met, each clause at a boundary of its range -/

/-- OnlyTheEncodingSpellsAnInstruction. -/
theorem witness_onlyTheEncoding : decode 0x01800000_00000000_00000000_0000FFFF#128 = .ok (.encClear .two 0xFFFF) := by decide

/-- DecoderFollowsTheTable: a selected row, and a frame no row selects with a frame waiting. -/
theorem witness_decoder_row : (0x10000000_0000FFFF_00008000_00000000#128 &&& Opcode.vpidCompute.mask) =
    Opcode.vpidCompute.pattern := by decide
theorem witness_decoder_noRow : (∀ op : Opcode, 0x10000000_00010000_00000000_00000000#128 &&& op.mask ≠ op.pattern) ∧
    (waiting 0x10000000_00010000_00000000_00000000#128).inputs = [.request 0x10000000_00010000_00000000_00000000#128] :=
  ⟨fun op => by cases op <;> decide, rfl⟩

/-- ReservedOpcodesAreIllegal: the ends of each reserved range. -/
theorem witness_reserved : ∀ o ∈ [0x04, 0x0F, 0x13, 0x1F, 0x21, 0x23, 0x2F, 0x31, 0xEF, 0xF1, 0xFF],
    (let opc := ((BitVec.ofNat 128 (o * 2 ^ 120)).extractLsb' 120 8).toNat
     (0x04 ≤ opc ∧ opc ≤ 0x0F) ∨ (0x13 ≤ opc ∧ opc ≤ 0x1F) ∨ opc = 0x21 ∨ (0x23 ≤ opc ∧ opc ≤ 0x2F) ∨
     (0x31 ≤ opc ∧ opc ≤ 0xEF) ∨ (0xF1 ≤ opc ∧ opc ≤ 0xFF)) := by decide

/-- UnusedFieldsMustBeZero: for each operation, a frame with one unused bit set, at an edge of its field. -/
theorem witness_unused (op : Opcode) : ∃ f : Frame, f.opc = op.value ∧ ¬ unusedFieldsZero op f := by
  cases op
  case nop => exact ⟨0x00000000_00000000_00000000_00000001#128, by decide, by unfold unusedFieldsZero; decide⟩
  case encClear => exact ⟨0x01000000_00000000_00000000_00010000#128, by decide, by unfold unusedFieldsZero; decide⟩
  case encUpdate => exact ⟨0x02000000_80000000_00000000_00000000#128, by decide, by unfold unusedFieldsZero; decide⟩
  case encRead => exact ⟨0x03400000_00000000_00000000_00000000#128, by decide, by unfold unusedFieldsZero; decide⟩
  case vpidCompute => exact ⟨0x10000000_00000000_80000000_00000000#128, by decide, by unfold unusedFieldsZero; decide⟩
  case vpidReset => exact ⟨0x11800000_00000000_00000000_00000000#128, by decide, by unfold unusedFieldsZero; decide⟩
  case vpidSetParams => exact ⟨0x12000001_00000000_00000000_00000000#128, by decide, by unfold unusedFieldsZero; decide⟩
  case ppidCompute => exact ⟨0x20000000_00000000_00000000_00000001#128, by decide, by unfold unusedFieldsZero; decide⟩
  case ppidSetParams => exact ⟨0x22200000_00000000_00000000_00000000#128, by decide, by unfold unusedFieldsZero; decide⟩
  case gateApply => exact ⟨0x30000000_00000000_00000001_00000000#128, by decide, by unfold unusedFieldsZero; decide⟩
  case statusRead => exact ⟨0xF0000000_00000000_00000001_00000000#128, by decide, by unfold unusedFieldsZero; decide⟩

/-- StepRunsTheDecodedInstruction: a whole frame, and its bytes. -/
theorem witness_step_request : decode 0x03000000_00000000_00000000_00000000#128 = .ok (.encRead .one) ∧
    (waiting 0x03000000_00000000_00000000_00000000#128).inputs = .request 0x03000000_00000000_00000000_00000000#128 :: [] := by
  decide
theorem witness_step_bytes :
    frameOfBytes State.reset.cfg.frameByteOrder [0, 0, 0, 0, 0, 0, 0, 0, 0, 0, 0, 0, 0, 0, 0, 0x03] =
      some 0x03000000_00000000_00000000_00000000#128 := by decide

/-- BytesCarryTheFrame: the first and last bytes of a frame and of a response. -/
theorem witness_bytes : (frameBytes .little 0x01000000_00000000_00000000_000000FF#128)[0]? = some 0xFF ∧
    (frameBytes .little 0x01000000_00000000_00000000_000000FF#128)[15]? = some 0x01 ∧
    (frameBytes .big 0x01000000_00000000_00000000_000000FF#128)[0]? = some 0x01 ∧
    (responseBytes .little ⟨.error .overflow, 0, 7⟩)[0]? = some 7 ∧
    (responseBytes .big ⟨.error .overflow, 0, 7⟩)[11]? = some 7 ∧
    (responseBytes .big ⟨.error .overflow, 0, 7⟩)[3]? = some 5 := by decide

/-- PartialFrameHasNoEffect: fifteen bytes, seventeen and none. -/
theorem witness_partial : ∀ n ∈ [15, 17, 0], (List.replicate n (0 : Byte)).length ≠ 16 ∧
    ({ State.reset with inputs := [.bytes (List.replicate n 0)] } : State).inputs = .bytes (List.replicate n 0) :: [] := by
  decide

/-- IdleStepHoldsTheState. -/
theorem witness_idle : State.reset.inputs = [] := rfl

/-- HardwareResetSetsEveryElement, and the second clause of EveryRequestIsAnsweredOnce. -/
theorem witness_hardReset : ({ seeded 5 7 with inputs := [.reset, .request 0] } : State).inputs = .reset :: [.request 0] := rfl

/-- EveryInterleavingIsServedInArrivalOrder: two requests of one client around one of another. -/
theorem witness_interleaving : Interleaves [Input.request 0, .request 1] [.request 2] [.request 0, .request 2, .request 1] :=
  .left _ (.right _ (.left _ .nil))

/-- EveryRequestIsAnsweredOnce, the first clause, and ErrorsFollowThePriorityOrder. -/
theorem witness_request : (waiting 0).inputs = .request 0 :: [] := rfl

/-- EveryRequestIsAnsweredOnce, the clause on bytes: sixteen bytes that spell no operation, and their one response. -/
theorem witness_sixteenBytes : (List.replicate 16 (0xFF : Byte)).length = 16 ∧
    (match step { State.reset with inputs := [.bytes (List.replicate 16 0xFF)] } with
      | .next t => t.responses
      | _ => []) = [⟨.error .illegal, 0, 0⟩] := by decide

/-- PortsFollowTheLatches: a GATE_APPLY that changes a port, and a reset that does. -/
theorem witness_ports : ∃ t, step (waiting 0x30000000_000001F4_00000000_00000000#128) = .next t ∧
    t.pwmDutyPort .one ≠ (waiting 0x30000000_000001F4_00000000_00000000#128).pwmDutyPort .one := ⟨_, rfl, by decide⟩
theorem witness_ports_reset : ∃ t, step { State.reset with dira := ⟨true, false⟩, inputs := [.reset] } = .next t ∧
    t.dirAPort .one ≠ ({ State.reset with dira := ⟨true, false⟩, inputs := [.reset] } : State).dirAPort .one :=
  ⟨_, rfl, by decide⟩

/-- AnErrorHasNoOtherEffect, and the error clause of FaultIsStickyUntilReset: E-30. -/
theorem witness_error : ∃ t, step (waiting 0x02000000_00000000_00000000_00000001#128) = .next t ∧
    t.responses = (waiting 0x02000000_00000000_00000000_00000001#128).responses ++ [⟨.error .unseeded, 0, 0⟩] :=
  ⟨_, rfl, by decide⟩

/-- FaultIsStickyUntilReset: a set bit and an OK response, a reset, and FAULT going from set to zero. -/
theorem witness_sticky_ok : ∃ t, step ({ State.reset with fault := 16 }.pushRequest 0) = .next t ∧
    ({ State.reset with fault := 16 }.pushRequest 0).fault.getLsbD 4 = true ∧
    t.responses = ({ State.reset with fault := 16 }.pushRequest 0).responses ++ [⟨.ok, 0, 0⟩] ∧
    ∀ rest, ({ State.reset with fault := 16 }.pushRequest 0).inputs ≠ .reset :: rest :=
  ⟨_, rfl, by decide, by decide, fun _ h => (by cases h)⟩
theorem witness_sticky_reset : ∃ t, step { State.reset with fault := 16, inputs := [.reset] } = .next t ∧
    ({ State.reset with fault := 16, inputs := [.reset] } : State).fault ≠ 0 ∧ t.fault = 0 := ⟨_, rfl, by decide, rfl⟩

/-- ErrorsFollowThePriorityOrder: each status is some frame's. -/
theorem witness_statuses :
    (answer State.reset 0).map Response.status = some .ok ∧
    (answer State.reset 1).map Response.status = some (.error .illegal) ∧
    (answer State.reset 0x02000000_00000000_00000000_00000001#128).map Response.status = some (.error .unseeded) ∧
    (answer State.reset 0x10000000_00000001_00000000_00000000#128).map Response.status = some (.error .gainsUnset) ∧
    (answer State.reset 0x20000000_0000000A_00000000_00000000#128).map Response.status = some (.error .gainsUnset) ∧
    (answer (faulting (seeded 2147483600 0)) 0x02000000_00000000_00000000_00000064#128).map Response.status =
      some (.error .overflow) ∧
    (answer (faulting (withKp 0x7FC00000)) 0x20000000_7FFFFFFF_FFFFFFFF_00000000#128).map Response.status =
      some (.error .overflow) ∧
    (answer (withKp 0x7FC00000) 0x20000000_7FFFFFFF_FFFFFFFF_00000000#128).map Response.status = some (.error .numeric) ∧
    (answer (withGains 0x7FC00000 0 0) 0x10000000_0000000A_00000000_00000000#128).map Response.status =
      some (.error .numeric) := by
  refine ⟨?_, ?_, ?_, ?_, ?_, ?_, ?_, ?_, ?_⟩ <;> decide

/-- EncUpdateAdvancesThePosition: unseeded; the greatest sum in range, under FAULT; the least out of range, under FAULT and
under WRAP. -/
theorem witness_encUpdate_unseeded : State.reset.last.get .two = none := rfl
theorem witness_encUpdate_in : (faulting (seeded 2147483547 0)).last.get .one = some 0 ∧
    ¬ ((((faulting (seeded 2147483547 0)).pos.get .one).toInt + encDelta .wide 0 100 < -2 ^ 31 ∨
        ((faulting (seeded 2147483547 0)).pos.get .one).toInt + encDelta .wide 0 100 > 2 ^ 31 - 1) ∧
      (faulting (seeded 2147483547 0)).cfg.int32Overflow = .fault) := by decide
theorem witness_encUpdate_overflow :
    (((faulting (seeded 2147483548 0)).pos.get .one).toInt + encDelta .wide 0 100 < -2 ^ 31 ∨
      ((faulting (seeded 2147483548 0)).pos.get .one).toInt + encDelta .wide 0 100 > 2 ^ 31 - 1) ∧
    (faulting (seeded 2147483548 0)).cfg.int32Overflow = .fault := by decide
theorem witness_encUpdate_wrap : (seeded 2147483548 0).cfg.int32Overflow ≠ .fault := by decide

/-- EncReadAnswersTheAxis: seeded and unseeded. -/
theorem witness_encRead : (seeded 5 0xFFFF).last.get .one = some 0xFFFF ∧ (seeded 5 0xFFFF).last.get .two = none := ⟨rfl, rfl⟩

/-- EncDeltaCorrectsOneWrap: differences at and next to each threshold. -/
theorem witness_encDelta : ∀ p ∈ [((-32768 : Int), (0 : Int)), (-32768, 1), (0, -32768), (1, -32768), (-32768, 32767)],
    -32768 ≤ p.1 ∧ p.1 ≤ 32767 ∧ -32768 ≤ p.2 ∧ p.2 ≤ 32767 := by decide

/-- EncVelIsTheRoundedProduct: the ends of the range, a tie, and both sides of the narrowing threshold. -/
theorem witness_encVel : ∀ d ∈ [(-32768 : Int), 32768, 10, -10, 17712, 17713], -32768 ≤ d ∧ d ≤ 32768 := by decide

/-- MovementWithinBandwidthIsAddedExactly: the largest movements, under WRAP and, at the end of the range, under FAULT; and
corrected differences. -/
theorem witness_movement : (seeded 0 0).last.get .one = some 0 ∧ (seeded 0 0).cfg.int32Overflow = .wrap ∧
    (-32767 : Int) ≤ -32767 ∧ (32767 : Int) ≤ 32767 := by decide
theorem witness_movement_fault : (faulting (seeded 2147450880 0)).last.get .one = some 0 ∧
    (-2 ^ 31 ≤ ((faulting (seeded 2147450880 0)).pos.get .one).toInt + 32767 ∧
      ((faulting (seeded 2147450880 0)).pos.get .one).toInt + 32767 ≤ 2 ^ 31 - 1) := by decide
theorem witness_movement_wrap : (1 : Int) - (-32768) > 32768 ∧ (-32768 : Int) - 1 < -32768 := by decide

/-- PositionIsTheSumOfTheDeltas: a clear and an update. -/
theorem witness_position : ∃ t, Host.Core.run Sys2Proof.core 2 { State.reset with
    inputs := [.request 0x01000000_00000000_00000000_00000000#128, .request 0x02000000_00000000_00000000_00000064#128] } =
      .next t ∧ t.pos.get .one = 100 := ⟨_, rfl, by decide⟩

/-- VpidSetParamsStoresTheGains and PpidSetParamsStoresOnlyKp, the clauses about binary32. -/
theorem witness_setParams : State.reset.cfg.fpArith = .binary32 := rfl

/-- VpidComputeAddsTheIncrement: each gain unset, a NaN sum, and a sum that is none. -/
theorem witness_vpid_unset : ({ withGains 1 2 3 with vkp := none } : State).vkp = none ∧
    ({ withGains 1 2 3 with vki := none } : State).vki = none ∧ ({ withGains 1 2 3 with vkd := none } : State).vkd = none :=
  ⟨rfl, rfl, rfl⟩
theorem witness_vpid_nan : b32IsNaN (b32Add 0 (pidIncrement .binary32 0x7FC00000 0 0 10 0 0)) = true := by decide
theorem witness_vpid_ok : b32IsNaN (b32Add 0 (pidIncrement .binary32 0x3F800000 0x3F000000 0x3E800000 100 0 0)) = false := by
  decide

/-- VpidOutputStaysInRange, at the clamp (V-8), and its output. -/
theorem witness_vpidRange : ∃ u, exec (.vpidCompute 900 0) (withGains 0 0x3F800000 0) = .next u ∧
    u.responses = (withGains 0 0x3F800000 0).responses ++ [⟨.ok, 800, 0x44480000⟩] ∧
    (withGains 0 0x3F800000 0).cfg.fpArith = .binary32 := ⟨_, rfl, by decide, rfl⟩

/-- VpidOutputStaysInRange, each way of clamping: sums at 800.0, above, below, and both infinities, none of them NaN. -/
theorem witness_vpidClamp :
    let sum (ki : F32) (e : Int) := b32Add 0 (pidIncrement .binary32 0 ki 0 e 0 0)
    (|b32Units (sum 0x3F800000 800)| = 800 * 2 ^ 149 ∧ b32IsFinite (sum 0x3F800000 800) = true) ∧
    (800 * 2 ^ 149 < b32Units (sum 0x3F800000 801) ∧ b32IsNaN (sum 0x3F800000 801) = false) ∧
    (b32Units (sum 0x3F800000 (-801)) < -(800 * 2 ^ 149) ∧ b32IsFinite (sum 0x3F800000 (-801)) = true) ∧
    sum 0x7F800000 1 = 0x7F800000#32 ∧ sum 0xFF800000 1 = 0xFF800000#32 := by decide

/-- ComputeFromZeroHistory (V-2). -/
theorem witness_zeroHistory : (withGains 0x3F800000 0x3F000000 0x3E800000).e0 = 0 ∧
    (withGains 0x3F800000 0x3F000000 0x3E800000).e1 = 0 ∧ (withGains 0x3F800000 0x3F000000 0x3E800000).acc = 0 ∧
    b32IsNaN (b32Add (b32Add (b32Mul 0x3F800000 (b32OfInt 100)) (b32Mul 0x3F000000 (b32OfInt 100)))
      (b32Mul 0x3E800000 (b32OfInt 100))) = false := ⟨rfl, rfl, rfl, by decide⟩

/-- IncrementIgnoresTheAccumulator: two states that differ in the accumulator and elsewhere, both computing. -/
theorem witness_increment : ∃ u v, exec (.vpidCompute 0 1) (withGains 0 0x3F800000 0) = .next u ∧
    exec (.vpidCompute 0 1) { withGains 0 0x3F800000 0 with acc := 0x3F800000, e2 := 9 } = .next v ∧
    u.responses = [⟨.ok, 0xFFFFFFFF, 0xBF800000⟩] ∧ v.responses = [⟨.ok, 0, 0⟩] := ⟨_, _, rfl, rfl, by decide, by decide⟩

/-- ResetComputeRaceHasBothOrders: the compute after the reset can succeed, at the greatest error. -/
theorem witness_race : ∃ u v, exec .vpidReset (withGains 0 0 0) = .next u ∧
    exec (.vpidCompute 0x7FFF 0x8000) u = .next v ∧ v.responses = u.responses ++ [⟨.ok, 0, 0⟩] := ⟨_, _, rfl, rfl, by decide⟩

/-- PpidComputeScalesTheError: kp unset; the greatest error in range; the least out of range, under FAULT and WRAP; a NaN. -/
theorem witness_ppid_unset : State.reset.pkp = none := rfl
theorem witness_ppid_in : ¬ ((0x7FFFFFFF : Word).toInt - (0 : Word).toInt < -2 ^ 31 ∨
    (0x7FFFFFFF : Word).toInt - (0 : Word).toInt > 2 ^ 31 - 1) ∧
    b32IsNaN (b32Mul 0x3F800000 (b32OfInt 2147483647)) = false := by decide
theorem witness_ppid_out : ((0x7FFFFFFF : Word).toInt - (0xFFFFFFFF : Word).toInt > 2 ^ 31 - 1) ∧
    (faulting (withKp 0x3F800000)).cfg.int32Overflow = .fault ∧ (withKp 0x3F800000).cfg.int32Overflow ≠ .fault := by decide
theorem witness_ppid_nan : b32IsNaN (b32Mul 0x7F800000 (b32OfInt 0)) = true := by decide

/-- PpidOutputStaysInRange, at the clamp (PP-5). -/
theorem witness_ppidRange : ∃ u, exec (.ppidCompute 0xFFFFFC18 0) (withKp 0x3F000000) = .next u ∧
    u.responses = (withKp 0x3F000000).responses ++ [⟨.ok, 0xFFFFFFCE, 0⟩] := ⟨_, rfl, by decide⟩

/-- PpidOutputStaysInRange, each way of clamping: products at 50.0, above, below, and both infinities. -/
theorem witness_ppidClamp :
    |b32Units (b32Mul 0x3F800000 (b32OfInt 50))| = 50 * 2 ^ 149 ∧
    50 * 2 ^ 149 < b32Units (b32Mul 0x3F800000 (b32OfInt 51)) ∧
    b32Units (b32Mul 0x3F800000 (b32OfInt (-51))) < -(50 * 2 ^ 149) ∧
    b32Mul 0x7F800000 (b32OfInt 1) = 0x7F800000#32 ∧ b32Mul 0x7F800000 (b32OfInt (-1)) = 0xFF800000#32 ∧
    b32IsNaN 0x7F800000 = false ∧ b32IsNaN 0xFF800000 = false := by decide

/-- DoublingKpDoublesTheProduct: PP-9 and PP-10's gains and error, |2x| = 50 exactly, and a zero product. -/
theorem witness_doubling : b32Units 0x3F000000 = 2 * b32Units 0x3E800000 ∧
    2 ^ 172 ≤ b32Mag 0x3E800000 * b32Mag (b32OfInt 10) ∧ 2 * |b32Units (b32Mul 0x3E800000 (b32OfInt 10))| ≤ 50 * 2 ^ 149 ∧
    2 * |b32Units (b32Mul 0x3E800000 (b32OfInt 100))| = 50 * 2 ^ 149 ∧ b32Mag 0x3E800000 * b32Mag (b32OfInt 0) = 0 := by
  decide

/-- GateDirSelectsOneLine: the least and the greatest magnitude. -/
theorem witness_gateDir : ∀ c ∈ [(1 : Int), 1000], 0 < c ∧ c ≤ 1000 := by decide

/-- SmallCommandsStopTheMotor: the largest stopped commands of each mode. -/
theorem witness_small : |(29 : Word).toInt| < 30 ∧ |(0xFFFFFFE3 : Word).toInt| < 30 ∧ |(119 : Word).toInt| < 120 ∧
    |(0xFFFFFF89 : Word).toInt| < 120 := by decide

/-- DutySaturatesAndKeepsTheSign: shaped commands of both signs that are not zero. -/
theorem witness_duty : gateShape (30 : Word).toInt .vc ≠ 0 ∧ gateShape (0xFFFFFF88 : Word).toInt .pf ≠ 0 ∧
    (gateDir .bPositive (gateShape (0xFFFFFF88 : Word).toInt .pf)).duty ≠ 0 := by decide

/-- InstructionsWriteOnlyTheirOwnElements, with an instruction that writes none of what each clause speaks of. -/
theorem witness_frame : (∃ t, exec (.encUpdate .one 100) (seeded 0 0) = .next t) ∧
    (∃ t, exec (.gateApply .one .vc 500) State.reset = .next t) ∧
    (∀ raw, Instr.encUpdate .one 100 ≠ .encUpdate .two raw) ∧ (∀ md cmd, Instr.gateApply .one .vc 500 ≠ .gateApply .two md cmd) :=
  ⟨⟨_, rfl⟩, ⟨_, rfl⟩, fun _ h => (by cases h), fun _ _ h => (by cases h)⟩

/-- SettersAndClearsAreIdempotent: an instruction of each of the five shapes. -/
theorem witness_idempotent : Instr.vpidReset = .vpidReset ∧
    (∃ kp ki kd, Instr.vpidSetParams 0x3F800000 0x7FC00000 0 = .vpidSetParams kp ki kd) ∧
    (∃ kp ki kd, Instr.ppidSetParams 0x3F000000 1 2 = .ppidSetParams kp ki kd) ∧
    (∃ m md cmd, Instr.gateApply .two .pf 120 = .gateApply m md cmd) ∧
    (∃ a raw, Instr.encClear .one 0x8000 = .encClear a raw) :=
  ⟨rfl, ⟨_, _, _, rfl⟩, ⟨_, _, _, rfl⟩, ⟨_, _, _, rfl⟩, ⟨_, _, rfl⟩⟩

/-- UnitsDoNotInterfere: two sub-blocks, and two motors. -/
theorem witness_units : unitOf (.encUpdate .one 5) ≠ unitOf (.vpidCompute 1 2) ∧
    unitOf (.gateApply .one .vc 30) ≠ unitOf (.gateApply .two .pf 120) ∧ unitOf (.gateApply .one .vc 30) ≠ none ∧
    unitOf (.gateApply .two .pf 120) ≠ none := by decide

/-- SeedAndGainsLastUntilReset: seeded and set, and the two errors. -/
theorem witness_seed : ((seeded 0 0).last.get .one).isSome ∧ (withGains 1 2 3).vkd.isSome ∧ (withKp 1).pkp.isSome ∧
    (∃ t, step ((seeded 0 0).pushRequest 0x11000000_00000000_00000000_00000000#128) = .next t) ∧
    ∀ rest, ((seeded 0 0).pushRequest 0x11000000_00000000_00000000_00000000#128).inputs ≠ .reset :: rest :=
  ⟨rfl, rfl, rfl, ⟨_, rfl⟩, fun _ h => (by cases h)⟩
theorem witness_seed_errors : (∃ t, exec (.encUpdate .one 1) State.reset = .next t ∧
      t.responses = State.reset.responses ++ [⟨.error .unseeded, 0, 0⟩]) ∧
    (∃ t, exec (.vpidCompute 1 0) State.reset = .next t ∧
      t.responses = State.reset.responses ++ [⟨.error .gainsUnset, 0, 0⟩]) ∧
    (∃ t, exec (.ppidCompute 1 0) State.reset = .next t ∧
      t.responses = State.reset.responses ++ [⟨.error .gainsUnset, 0, 0⟩]) :=
  ⟨⟨_, rfl, rfl⟩, ⟨_, rfl, rfl⟩, ⟨_, rfl, rfl⟩⟩

/-- The state after P2's step 12, with a GATE_APPLY waiting. -/
def afterP2 : State := { withGains 0x3F800000 0x3F000000 0x3E800000 with
  pos := ⟨40, 0⟩, last := ⟨some 40, some 0⟩, e0 := 15, e1 := 15, acc := 0x41F00000, duty := ⟨30, 0⟩, dira := ⟨true, false⟩,
  inputs := [.request 0x30C00000_00000078_00000000_00000000#128] }

/-- EveryStepKeepsTheInvariant. -/
theorem witness_invariant : afterP2.Inv ∧ ∃ t, step afterP2 = .next t := by
  refine ⟨⟨⟨by decide, by decide⟩, ⟨by decide, by decide⟩, ⟨by decide, by decide⟩,
    fun _ => ⟨by decide, by decide, by decide⟩, fun m => ?_, fun m => ?_, fun m => ?_, fun a => ?_, by decide⟩, ⟨_, rfl⟩⟩
  · cases m <;> decide
  · cases m <;> decide
  · cases m <;> decide
  · cases a <;> decide

/-- AssembledOperandsCarryTheirNumbers: the ends of each range, and the first values out of it. -/
theorem witness_assembled : (assemble (.vpidCompute 32767 (-32768))).isSome ∧
    (assemble (.ppidCompute 2147483647 (-2147483648))).isSome ∧ (assemble (.gateApply .one .pf (-2147483648))).isSome ∧
    (assemble (.encClear .one 65535)).isSome ∧ (assemble (.encUpdate .one (-32768))).isSome ∧
    assemble (.vpidCompute 32768 0) = none ∧ assemble (.vpidCompute 0 (-32769)) = none ∧
    assemble (.encUpdate .one 65536) = none ∧ assemble (.encClear .two (-32769)) = none ∧
    assemble (.ppidCompute 2147483648 0) = none ∧ assemble (.ppidCompute 0 (-2147483649)) = none ∧
    assemble (.gateApply .two .vc 2147483648) = none := by decide

/-- AssembledOperandsCarryTheirNumbers, the decimal gains: -0.25, below the overflow bound, and 2^128, above it. -/
theorem witness_decimalGain : |(-25 : Int) * 2 ^ 149| < overflowBound * 10 ^ 2 ∧
    gainBits (.decimal true 25 2) = 0xBE800000#32 ∧ overflowBound * 10 ^ 0 ≤ |((2 ^ 128 : Nat) : Int) * 2 ^ 149| ∧
    gainBits (.decimal false (2 ^ 128) 0) = 0x7F800000#32 := by decide

/-- Binary32AddIsCorrectlyRounded: finite operands below the overflow bound, at a tie, and at the bound. -/
theorem witness_add : b32IsFinite 0x3F800000 = true ∧ b32IsFinite 0x33800000 = true ∧
    |b32Units 0x3F800000 + b32Units 0x33800000| < overflowBound ∧
    b32IsFinite 0x7F7FFFFF = true ∧ b32IsFinite 0x73000000 = true ∧
    overflowBound = |b32Units 0x7F7FFFFF + b32Units 0x73000000| := by decide

/-- Binary32AddIsCorrectlyRounded: exact zero sums of each sign, and infinite operands on either side whose sum is no NaN. -/
theorem witness_add_ends : b32Units 0x3F800000 + b32Units 0xBF800000 = 0 ∧ b32Units 0x80000000 + b32Units 0x80000000 = 0 ∧
    b32Add 0x80000000 0x00000000 = 0x00000000#32 ∧ b32Add 0x80000000 0x80000000 = 0x80000000#32 ∧
    b32IsInf 0x7F800000 = true ∧ b32IsNaN (b32Add 0x7F800000 0xBF800000) = false ∧
    b32IsInf 0xFF800000 = true ∧ b32IsNaN (b32Add 0x7F7FFFFF 0xFF800000) = false := by decide

/-- Binary32MulIsCorrectlyRounded: below the overflow bound, and above it. -/
theorem witness_mul : b32IsFinite 0x3F000000 = true ∧ b32IsFinite 0x7F7FFFFF = true ∧
    |b32Units 0x3F000000 * b32Units 0x7F7FFFFF| < overflowBound * 2 ^ 149 ∧
    overflowBound * 2 ^ 149 ≤ |b32Units 0x40000000 * b32Units 0x7F7FFFFF| := by decide

/-- Binary32MulIsCorrectlyRounded: an infinity times the least magnitude and times an infinity, neither of them NaN. -/
theorem witness_mul_inf : b32IsInf 0xFF800000 = true ∧ b32IsNaN (b32Mul 0xFF800000 0x00000001) = false ∧
    b32IsNaN (b32Mul 0x80000001 0x7F800000) = false ∧ b32IsNaN (b32Mul 0xFF800000 0xFF800000) = false := by decide

/-- VpidIntegersConvertExactly: a state that meets the invariant with the errors at which the last integer is the
greatest; and the ends of the other ranges, with the tie 2^24 + 1, which goes to the even 2^24. -/
theorem witness_integers : ({ afterP2 with e0 := 0xFFFF0001, e1 := 0x0000FFFF } : State).Inv ∧
    (0x7FFF#16).toInt - (0x8000#16).toInt - 2 * (0xFFFF0001#32).toInt + (0x0000FFFF#32).toInt = 262140 :=
  ⟨{ witness_invariant.1 with e0_range := ⟨by decide, by decide⟩, e1_range := ⟨by decide, by decide⟩ }, by decide⟩
theorem witness_integers_rounded : |(16777215 : Int)| < 2 ^ 24 ∧ b32OfInt 16777217 = 0x4B800000#32 ∧
    b32OfInt 2147483647 = 0x4F000000#32 ∧ b32OfInt (-2147483648) = 0xCF000000#32 := by decide

/-- ComparisonsAndClampFollowTheOrder: finite values, and the infinities around them. -/
theorem witness_order : isBelow 0xBF800000#32 0x3F800000#32 ∧ isBelow 0x7F7FFFFF#32 0x7F800000#32 ∧
    isBelow 0xFF800000#32 0xFF7FFFFF#32 ∧ isBelow 0xFF800000#32 0x7F800000#32 := by
  unfold isBelow
  decide

/-- The same: the two zeros are equal, and a NaN is below nothing and nothing below it. -/
theorem witness_order_not : ¬ isBelow 0x80000000#32 0x00000000#32 ∧ ¬ isBelow 0x7FC00000#32 0x7F800000#32 ∧
    ¬ isBelow 0xFF800000#32 0x7FC00000#32 := by
  unfold isBelow
  decide

/-- The same, the three cases of a clamp to [-800.0, 800.0]: next above, next below, and at the bound. -/
theorem witness_order_clamp : isBelow 0x44480000#32 0x44480001#32 ∧ isBelow 0xC4480001#32 0xC4480000#32 ∧
    ¬ isBelow 0x44480000#32 0x44480000#32 ∧ ¬ isBelow 0x44480000#32 0xC4480000#32 := by
  unfold isBelow
  decide

/-- NaNOnlyFromInvalidOperations: a NaN of each kind. -/
theorem witness_nan : b32IsNaN 0x7FC00000 = true ∧ b32IsNaN 0x7F800001 = true ∧ b32IsNaN 0xFFFFFFFF = true ∧
    b32IsNaN 0x7F800000 = false := by decide

end Sys2Proof.Tests
end

section
/-! PROOFS. What a step does with the first event, for requests as whole frames and as bytes (R5, R41, R44, R182). -/

namespace Sys2Proof.Machine

theorem step_bytes {s : State} {bs : List Byte} {f : Frame} {rest : List Input}
    (hf : frameOfBytes s.cfg.frameByteOrder bs = some f) (h : s.inputs = .bytes bs :: rest) :
    step s = serveFrame f (s.withInputs rest) := by
  rw [step_cons h]
  simp only [serveInput, State.withInputs_cfg, hf]

theorem serveFrame_of_decode {f : Frame} {i : Instr} (h : decode f = .ok i) (s : State) :
    serveFrame f s = exec i s := by
  simp only [serveFrame, h]

/-- Serving a frame gives one response, after those before it, and leaves the waiting events and the parameters. -/
theorem serveFrame_responds (f : Frame) (s : State) :
    ∃ t r, serveFrame f s = .next t ∧ t.responses = s.responses ++ [r] ∧ t.inputs = s.inputs ∧ t.cfg = s.cfg := by
  rcases serveFrame_next f s with ⟨e, hs⟩ | ⟨i, u, r0, r1, -, hw, hs⟩
  · exact ⟨_, _, hs, rfl, rfl, rfl⟩
  · obtain ⟨hcfg, -, hin, hres⟩ := hw.keeps
    exact ⟨_, ⟨.ok, r0, r1⟩, hs, congrArg (· ++ _) hres, hin, hcfg⟩

theorem step_next (s : State) : ∃ t, step s = .next t := by
  cases h : s.inputs with
  | nil => exact ⟨s, step_nil h⟩
  | cons i rest =>
    obtain ⟨t, ht, -⟩ := serveInput_withInputs i (s.withInputs rest) []
    exact ⟨t, (step_cons h).trans ht⟩

/-- Settles O7: a frame that arrives as bytes is served as the whole frame is. -/
theorem stepRunsTheDecodedInstruction : Obligations.StepRunsTheDecodedInstruction := by
  intro s f i rest hd
  constructor
  · intro h
    exact (step_request h).trans (serveFrame_of_decode hd _)
  · intro bs hf h
    exact (step_bytes hf h).trans (serveFrame_of_decode hd _)

/-- Settles O15: an idle block stays as it is, and serving any event answers a next state. -/
theorem theBlockNeverHalts : Obligations.TheBlockNeverHalts := step_next

/-- Settles O14: both kinds of request come down to `serveFrame_responds`. -/
theorem everyRequestIsAnsweredOnce : Obligations.EveryRequestIsAnsweredOnce := by
  intro s rest
  refine ⟨fun f h => ?_, fun bs hlen h => ?_, fun h => ?_⟩
  · rw [step_request h]
    exact serveFrame_responds f (s.withInputs rest)
  · obtain ⟨f, hbytes, hf⟩ := exists_frame_of_bytes s.cfg.frameByteOrder hlen
    have hs := step_bytes hf h
    have hwhole : step { s with inputs := .request f :: rest } = serveFrame f (s.withInputs rest) := step_request rfl
    refine ⟨f, hbytes, hf, hs.trans hwhole.symm, ?_⟩
    rw [hs]
    exact serveFrame_responds f (s.withInputs rest)
  · exact ⟨_, step_reset h, rfl, rfl, rfl⟩

end Sys2Proof.Machine
end

section
/-! PROOFS. The elements of R20 unit by unit, what an operation reads and writes of them, and that operations of different
units commute (R2, R43, R48). -/

namespace Sys2Proof.Machine

/-- The elements of R20 that belong to one unit, as one value. -/
inductive Elements where
  | enc (pos : BitVec 32) (last : Option (BitVec 16))
  | vpid (e0 e1 e2 : BitVec 32) (acc : F32) (vkp vki vkd : Option F32)
  | ppid (pkp : Option F32)
  | gate (duty : BitVec 16) (dira dirb : Bool)

/-- The elements of a unit in a state. -/
def State.elements (s : State) : BlockUnit → Elements
  | .enc a => .enc (s.pos.get a) (s.last.get a)
  | .vpid => .vpid s.e0 s.e1 s.e2 s.acc s.vkp s.vki s.vkd
  | .ppid => .ppid s.pkp
  | .gate m => .gate (s.duty.get m) (s.dira.get m) (s.dirb.get m)

section ElementsLemmas
variable {s t : State}

theorem State.elements_enc_iff {a : Axis} : t.elements (.enc a) = s.elements (.enc a) ↔
    t.pos.get a = s.pos.get a ∧ t.last.get a = s.last.get a := by
  simp only [State.elements, Elements.enc.injEq]

theorem State.elements_vpid_iff : t.elements .vpid = s.elements .vpid ↔
    t.e0 = s.e0 ∧ t.e1 = s.e1 ∧ t.e2 = s.e2 ∧ t.acc = s.acc ∧ t.vkp = s.vkp ∧ t.vki = s.vki ∧ t.vkd = s.vkd := by
  simp only [State.elements, Elements.vpid.injEq]

theorem State.elements_ppid_iff : t.elements .ppid = s.elements .ppid ↔ t.pkp = s.pkp := by
  simp only [State.elements, Elements.ppid.injEq]

theorem State.elements_gate_iff {m : Motor} : t.elements (.gate m) = s.elements (.gate m) ↔
    t.duty.get m = s.duty.get m ∧ t.dira.get m = s.dira.get m ∧ t.dirb.get m = s.dirb.get m := by
  simp only [State.elements, Elements.gate.injEq]

@[simp] theorem State.elements_raise (e : ErrorCode) (q : BlockUnit) : (s.raise e).elements q = s.elements q := by
  cases q <;> rfl

@[simp] theorem State.elements_respondOk (r0 r1 : Word) (q : BlockUnit) :
    (s.respondOk r0 r1).elements q = s.elements q := by
  cases q <;> rfl

/-- The elements of the units are all there is in the block but for FAULT. -/
theorem State.eq_of_elements (he : ∀ q, t.elements q = s.elements q) (hcfg : t.cfg = s.cfg) (hf : t.fault = s.fault)
    (hin : t.inputs = s.inputs) (hres : t.responses = s.responses) : t = s := by
  obtain ⟨h0, h1, h2, hacc, hp, hi, hd⟩ := State.elements_vpid_iff.1 (he .vpid)
  have hkp := State.elements_ppid_iff.1 (he .ppid)
  have hpos : t.pos = s.pos := Two.ext_get fun a => (State.elements_enc_iff.1 (he (.enc a))).1
  have hlast : t.last = s.last := Two.ext_get fun a => (State.elements_enc_iff.1 (he (.enc a))).2
  have hduty : t.duty = s.duty := Two.ext_get fun m => (State.elements_gate_iff.1 (he (.gate m))).1
  have hdira : t.dira = s.dira := Two.ext_get fun m => (State.elements_gate_iff.1 (he (.gate m))).2.1
  have hdirb : t.dirb = s.dirb := Two.ext_get fun m => (State.elements_gate_iff.1 (he (.gate m))).2.2
  cases t; cases s
  simp only at *
  subst_vars
  rfl

/-! Each write changes the elements of its own unit only. -/

theorem State.elements_writeEnc_of_ne {a : Axis} {p : BitVec 32} {l : Option (BitVec 16)} {q : BlockUnit}
    (h : q ≠ .enc a) : (s.writeEnc a p l).elements q = s.elements q := by
  cases q with
  | enc b =>
    have hb : b ≠ a := fun hba => h (hba ▸ rfl)
    simp [State.elements, hb]
  | vpid | ppid | gate => rfl

theorem State.elements_writeVpid_of_ne {x0 x1 x2 : BitVec 32} {c : F32} {q : BlockUnit} (h : q ≠ .vpid) :
    (s.writeVpid x0 x1 x2 c).elements q = s.elements q := by
  cases q with
  | vpid => exact absurd rfl h
  | enc | ppid | gate => rfl

theorem State.elements_writeGains_of_ne {kp ki kd : F32} {q : BlockUnit} (h : q ≠ .vpid) :
    (s.writeGains kp ki kd).elements q = s.elements q := by
  cases q with
  | vpid => exact absurd rfl h
  | enc | ppid | gate => rfl

theorem State.elements_writePkp_of_ne {kp : F32} {q : BlockUnit} (h : q ≠ .ppid) :
    (s.writePkp kp).elements q = s.elements q := by
  cases q with
  | ppid => exact absurd rfl h
  | enc | vpid | gate => rfl

theorem State.elements_writeGate_of_ne {m : Motor} {d : BitVec 16} {da db : Bool} {q : BlockUnit} (h : q ≠ .gate m) :
    (s.writeGate m d da db).elements q = s.elements q := by
  cases q with
  | gate k =>
    have hk : k ≠ m := fun hkm => h (hkm ▸ rfl)
    simp [State.elements, hk]
  | enc | vpid | ppid => rfl

theorem Writes.elements_of_ne {i : Instr} {u : State} (h : Writes s i u) {q : BlockUnit} (hq : unitOf i ≠ some q) :
    u.elements q = s.elements q := by
  have hne {p : BlockUnit} (hp : unitOf i = some p) : q ≠ p := fun hqp => hq (hqp ▸ hp)
  cases h with
  | nop | encRead | ppidCompute | statusRead => rfl
  | encClear | encUpdate => exact State.elements_writeEnc_of_ne (hne rfl)
  | vpidCompute | vpidReset => exact State.elements_writeVpid_of_ne (hne rfl)
  | vpidSetParams => exact State.elements_writeGains_of_ne (hne rfl)
  | ppidSetParams => exact State.elements_writePkp_of_ne (hne rfl)
  | gateApply => exact State.elements_writeGate_of_ne (hne rfl)

/-- The frame of an instruction: the parameters, the waiting events, and the elements of every other unit. -/
theorem exec_frame {i : Instr} (h : exec i s = .next t) :
    t.cfg = s.cfg ∧ t.inputs = s.inputs ∧ ∀ q, unitOf i ≠ some q → t.elements q = s.elements q := by
  rcases exec_inv h with ⟨e, -, rfl⟩ | ⟨u, r0, r1, hw, rfl⟩
  · exact ⟨rfl, rfl, fun q _ => State.elements_raise e q⟩
  · obtain ⟨hcfg, -, hin, -⟩ := hw.keeps
    exact ⟨hcfg, hin, fun q hq => (State.elements_respondOk r0 r1 q).trans (hw.elements_of_ne hq)⟩

end ElementsLemmas

/-- The FAULT bits a status sets (R151). -/
def Status.faultMask : Status → BitVec 5
  | .ok => 0
  | .error e => e.faultMask

/-- `t` is `s` with one more response, whose status is recorded in FAULT. -/
structure Answers (r : Response) (s t : State) : Prop where
  responses : t.responses = s.responses ++ [r]
  fault : t.fault = s.fault ||| r.status.faultMask

/-- Two results, one from `s` and one from `s'`, that give the same response and leave the same elements in a unit. -/
def SameAnswer (p : BlockUnit) (s s' : State) (x x' : Result) : Prop :=
  ∃ t t' r, x = .next t ∧ x' = .next t' ∧ Answers r s t ∧ Answers r s' t' ∧ t'.elements p = t.elements p

section Locality
variable {p : BlockUnit} {s s' : State}

theorem SameAnswer.raise (e : ErrorCode) (h : s'.elements p = s.elements p) :
    SameAnswer p s s' (.next (s.raise e)) (.next (s'.raise e)) :=
  ⟨_, _, ⟨.error e, 0, 0⟩, rfl, rfl, ⟨rfl, rfl⟩, ⟨rfl, rfl⟩, by simpa using h⟩

theorem SameAnswer.respondOk {u u' : State} (r0 r1 : Word) (hu : u.fault = s.fault ∧ u.responses = s.responses)
    (hu' : u'.fault = s'.fault ∧ u'.responses = s'.responses) (h : u'.elements p = u.elements p) :
    SameAnswer p s s' (.next (u.respondOk r0 r1)) (.next (u'.respondOk r0 r1)) := by
  have answers {a b : State} (hb : b.fault = a.fault ∧ b.responses = a.responses) :
      Answers ⟨.ok, r0, r1⟩ a (b.respondOk r0 r1) :=
    ⟨congrArg (· ++ _) hb.2, hb.1.trans BitVec.or_zero.symm⟩
  exact ⟨_, _, ⟨.ok, r0, r1⟩, rfl, rfl, answers hu, answers hu', by simpa using h⟩

/-- An operation reads its own unit and the parameters only: where these agree, so do its response and what it leaves in
the unit. -/
theorem exec_sameAnswer {i : Instr} (hi : unitOf i = some p) (he : s'.elements p = s.elements p)
    (hcfg : s'.cfg = s.cfg) : SameAnswer p s s' (exec i s) (exec i s') := by
  cases i with
  | nop | statusRead => cases hi
  | encClear a raw =>
    obtain rfl := Option.some.inj hi
    exact .respondOk _ _ ⟨rfl, rfl⟩ ⟨rfl, rfl⟩ (State.elements_enc_iff.2 (by simp))
  | encUpdate a raw =>
    obtain rfl := Option.some.inj hi
    obtain ⟨hpos, hlast⟩ := State.elements_enc_iff.1 he
    simp only [exec, execEncUpdate, hpos, hlast, hcfg]
    split
    · exact .raise _ he
    · split
      · exact .raise _ he
      · exact .respondOk _ _ ⟨rfl, rfl⟩ ⟨rfl, rfl⟩ (State.elements_enc_iff.2 (by simp))
  | encRead a =>
    obtain rfl := Option.some.inj hi
    obtain ⟨hpos, hlast⟩ := State.elements_enc_iff.1 he
    simp only [exec, execEncRead, hpos, hlast]
    exact .respondOk _ _ ⟨rfl, rfl⟩ ⟨rfl, rfl⟩ he
  | vpidCompute t y =>
    obtain rfl := Option.some.inj hi
    obtain ⟨h0, h1, h2, hacc, hkp, hki, hkd⟩ := State.elements_vpid_iff.1 he
    simp only [exec, execVpidCompute, h0, h1, hacc, hkp, hki, hkd, hcfg]
    split
    · split
      · exact .raise _ he
      · exact .respondOk _ _ ⟨rfl, rfl⟩ ⟨rfl, rfl⟩ (State.elements_vpid_iff.2 ⟨rfl, rfl, rfl, rfl, hkp, hki, hkd⟩)
    · exact .raise _ he
  | vpidReset =>
    obtain rfl := Option.some.inj hi
    obtain ⟨-, -, -, -, hkp, hki, hkd⟩ := State.elements_vpid_iff.1 he
    exact .respondOk _ _ ⟨rfl, rfl⟩ ⟨rfl, rfl⟩ (State.elements_vpid_iff.2 ⟨rfl, rfl, rfl, rfl, hkp, hki, hkd⟩)
  | vpidSetParams kp ki kd =>
    obtain rfl := Option.some.inj hi
    obtain ⟨h0, h1, h2, hacc, -⟩ := State.elements_vpid_iff.1 he
    simp only [exec, execVpidSetParams, hcfg]
    exact .respondOk _ _ ⟨rfl, rfl⟩ ⟨rfl, rfl⟩ (State.elements_vpid_iff.2 ⟨h0, h1, h2, hacc, rfl, rfl, rfl⟩)
  | ppidCompute t y =>
    obtain rfl := Option.some.inj hi
    have hkp := State.elements_ppid_iff.1 he
    simp only [exec, execPpidCompute, hkp, hcfg]
    split
    · exact .raise _ he
    · split
      · exact .raise _ he
      · split
        · exact .raise _ he
        · exact .respondOk _ _ ⟨rfl, rfl⟩ ⟨rfl, rfl⟩ he
  | ppidSetParams kp ki kd =>
    obtain rfl := Option.some.inj hi
    simp only [exec, execPpidSetParams, hcfg]
    exact .respondOk _ _ ⟨rfl, rfl⟩ ⟨rfl, rfl⟩ (State.elements_ppid_iff.2 rfl)
  | gateApply m md cmd =>
    obtain rfl := Option.some.inj hi
    simp only [exec, execGateApply, hcfg]
    exact .respondOk _ _ ⟨rfl, rfl⟩ ⟨rfl, rfl⟩ (State.elements_gate_iff.2 (by simp))

end Locality

/-- An operation finds its own unit as it was when an operation of another unit came first. -/
theorem exec_sameAnswer_after {i j : Instr} {p : BlockUnit} {s v : State} (hi : unitOf i = some p)
    (hj : unitOf j ≠ some p) (hv : exec j s = .next v) : SameAnswer p s v (exec i s) (exec i v) := by
  obtain ⟨hcfg, -, hframe⟩ := exec_frame hv
  exact exec_sameAnswer hi (hframe p hj) hcfg

/-- Settles O48: each operation finds its own unit as it was, whichever comes first, and leaves the other's alone. -/
theorem unitsDoNotInterfere : Obligations.UnitsDoNotInterfere := by
  intro i j s hi hj hij
  obtain ⟨p, hp⟩ := Option.ne_none_iff_exists'.1 hi
  obtain ⟨q, hq⟩ := Option.ne_none_iff_exists'.1 hj
  have hiq : unitOf i ≠ some q := fun h => hij (h.trans hq.symm)
  have hjp : unitOf j ≠ some p := fun h => hij (hp.trans h.symm)
  obtain ⟨v, hv, -⟩ := exec_withInputs j s []
  obtain ⟨t, w, ri, ht, hw, rst, rvw, hwt⟩ := exec_sameAnswer_after hp hjp hv
  obtain ⟨v', u, rj, hv', hu, rsv, rtu, huv⟩ := exec_sameAnswer_after hq hiq ht
  obtain rfl : v = v' := Host.Outcome.next.inj (hv.symm.trans hv')
  obtain ⟨tcfg, tin, tframe⟩ := exec_frame ht
  obtain ⟨vcfg, vin, vframe⟩ := exec_frame hv
  obtain ⟨ucfg, uin, uframe⟩ := exec_frame hu
  obtain ⟨wcfg, win, wframe⟩ := exec_frame hw
  have hel (k : BlockUnit) : w.elements k = u.elements k := by
    by_cases hkp : k = p
    · rw [hkp, hwt, uframe p hjp]
    by_cases hkq : k = q
    · rw [hkq, huv, wframe q hiq]
    have hik : unitOf i ≠ some k := fun h => hkp (Option.some.inj (h.symm.trans hp))
    have hjk : unitOf j ≠ some k := fun h => hkq (Option.some.inj (h.symm.trans hq))
    rw [wframe k hik, vframe k hjk, uframe k hjk, tframe k hik]
  have hfault : w.fault = u.fault := by
    rw [rvw.fault, rsv.fault, rtu.fault, rst.fault, BitVec.or_assoc, BitVec.or_comm (rj.status.faultMask), BitVec.or_assoc]
  refine ⟨t, u, v, w, ri, rj, ht, hu, hv, hw, ?_, ?_, ?_⟩
  · simp [rtu.responses, rst.responses]
  · simp [rvw.responses, rsv.responses]
  · refine State.eq_of_elements (fun k => (hel k).trans ?_) (wcfg.trans ?_) hfault (win.trans ?_) rfl
    · cases k <;> rfl
    · exact vcfg.trans (ucfg.trans tcfg).symm
    · exact vin.trans (uin.trans tin).symm

end Sys2Proof.Machine
end

section
/-! PROOFS. Binary32 arithmetic (R11): which operations give NaN, the order of the values, correct rounding. -/

open Sys2Proof.Claims

namespace Sys2Proof.Machine

/-! The cases of the binary32 sum and product in which an operand is not finite. -/

theorem b32IsNaN_quietNaN : b32IsNaN b32QuietNaN = true := by decide

theorem b32IsNaN_of_inf {x : F32} (h : b32IsInf x = true) : b32IsNaN x = false := by
  have := (b32IsInf_iff x).1 h
  rw [Bool.eq_false_iff, ne_eq, b32IsNaN_iff]
  omega

theorem b32IsFinite_of_not_nan_of_not_inf {x : F32} (hn : b32IsNaN x = false) (hi : b32IsInf x = false) :
    b32IsFinite x = true := by
  rw [Bool.eq_false_iff, ne_eq, b32IsNaN_iff] at hn
  rw [Bool.eq_false_iff, ne_eq, b32IsInf_iff] at hi
  rw [b32IsFinite_iff]
  omega

/-- An infinity is the signed pattern of its sign. -/
theorem b32Signed_infBits_of_inf {x : F32} (h : b32IsInf x = true) : b32Signed (b32Sign x) b32InfBits = x := by
  rw [← (b32IsInf_iff x).1 h, b32Signed_self]

theorem b32Signed_infBits (neg : Bool) : b32Signed neg b32InfBits = if neg then 0xFF800000#32 else 0x7F800000#32 := by
  cases neg <;> decide

theorem b32Mag_eq_zero_iff (x : F32) : b32Mag x = 0 ↔ b32Units x = 0 := by
  rw [← natAbs_b32Units, Int.natAbs_eq_zero]

theorem b32Mag_ne_zero_of_inf {x : F32} (h : b32IsInf x = true) : b32Mag x ≠ 0 := by
  rw [b32Mag_eq, (b32IsInf_iff x).1 h, magOf_infBits]
  positivity

theorem b32Add_of_nan {x y : F32} (h : b32IsNaN x = true ∨ b32IsNaN y = true) : b32Add x y = b32QuietNaN := by
  rw [b32Add, if_pos (by simpa using h)]

theorem b32Add_inf_left {x y : F32} (hx : b32IsInf x = true) (hy : b32IsNaN y = false) :
    b32Add x y = if b32IsInf y = true ∧ b32Sign x ≠ b32Sign y then b32QuietNaN else x := by
  simp [b32Add, b32IsNaN_of_inf hx, hx, hy]

theorem b32Add_inf_right {x y : F32} (hx : b32IsFinite x = true) (hy : b32IsInf y = true) : b32Add x y = y := by
  simp [b32Add, b32IsNaN_of_finite hx, b32IsInf_of_finite hx, b32IsNaN_of_inf hy, hy]

/-- The sum of two finite values is a rounded value, or a zero. -/
theorem b32IsNaN_b32Add_finite {x y : F32} (hx : b32IsFinite x = true) (hy : b32IsFinite y = true) :
    b32IsNaN (b32Add x y) = false := by
  by_cases hv : b32Units x + b32Units y = 0
  · rw [b32Add_cancel hx hy hv]
    cases b32Sign x && b32Sign y <;> decide
  · rw [b32Add_finite hx hy hv]
    exact b32IsNaN_b32Round _ _ _

theorem b32IsNaN_b32Add_iff (x y : F32) : b32IsNaN (b32Add x y) = true ↔
    b32IsNaN x = true ∨ b32IsNaN y = true ∨ (b32IsInf x = true ∧ b32IsInf y = true ∧ b32Sign x ≠ b32Sign y) := by
  by_cases hn : b32IsNaN x = true ∨ b32IsNaN y = true
  · rw [b32Add_of_nan hn]
    simpa only [b32IsNaN_quietNaN, true_iff, ← or_assoc] using Or.inl hn
  simp only [not_or, Bool.not_eq_true] at hn
  obtain ⟨hx, hy⟩ := hn
  by_cases hix : b32IsInf x = true
  · rw [b32Add_inf_left hix hy]
    split
    · next h => simp [b32IsNaN_quietNaN, hix, h]
    · next h => simpa [hx, hy, hix] using h
  have hfx := b32IsFinite_of_not_nan_of_not_inf hx (by simpa using hix)
  have hadd : b32IsNaN (b32Add x y) = false := by
    by_cases hiy : b32IsInf y = true
    · rw [b32Add_inf_right hfx hiy, hy]
    · exact b32IsNaN_b32Add_finite hfx (b32IsFinite_of_not_nan_of_not_inf hy (by simpa using hiy))
  simp [hadd, hx, hy, hix]

/-- An infinity is determined by its sign. -/
theorem eq_of_inf_of_sign_eq {x y : F32} (hx : b32IsInf x = true) (hy : b32IsInf y = true)
    (h : b32Sign x = b32Sign y) : x = y := by
  rw [← b32Signed_infBits_of_inf hx, h, b32Signed_infBits_of_inf hy]

theorem b32Add_eq_left_of_inf {x y : F32} (hx : b32IsInf x = true) (hn : b32IsNaN (b32Add x y) = false) :
    b32Add x y = x := by
  have h := (b32IsNaN_b32Add_iff x y).not.1 (by simpa using hn)
  rw [not_or, not_or] at h
  obtain ⟨-, hy, hopp⟩ := h
  rw [b32Add_inf_left hx (by simpa using hy), if_neg fun hs => hopp ⟨hx, hs⟩]

theorem b32Add_eq_right_of_inf {x y : F32} (hy : b32IsInf y = true) (hn : b32IsNaN (b32Add x y) = false) :
    b32Add x y = y := by
  have h := (b32IsNaN_b32Add_iff x y).not.1 (by simpa using hn)
  rw [not_or, not_or] at h
  obtain ⟨hx, -, hopp⟩ := h
  by_cases hix : b32IsInf x = true
  · rw [b32Add_eq_left_of_inf hix hn]
    exact eq_of_inf_of_sign_eq hix hy (by simpa [hix, hy] using hopp)
  · exact b32Add_inf_right (b32IsFinite_of_not_nan_of_not_inf (by simpa using hx) (by simpa using hix)) hy

theorem b32Mul_of_nan {x y : F32} (h : b32IsNaN x = true ∨ b32IsNaN y = true) : b32Mul x y = b32QuietNaN := by
  rw [b32Mul, if_pos (by simpa using h)]

theorem b32Mul_inf {x y : F32} (hx : b32IsNaN x = false) (hy : b32IsNaN y = false)
    (h : b32IsInf x = true ∨ b32IsInf y = true) :
    b32Mul x y = if b32Units x = 0 ∨ b32Units y = 0 then b32QuietNaN
      else b32Signed (b32Sign x != b32Sign y) b32InfBits := by
  simp [b32Mul, hx, hy, h, b32Mag_eq_zero_iff]

/-- A product with an infinite operand that is no NaN is the infinity of the product's sign. -/
theorem b32Mul_inf_of_not_nan {x y : F32} (h : b32IsInf x = true ∨ b32IsInf y = true)
    (hn : b32IsNaN (b32Mul x y) = false) : b32Mul x y = b32Signed (b32Sign x != b32Sign y) b32InfBits := by
  have hquiet : b32Mul x y ≠ b32QuietNaN := by
    intro he
    rw [he, b32IsNaN_quietNaN] at hn
    cases hn
  have hxy : ¬ (b32IsNaN x = true ∨ b32IsNaN y = true) := fun h' => hquiet (b32Mul_of_nan h')
  simp only [not_or, Bool.not_eq_true] at hxy
  rw [b32Mul_inf hxy.1 hxy.2 h] at hquiet ⊢
  exact if_neg fun h0 => hquiet (if_pos h0)

theorem b32IsNaN_b32Mul_iff (x y : F32) : b32IsNaN (b32Mul x y) = true ↔
    b32IsNaN x = true ∨ b32IsNaN y = true ∨ (b32IsInf x = true ∧ b32Units y = 0) ∨
      (b32Units x = 0 ∧ b32IsInf y = true) := by
  by_cases hn : b32IsNaN x = true ∨ b32IsNaN y = true
  · rw [b32Mul_of_nan hn]
    simpa only [b32IsNaN_quietNaN, true_iff, ← or_assoc] using Or.inl (Or.inl hn)
  simp only [not_or, Bool.not_eq_true] at hn
  obtain ⟨hx, hy⟩ := hn
  have hinf (z : F32) (hz : b32IsInf z = true) : b32Units z ≠ 0 := fun h0 =>
    b32Mag_ne_zero_of_inf hz ((b32Mag_eq_zero_iff z).2 h0)
  have hsigned : b32IsNaN (b32Signed (b32Sign x != b32Sign y) b32InfBits) = false := by
    cases b32Sign x != b32Sign y <;> decide
  by_cases hi : b32IsInf x = true ∨ b32IsInf y = true
  · rw [b32Mul_inf hx hy hi]
    by_cases h0 : b32Units x = 0 ∨ b32Units y = 0
    · rw [if_pos h0]
      rcases hi with hi | hi
      · simp [b32IsNaN_quietNaN, hi, h0.resolve_left (hinf x hi)]
      · simp [b32IsNaN_quietNaN, hi, h0.resolve_right (hinf y hi)]
    · rw [if_neg h0, hsigned]
      rw [not_or] at h0
      simp [hx, hy, h0]
  · simp only [not_or, Bool.not_eq_true] at hi
    rw [b32Mul_finite (b32IsFinite_of_not_nan_of_not_inf hx hi.1) (b32IsFinite_of_not_nan_of_not_inf hy hi.2),
      b32IsNaN_b32Round]
    simp [hx, hy, hi]

/-! The order of the values. -/

theorem isBelow_iff_units (x y : F32) :
    isBelow x y ↔ b32IsNaN x = false ∧ b32IsNaN y = false ∧ b32Units x < b32Units y := by
  have hpos : b32IsNaN 0x7F800000#32 = false := by decide
  have hneg : b32IsNaN 0xFF800000#32 = false := by decide
  have hends : b32Units 0xFF800000#32 < b32Units 0x7F800000#32 := by decide
  constructor
  · rintro (⟨hx, hy, hlt⟩ | ⟨rfl, hy | rfl⟩ | ⟨hx, rfl⟩)
    · exact ⟨b32IsNaN_of_finite hx, b32IsNaN_of_finite hy, hlt⟩
    · exact ⟨hneg, b32IsNaN_of_finite hy, (b32Units_finite_lt hy).1⟩
    · exact ⟨hneg, hpos, hends⟩
    · exact ⟨b32IsNaN_of_finite hx, hpos, (b32Units_finite_lt hx).2⟩
  · rintro ⟨hx, hy, hlt⟩
    rcases b32_kinds x with fx | rfl | rfl | nx
    · rcases b32_kinds y with fy | rfl | rfl | ny
      · exact .inl ⟨fx, fy, hlt⟩
      · exact .inr (.inr ⟨fx, rfl⟩)
      · exact absurd hlt (b32Units_finite_lt fx).1.asymm
      · simp [hy] at ny
    · rcases b32_kinds y with fy | rfl | rfl | ny
      · exact absurd hlt (b32Units_finite_lt fy).2.asymm
      · exact absurd hlt (lt_irrefl _)
      · exact absurd hlt hends.asymm
      · simp [hy] at ny
    · rcases b32_kinds y with fy | rfl | rfl | ny
      · exact .inr (.inl ⟨rfl, .inl fy⟩)
      · exact .inr (.inl ⟨rfl, .inr rfl⟩)
      · exact absurd hlt (lt_irrefl _)
      · simp [hy] at ny
    · simp [hx] at nx

theorem b32Lt_iff_isBelow (x y : F32) : b32Lt x y = true ↔ isBelow x y := by
  simp [b32Lt, isBelow_iff_units, and_assoc]

theorem b32Gt_eq_b32Lt (x y : F32) : b32Gt x y = b32Lt y x := by
  simp only [b32Gt, b32Lt, gt_iff_lt, Bool.and_comm (!b32IsNaN x)]

theorem b32Gt_iff_isBelow (x y : F32) : b32Gt x y = true ↔ isBelow y x := by
  rw [b32Gt_eq_b32Lt, b32Lt_iff_isBelow]

/-- Settles O57: a NaN comes from the cases of the definitions that give the quiet NaN, as finite results are rounded. -/
theorem naNOnlyFromInvalidOperations : Obligations.NaNOnlyFromInvalidOperations := by
  have hcmp (x y : F32) (h : b32IsNaN x = true ∨ b32IsNaN y = true) : b32Gt x y = false ∧ b32Lt x y = false := by
    rcases h with h | h <;> simp [b32Gt, b32Lt, h]
  refine ⟨hcmp, fun x lo hi h => ?_, b32IsNaN_b32Add_iff, b32IsNaN_b32Mul_iff⟩
  simp [clampF, b32ClampF, (hcmp x hi (.inl h)).1, (hcmp x lo (.inl h)).2]

/-- Settles O58: `b32Lt` is `isBelow`, as `b32Units` reads an infinity beyond every finite value. -/
theorem comparisonsAndClampFollowTheOrder : Obligations.ComparisonsAndClampFollowTheOrder := by
  refine ⟨fun x y => ⟨b32Gt_iff_isBelow x y, b32Lt_iff_isBelow x y⟩, fun x lo hi => ?_⟩
  have hgt := b32Gt_iff_isBelow x hi
  have hlt := b32Lt_iff_isBelow x lo
  simp only [clampF, b32ClampF, ← hgt, ← hlt]
  refine ⟨fun h => if_pos h, fun h h' => ?_, fun h h' => ?_⟩
  · rw [if_neg h, if_pos h']
  · rw [if_neg h, if_neg h']

/-! Correct rounding. -/

theorem overflowBound_eq : overflowBound = (2 ^ 25 - 1) * 2 ^ 252 := rfl

/-- An integer from its sign and its magnitude. -/
theorem eq_ite_neg_natAbs (v : Int) : v = if decide (v < 0) then -(v.natAbs : Int) else v.natAbs := by
  simp only [decide_eq_true_eq]
  split <;> omega

/-- `± num / den` below the overflow bound rounds to a nearest finite value. -/
theorem isNearest_b32Round {neg : Bool} {num den : Nat} (hd : 0 < den) {v : Int}
    (hv : v = if neg then -(num : Int) else num) (h : |v| < overflowBound * den) :
    isNearest v den (b32Round neg num den) := by
  have hnum : num < (2 ^ 25 - 1) * 2 ^ 252 * den := by
    have habs : |v| = num := by rw [hv]; cases neg <;> simp
    rw [habs, overflowBound_eq] at h
    zify
    exact h
  exact ⟨(b32Round_finite neg num den hd hnum).1, fun z _ => b32Round_nearest neg num den hd hnum v hv z⟩

theorem isNearest_b32Add {x y : F32} (hx : b32IsFinite x = true) (hy : b32IsFinite y = true)
    (h : |b32Units x + b32Units y| < overflowBound) :
    isNearest (b32Units x + b32Units y) 1 (b32Add x y) := by
  by_cases hv : b32Units x + b32Units y = 0
  · rw [b32Add_cancel hx hy hv, hv]
    have hu : b32Units (b32Signed (b32Sign x && b32Sign y) 0) = 0 := by
      cases b32Sign x && b32Sign y <;> decide
    have hf : b32IsFinite (b32Signed (b32Sign x && b32Sign y) 0) = true := by
      cases b32Sign x && b32Sign y <;> decide
    refine ⟨hf, fun z _ => ?_⟩
    rw [hu]
    simp only [sub_zero, mul_one, abs_zero, abs_nonneg, true_and]
    exact fun h0 hne => absurd (abs_eq_zero.1 h0.symm) hne
  · rw [b32Add_finite hx hy hv]
    exact isNearest_b32Round one_pos (eq_ite_neg_natAbs _) (by simpa using h)

theorem b32Add_overflow {x y : F32} (hx : b32IsFinite x = true) (hy : b32IsFinite y = true)
    (h : overflowBound ≤ |b32Units x + b32Units y|) :
    b32Add x y = if b32Units x + b32Units y < 0 then 0xFF800000#32 else 0x7F800000#32 := by
  have hv : b32Units x + b32Units y ≠ 0 := by
    intro h0
    rw [h0] at h
    exact absurd h (by decide)
  have hnum : (2 ^ 25 - 1) * 2 ^ 252 * 1 ≤ (b32Units x + b32Units y).natAbs := by
    rw [overflowBound_eq] at h
    zify
    rwa [mul_one]
  rw [b32Add_finite hx hy hv, b32Round_inf _ _ _ one_pos hnum, b32Signed_infBits]
  simp only [decide_eq_true_eq]

theorem isNearest_b32Mul {x y : F32} (hx : b32IsFinite x = true) (hy : b32IsFinite y = true)
    (h : |b32Units x * b32Units y| < overflowBound * 2 ^ 149) :
    isNearest (b32Units x * b32Units y) (2 ^ 149) (b32Mul x y) := by
  rw [b32Mul_finite hx hy]
  refine isNearest_b32Round b32One_pos ?_ h
  unfold b32Units
  cases b32Sign x <;> cases b32Sign y <;> simp

theorem b32Mul_overflow {x y : F32} (hx : b32IsFinite x = true) (hy : b32IsFinite y = true)
    (h : overflowBound * 2 ^ 149 ≤ |b32Units x * b32Units y|) :
    b32Mul x y = b32Signed (b32Sign x != b32Sign y) b32InfBits := by
  have hnum : (2 ^ 25 - 1) * 2 ^ 252 * b32One ≤ b32Mag x * b32Mag y := by
    rw [Int.abs_eq_natAbs, Int.natAbs_mul, natAbs_b32Units, natAbs_b32Units, overflowBound_eq] at h
    zify
    exact h
  rw [b32Mul_finite hx hy, b32Round_inf _ _ _ b32One_pos hnum]

/-- Settles O54: an exact zero sum is `b32Add_cancel`, any other finite sum is one rounding of the exact sum. -/
theorem binary32AddIsCorrectlyRounded : Obligations.Binary32AddIsCorrectlyRounded := by
  refine ⟨fun x y hx hy => ⟨fun h => ?_, b32Add_overflow hx hy, fun h => ?_⟩,
    fun x y hn => ⟨fun hx => b32Add_eq_left_of_inf hx hn, fun hy => b32Add_eq_right_of_inf hy hn⟩⟩
  · simpa only [isNearest, mul_one] using isNearest_b32Add hx hy h
  · rw [b32Add_cancel hx hy h, b32Sign, b32Sign]
    cases x.getLsbD 31 <;> cases y.getLsbD 31 <;> rfl

/-- Settles O55: a finite product is one rounding of the exact product, whose unit is `b32One` units squared. -/
theorem binary32MulIsCorrectlyRounded : Obligations.Binary32MulIsCorrectlyRounded := by
  refine ⟨fun x y hx hy => ⟨?_, isNearest_b32Mul hx hy, fun h => ?_⟩, fun x y hi hn => ?_⟩
  · rw [b32Mul_finite hx hy]
    exact b32Sign_b32Signed (b32RoundBits_lt _ _)
  · rw [b32Mul_overflow hx hy h, b32Signed_infBits]
    cases b32Sign x != b32Sign y <;> decide
  · rw [b32Mul_inf_of_not_nan hi hn, b32Signed_infBits, b32Sign, b32Sign]
    cases x.getLsbD 31 <;> cases y.getLsbD 31 <;> rfl

end Sys2Proof.Machine
end

section
/-! PROOFS. What of the state an instruction and a step leave unchanged (R22 to R28, R43), and what is kept until a reset
(R31, R73, R92, R111). -/

namespace Sys2Proof.Machine

/-- `step_cases` for the state a step answered. -/
theorem step_next_cases {s t : State} (h : step s = .next t) :
    t = s ∨ (∃ rest, t = s.withInputs rest) ∨
    (∃ rest, s.inputs = .reset :: rest ∧ t = (s.withInputs rest).hardReset) ∨
    (∃ f rest, (s.inputs = .request f :: rest ∨
        ∃ bs, frameOfBytes s.cfg.frameByteOrder bs = some f ∧ s.inputs = .bytes bs :: rest) ∧
      ((∃ e, t = (s.withInputs rest).raise e) ∨
        (∃ i u r0 r1, decode f = .ok i ∧ Writes (s.withInputs rest) i u ∧ t = u.respondOk r0 r1))) := by
  have answered {u : State} (hu : step s = .next u) : t = u := Host.Outcome.next.inj (h.symm.trans hu)
  rcases step_cases s with
    ⟨-, h'⟩ | ⟨bs, rest, -, -, h'⟩ | ⟨rest, hin, h'⟩ | ⟨f, rest, hin, ⟨e, h'⟩ | ⟨i, u, r0, r1, hd, hw, h'⟩⟩
  · exact .inl (answered h')
  · exact .inr (.inl ⟨rest, answered h'⟩)
  · exact .inr (.inr (.inl ⟨rest, hin, answered h'⟩))
  · exact .inr (.inr (.inr ⟨f, rest, hin, .inl ⟨e, answered h'⟩⟩))
  · exact .inr (.inr (.inr ⟨f, rest, hin, .inr ⟨i, u, r0, r1, hd, hw, answered h'⟩⟩))

/-! The frame of a write, finer than its unit: which instructions write each element. -/

section WritesFrame
variable {s u : State} {i : Instr}

theorem Writes.enc_frame (h : Writes s i u) {a : Axis} (hclear : ∀ raw, i ≠ .encClear a raw)
    (hupdate : ∀ raw, i ≠ .encUpdate a raw) : u.pos.get a = s.pos.get a ∧ u.last.get a = s.last.get a := by
  cases h with
  | encClear b raw =>
    have hb : a ≠ b := fun hab => hclear raw (hab ▸ rfl)
    simp [hb]
  | encUpdate b raw =>
    have hb : a ≠ b := fun hab => hupdate raw (hab ▸ rfl)
    simp [hb]
  | _ => exact ⟨rfl, rfl⟩

theorem Writes.history_frame (h : Writes s i u) (hcompute : ∀ x y, i ≠ .vpidCompute x y) (hreset : i ≠ .vpidReset) :
    u.e0 = s.e0 ∧ u.e1 = s.e1 ∧ u.e2 = s.e2 ∧ u.acc = s.acc := by
  cases h with
  | vpidCompute x y => exact absurd rfl (hcompute x y)
  | vpidReset => exact absurd rfl hreset
  | _ => exact ⟨rfl, rfl, rfl, rfl⟩

theorem Writes.gains_frame (h : Writes s i u) (hset : ∀ kp ki kd, i ≠ .vpidSetParams kp ki kd) :
    u.vkp = s.vkp ∧ u.vki = s.vki ∧ u.vkd = s.vkd := by
  cases h with
  | vpidSetParams kp ki kd => exact absurd rfl (hset kp ki kd)
  | _ => exact ⟨rfl, rfl, rfl⟩

theorem Writes.pkp_frame (h : Writes s i u) (hset : ∀ kp ki kd, i ≠ .ppidSetParams kp ki kd) : u.pkp = s.pkp := by
  cases h with
  | ppidSetParams kp ki kd => exact absurd rfl (hset kp ki kd)
  | _ => rfl

/-- A motor's unit has one instruction, so its frame is the unit's. -/
theorem unitOf_ne_gate {m : Motor} (h : ∀ md cmd, i ≠ .gateApply m md cmd) : unitOf i ≠ some (.gate m) := by
  cases i with
  | gateApply k md cmd =>
    intro hk
    obtain rfl : k = m := BlockUnit.gate.inj (Option.some.inj hk)
    exact h md cmd rfl
  | _ => simp [unitOf]

theorem Writes.latches_frame (h : Writes s i u) {m : Motor} (hgate : ∀ md cmd, i ≠ .gateApply m md cmd) :
    u.duty.get m = s.duty.get m ∧ u.dira.get m = s.dira.get m ∧ u.dirb.get m = s.dirb.get m :=
  State.elements_gate_iff.1 (h.elements_of_ne (unitOf_ne_gate hgate))

end WritesFrame

/-- Settles O46: an error writes FAULT only, and each element has its own frame lemma for the instructions that write. -/
theorem instructionsWriteOnlyTheirOwnElements : Obligations.InstructionsWriteOnlyTheirOwnElements := by
  intro i s t h
  rcases exec_inv h with ⟨e, -, rfl⟩ | ⟨u, r0, r1, hw, rfl⟩
  · exact ⟨fun _ _ _ => ⟨rfl, rfl⟩, fun _ _ => ⟨rfl, rfl, rfl, rfl⟩, fun _ => ⟨rfl, rfl, rfl⟩, fun _ => rfl,
      fun _ _ => ⟨rfl, rfl, rfl⟩, ⟨⟨.error e, 0, 0⟩, rfl, fun hok => by cases hok⟩, rfl, rfl⟩
  · obtain ⟨hcfg, hfault, hin, hres⟩ := hw.keeps
    exact ⟨fun _ => hw.enc_frame, hw.history_frame, hw.gains_frame, hw.pkp_frame, fun _ => hw.latches_frame,
      ⟨⟨.ok, r0, r1⟩, congrArg (· ++ _) hres, fun _ => hfault⟩, hcfg, hin⟩

/-- Settles O16: of the cases of a step only a reset and a GATE_APPLY of the motor leave its latches changed. -/
theorem portsFollowTheLatches : Obligations.PortsFollowTheLatches := by
  refine ⟨fun _ _ => ⟨rfl, rfl, rfl⟩, fun s t m hstep hchange => ?_⟩
  have not_same : ¬ (t.duty.get m = s.duty.get m ∧ t.dira.get m = s.dira.get m ∧ t.dirb.get m = s.dirb.get m) := by
    rintro ⟨hduty, ha, hb⟩
    rcases hchange with h | h | h
    exacts [h hduty, h ha, h hb]
  rcases step_next_cases hstep with
    rfl | ⟨rest, rfl⟩ | ⟨rest, hin, -⟩ | ⟨f, rest, hin, ⟨e, rfl⟩ | ⟨i, u, r0, r1, hd, hw, rfl⟩⟩
  · exact absurd ⟨rfl, rfl, rfl⟩ not_same
  · exact absurd ⟨rfl, rfl, rfl⟩ not_same
  · exact .inl ⟨rest, hin⟩
  · exact absurd ⟨rfl, rfl, rfl⟩ not_same
  · by_contra hno
    exact not_same (hw.latches_frame fun md cmd hi => hno (.inr ⟨f, md, cmd, rest, hd.trans (congrArg _ hi), hin⟩))

/-- What is seeded or set in `s` is so in `t`. -/
structure State.KeepsSet (s t : State) : Prop where
  last : ∀ a, (s.last.get a).isSome → (t.last.get a).isSome
  vkp : s.vkp.isSome → t.vkp.isSome
  vki : s.vki.isSome → t.vki.isSome
  vkd : s.vkd.isSome → t.vkd.isSome
  pkp : s.pkp.isSome → t.pkp.isSome

section KeepsSet
variable {s t u : State}

theorem State.KeepsSet.refl (s : State) : s.KeepsSet s := ⟨fun _ => id, id, id, id, id⟩

theorem State.KeepsSet.writeEnc (a : Axis) (p : BitVec 32) (l : BitVec 16) : s.KeepsSet (s.writeEnc a p (some l)) := by
  refine { State.KeepsSet.refl s with last := fun b hb => ?_ }
  rw [State.writeEnc_last, Two.get_set]
  split
  · rfl
  · exact hb

/-- No instruction writes none: what it writes to LAST or to a gain is a value. -/
theorem Writes.keepsSet {i : Instr} (h : Writes s i u) : s.KeepsSet u := by
  cases h with
  | encClear a raw => exact .writeEnc a 0 raw
  | encUpdate a raw l p => exact .writeEnc a _ raw
  | vpidSetParams => exact { State.KeepsSet.refl s with vkp := fun _ => rfl, vki := fun _ => rfl, vkd := fun _ => rfl }
  | ppidSetParams => exact { State.KeepsSet.refl s with pkp := fun _ => rfl }
  | _ => exact { State.KeepsSet.refl s with }

theorem step_keepsSet (h : step s = .next t) (hreset : ∀ rest, s.inputs ≠ .reset :: rest) : s.KeepsSet t := by
  rcases step_next_cases h with
    rfl | ⟨rest, rfl⟩ | ⟨rest, hin, -⟩ | ⟨f, rest, -, ⟨e, rfl⟩ | ⟨i, u, r0, r1, -, hw, rfl⟩⟩
  · exact .refl t
  · exact { State.KeepsSet.refl s with }
  · exact absurd hin (hreset rest)
  · exact { State.KeepsSet.refl s with }
  · exact { hw.keepsSet with }

/-- An error response is the one the instruction raised. -/
theorem exec_error_raises {i : Instr} {e : ErrorCode} {r0 r1 : Word} (h : exec i s = .next t)
    (hr : t.responses = s.responses ++ [⟨.error e, r0, r1⟩]) : Raises s i e := by
  rcases exec_inv h with ⟨e', hraises, rfl⟩ | ⟨u, q0, q1, hw, rfl⟩
  · obtain rfl : e' = e := by simpa using congrArg Response.status (List.singleton_inj.1 (List.append_cancel_left hr))
    exact hraises
  · obtain ⟨-, -, -, hres⟩ := hw.keeps
    rw [State.respondOk_responses, hres] at hr
    have := congrArg Response.status (List.singleton_inj.1 (List.append_cancel_left hr))
    cases this

end KeepsSet

/-- Settles O49: no instruction unsets what is set, and the two errors are raised only where it is unset. -/
theorem seedAndGainsLastUntilReset : Obligations.SeedAndGainsLastUntilReset := by
  refine ⟨fun s t h hreset => ?_, fun s t i e h hr => ?_⟩
  · have k := step_keepsSet h hreset
    exact ⟨k.last, k.vkp, k.vki, k.vkd, k.pkp⟩
  · have hraises := exec_error_raises h hr
    constructor
    · rintro rfl
      cases hraises with
      | unseeded a raw hl => exact ⟨a, raw, rfl, hl⟩
    · rintro rfl
      cases hraises with
      | vpidGainsUnset x y hgains => exact .inl ⟨x, y, rfl, hgains⟩
      | ppidGainsUnset x y hkp => exact .inr ⟨x, y, rfl, hkp⟩

end Sys2Proof.Machine
end

section
/-! PROOFS. The reset values (R31, R170), and the invariant of the block's state: it holds at reset and every step keeps it
(R20, R23, R24, R26, R74, R120, R121). -/

namespace Sys2Proof.Machine

/-- Settles O11: a served reset is `hardReset`, whose fields are R31's values. -/
theorem hardwareResetSetsEveryElement : Obligations.HardwareResetSetsEveryElement := by
  intro s rest h
  refine ⟨_, step_reset h, fun a => ?_, rfl, rfl, rfl, rfl, rfl, rfl, rfl, rfl, fun m => ?_, rfl, fun m => ?_, rfl⟩
  · cases a <;> exact ⟨rfl, rfl⟩
  · cases m <;> exact ⟨rfl, rfl, rfl⟩
  · cases m <;> exact ⟨rfl, rfl, rfl⟩

/-- Settles O12: the fields of `State.resetWith` under parameters that give no gains at reset. -/
theorem resetStateHasTheResetValues : Obligations.ResetStateHasTheResetValues := by
  refine ⟨fun a => ?_, rfl, rfl, rfl, rfl, rfl, rfl, rfl, rfl, fun m => ?_, rfl⟩
  · cases a <;> exact ⟨rfl, rfl⟩
  · cases m <;> exact ⟨rfl, rfl, rfl⟩

/-! The gate: what R26, R120 and R121 say of one motor's latches. -/

/-- What the invariant says of one motor. -/
structure Drive.Legal (g : Drive) : Prop where
  duty_range : g.duty = 0 ∨ (30 ≤ g.duty.toNat ∧ g.duty.toNat ≤ 1000)
  stopped_iff : g.duty = 0 ↔ (g.dira = false ∧ g.dirb = false)
  not_both : ¬ (g.dira = true ∧ g.dirb = true)

theorem Drive.legal_stopped : Drive.Legal ⟨0, false, false⟩ := ⟨.inl rfl, by decide, by decide⟩

/-- A running motor: one line high. -/
theorem Drive.legal_running {c : Int} (h30 : 30 ≤ c) (h1000 : c ≤ 1000) {dira dirb : Bool} (hline : dirb = !dira) :
    Drive.Legal ⟨BitVec.ofInt 16 c, dira, dirb⟩ := by
  have hnat : ((BitVec.ofInt 16 c).toNat : Int) = c := toNat_ofInt16 (by omega) (by omega)
  have hne : BitVec.ofInt 16 c ≠ 0#16 := by
    intro h0
    rw [h0, BitVec.toNat_ofNat] at hnat
    omega
  subst hline
  refine ⟨.inr ?_, by simp [hne], by simp⟩
  show 30 ≤ (BitVec.ofInt 16 c).toNat ∧ (BitVec.ofInt 16 c).toNat ≤ 1000
  omega

theorem gateDir_gateShape_legal (p : DirPolarity) (cmd : Int) (md : SysMode) :
    (gateDir p (gateShape cmd md)).Legal := by
  rcases gateShape_bounds cmd md with h | ⟨-, h30, h1000⟩ | ⟨-, h30, h1000⟩
  · rw [h]
    exact Drive.legal_stopped
  · rw [gateDir_pos p (by omega)]
    exact Drive.legal_running h30 h1000 (by cases p <;> rfl)
  · rw [gateDir_neg p (by omega)]
    exact Drive.legal_running (by omega) (by omega) (by cases p <;> rfl)

/-- The latches of one motor. -/
def State.drive (s : State) (m : Motor) : Drive := ⟨s.duty.get m, s.dira.get m, s.dirb.get m⟩

theorem State.drive_writeGate (s : State) (m k : Motor) (g : Drive) :
    (s.writeGate m g.duty g.dira g.dirb).drive k = if k = m then g else s.drive k := by
  by_cases h : k = m
  · subst h
    simp [State.drive]
  · simp [State.drive, h]

/-! The velocity controller: the errors and the accumulator. -/

theorem errorInRange_zero : errorInRange 0 := ⟨by decide, by decide⟩

/-- A difference of two 16-bit values (R92). -/
theorem errorInRange_ofInt_sub (x y : BitVec 16) : errorInRange (BitVec.ofInt 32 (x.toInt - y.toInt)) := by
  have hx0 := x.le_toInt
  have hx1 := x.toInt_lt
  have hy0 := y.le_toInt
  have hy1 := y.toInt_lt
  norm_num at hx0 hx1 hy0 hy1
  rw [errorInRange, toInt_ofInt32, wrapS32_of_mem (by omega) (by omega)]
  omega

theorem finiteWithin_zero : finiteWithin Config.vpidLim 0 := ⟨by decide, by decide, by decide⟩

theorem finiteWithin_clampSymF_vpidLim {fp : FpArith} {x : F32} (hfp : fp = .binary32) (hn : f32IsNaN fp x = false) :
    finiteWithin Config.vpidLim (clampSymF fp x Config.vpidLim) := by
  subst hfp
  rw [clampSymF_vpidLim]
  exact finiteWithin_clamp800 hn

/-! Every operation on the state keeps the invariant. -/

theorem State.inv_resetWith (cfg : Config) : (State.resetWith cfg).Inv where
  e0_range := errorInRange_zero
  e1_range := errorInRange_zero
  e2_range := errorInRange_zero
  acc_range := fun _ => finiteWithin_zero
  duty_range := fun m => by cases m <;> exact Drive.legal_stopped.duty_range
  stopped_iff := fun m => by cases m <;> exact Drive.legal_stopped.stopped_iff
  not_both := fun m => by cases m <;> exact Drive.legal_stopped.not_both
  unseeded_zero := fun a _ => by cases a <;> rfl
  gains_together := by cases h : cfg.vpidGainsAtReset <;> simp [State.resetWith, h]

section Inv
variable {s t u : State} (h : s.Inv)
include h

theorem State.Inv.drive_legal (m : Motor) : (s.drive m).Legal := ⟨h.duty_range m, h.stopped_iff m, h.not_both m⟩

theorem State.Inv.respondOk (r0 r1 : Word) : (s.respondOk r0 r1).Inv := { h with }

theorem State.Inv.raise (e : ErrorCode) : (s.raise e).Inv := { h with }

theorem State.Inv.withInputs (is : List Input) : (s.withInputs is).Inv := { h with }

theorem State.Inv.writeEnc (a : Axis) (p : BitVec 32) (l : BitVec 16) : (s.writeEnc a p (some l)).Inv := by
  refine { h with unseeded_zero := fun b hb => ?_ }
  rw [State.writeEnc_last, Two.get_set] at hb
  rw [State.writeEnc_pos, Two.get_set]
  split at hb
  · cases hb
  · next hba => rw [if_neg hba, h.unseeded_zero b hb]

theorem State.Inv.writeGate {g : Drive} (hg : g.Legal) (m : Motor) : (s.writeGate m g.duty g.dira g.dirb).Inv := by
  have hk (k : Motor) : ((s.writeGate m g.duty g.dira g.dirb).drive k).Legal := by
    rw [State.drive_writeGate]
    split
    exacts [hg, h.drive_legal k]
  exact { h with
    duty_range := fun k => (hk k).duty_range
    stopped_iff := fun k => (hk k).stopped_iff
    not_both := fun k => (hk k).not_both }

theorem Writes.keeps_inv {i : Instr} (hw : Writes s i u) : u.Inv := by
  cases hw with
  | nop | encRead | ppidCompute | statusRead => exact h
  | encClear a raw => exact h.writeEnc a 0 raw
  | encUpdate a raw l p => exact h.writeEnc a _ raw
  | vpidCompute x y sum hn =>
    exact { h with
      e0_range := errorInRange_ofInt_sub x y
      e1_range := h.e0_range
      e2_range := h.e1_range
      acc_range := fun hfp => finiteWithin_clampSymF_vpidLim hfp hn }
  | vpidReset =>
    exact { h with
      e0_range := errorInRange_zero
      e1_range := errorInRange_zero
      e2_range := errorInRange_zero
      acc_range := fun _ => finiteWithin_zero }
  | vpidSetParams => exact { h with gains_together := ⟨rfl, rfl⟩ }
  | ppidSetParams => exact { h with }
  | gateApply m md cmd => exact h.writeGate (gateDir_gateShape_legal _ _ _) m

theorem step_keeps_inv (hstep : step s = .next t) : t.Inv := by
  rcases step_next_cases hstep with
    rfl | ⟨rest, rfl⟩ | ⟨rest, -, rfl⟩ | ⟨f, rest, -, ⟨e, rfl⟩ | ⟨i, u, r0, r1, -, hw, rfl⟩⟩
  · exact h
  · exact h.withInputs rest
  · exact { State.inv_resetWith s.cfg with }
  · exact (h.withInputs rest).raise e
  · exact (hw.keeps_inv (h.withInputs rest)).respondOk r0 r1

end Inv

/-- Settles O51: the reset values of R31 meet every clause. -/
theorem invariantHoldsAtReset : Obligations.InvariantHoldsAtReset :=
  ⟨State.inv_resetWith Config.default, State.inv_resetWith⟩

/-- Settles O50: every writer of the state keeps the invariant, so every case of a step does. -/
theorem everyStepKeepsTheInvariant : Obligations.EveryStepKeepsTheInvariant := fun _ _ => step_keeps_inv

end Sys2Proof.Machine
end

section
/-! PROOFS. The bytes of a frame and of a response, partial transfers, interleaved clients and repeated operations (R41, R42,
R43, R44, R48). -/

namespace Sys2Proof

@[simp] theorem bytesOf_length (order : FrameByteOrder) (n : Nat) (v : BitVec (8 * n)) :
    (bytesOf order n v).length = n := by
  cases order <;> simp [bytesOf]

@[simp] theorem frameBytes_length (order : FrameByteOrder) (f : Frame) : (frameBytes order f).length = 16 :=
  bytesOf_length order 16 f

theorem valueOfBytes_frameBytes_little (f : Frame) : valueOfBytes (frameBytes .little f) = f.toNat :=
  (valueOfBytes_little (m := 16) f 16 le_rfl).trans (Nat.mod_eq_of_lt f.isLt)

/-- A frame is what its sixteen bytes spell (R41). -/
@[simp] theorem frameOfBytes_frameBytes (order : FrameByteOrder) (f : Frame) :
    frameOfBytes order (frameBytes order f) = some f := by
  cases order with
  | little => simp [frameOfBytes, valueOfBytes_frameBytes_little]
  | big => simp [frameOfBytes, frameBytes_big, valueOfBytes_frameBytes_little]

theorem frameOfBytes_eq_none (order : FrameByteOrder) {bs : List Byte} (h : bs.length ≠ 16) :
    frameOfBytes order bs = none := if_neg h

end Sys2Proof

namespace Sys2Proof.Machine

/-- Settles O8: `bytesOf_get` at the widths 128 and 96, and the value the little-endian bytes spell. -/
theorem bytesCarryTheFrame : Obligations.BytesCarryTheFrame := by
  refine ⟨fun f k hk => ⟨?_, ?_⟩, fun r k hk => ⟨?_, ?_⟩, frameOfBytes_frameBytes, frameBytes_length, fun order r => ?_⟩
  · exact bytesOf_get .little 16 f k hk
  · exact bytesOf_get .big 16 f k hk
  · exact bytesOf_get .little 12 r.bits k hk
  · exact bytesOf_get .big 12 r.bits k hk
  · exact bytesOf_length order 12 r.bits

/-- Settles O9: bytes that spell no frame only leave the queue. -/
theorem partialFrameHasNoEffect : Obligations.PartialFrameHasNoEffect := by
  intro s bs rest hlen h
  rw [step_cons h]
  simp only [serveInput, frameOfBytes_eq_none _ hlen]
  rfl

theorem Interleaves.length_eq {α : Type} {xs ys zs : List α} (h : Interleaves xs ys zs) :
    zs.length = xs.length + ys.length := by
  induction h with
  | nil => rfl
  | left x _ ih => simp only [List.length_cons, ih]; omega
  | right y _ ih => simp only [List.length_cons, ih]; omega

theorem State.withInputs_of_inputs_eq {s : State} {is : List Input} (h : s.inputs = is) : s.withInputs is = s :=
  h ▸ rfl

theorem run_succ {s t : State} (n : Nat) (h : step s = .next t) :
    Host.Core.run core (n + 1) s = Host.Core.run core n t := by
  have hcore : core.step s = .next t := h
  simp only [Host.Core.run, hcore]

theorem serveAll_cons {i : Input} {s t : State} (is : List Input) (h : serveInput i s = .next t) :
    serveAll (i :: is) s = serveAll is t := by
  simp only [serveAll, h]

/-- Serving events in order answers a next state and leaves what waits. -/
theorem serveAll_next (is : List Input) (s : State) : ∃ t, serveAll is s = .next t ∧ t.inputs = s.inputs := by
  induction is generalizing s with
  | nil => exact ⟨s, rfl, rfl⟩
  | cons i is ih =>
    obtain ⟨u, hfirst, hin, -⟩ := serveInput_withInputs i s []
    obtain ⟨t, hrest, ht⟩ := ih u
    exact ⟨t, (serveAll_cons is hfirst).trans hrest, ht.trans hin⟩

/-- A run of one step for each waiting event serves them in order: serving one never reads or writes those behind it (R44). -/
theorem run_length_eq_serveAll (is : List Input) (s : State) :
    Host.Core.run core is.length (s.withInputs is) = serveAll is (s.withInputs []) := by
  induction is generalizing s with
  | nil => rfl
  | cons i is ih =>
    obtain ⟨u, hfirst, hin, hbehind⟩ := serveInput_withInputs i (s.withInputs []) is
    have hstep : step (s.withInputs (i :: is)) = .next (u.withInputs is) := (step_cons rfl).trans hbehind
    have hserve : serveAll (i :: is) (s.withInputs []) = serveAll is (u.withInputs []) := by
      rw [serveAll_cons is hfirst, State.withInputs_of_inputs_eq (is := []) hin]
    exact (run_succ _ hstep).trans ((ih u).trans hserve.symm)

/-- Settles O13: an interleaving has one event for each step of the run, so `run_length_eq_serveAll` serves them all. -/
theorem everyInterleavingIsServedInArrivalOrder : Obligations.EveryInterleavingIsServedInArrivalOrder := by
  intro s xs ys zs h
  obtain ⟨t, hserve, hin⟩ := serveAll_next zs (s.withInputs [])
  rw [← h.length_eq]
  exact ⟨t, (run_length_eq_serveAll zs s).trans hserve, hserve, hin⟩

section Idempotent
variable (s : State) (r0 r1 : Word)

/-! Writing the same values again after the response changes nothing. -/

theorem State.writeEnc_respondOk_writeEnc (a : Axis) (p : BitVec 32) (l : Option (BitVec 16)) :
    ((s.writeEnc a p l).respondOk r0 r1).writeEnc a p l = (s.writeEnc a p l).respondOk r0 r1 := by
  simp [State.writeEnc, State.respondOk, State.respond]

theorem State.writeGate_respondOk_writeGate (m : Motor) (d : BitVec 16) (da db : Bool) :
    ((s.writeGate m d da db).respondOk r0 r1).writeGate m d da db = (s.writeGate m d da db).respondOk r0 r1 := by
  simp [State.writeGate, State.respondOk, State.respond]

end Idempotent

/-- Settles O47: each writes values that depend on its operands and the parameters only. -/
theorem settersAndClearsAreIdempotent : Obligations.SettersAndClearsAreIdempotent := by
  rintro i s (rfl | ⟨kp, ki, kd, rfl⟩ | ⟨kp, ki, kd, rfl⟩ | ⟨m, md, cmd, rfl⟩ | ⟨a, raw, rfl⟩)
  · exact ⟨_, _, rfl, rfl, rfl⟩
  · exact ⟨_, _, rfl, rfl, rfl⟩
  · exact ⟨_, _, rfl, rfl, rfl⟩
  · refine ⟨_, _, rfl, rfl, ?_⟩
    simp only [exec, execGateApply, State.respondOk_cfg, State.writeGate_cfg, State.writeGate_respondOk_writeGate]
    rfl
  · refine ⟨_, _, rfl, rfl, ?_⟩
    simp only [exec, execEncClear, State.writeEnc_respondOk_writeEnc]
    rfl

end Sys2Proof.Machine
end

section
/-! PROOFS. The decoder and the encoder (R50, R54 to R59), the response's layout (R51, R150), and the assembler (R60, R61). -/

open Sys2Proof.Claims

namespace Sys2Proof

/-- Settles O1: one case of the round trip for each operation. -/
theorem decodeReadsBackEveryEncoding : Obligations.DecodeReadsBackEveryEncoding := by
  intro i
  cases i with
  | nop => exact Laws.RoundTrip.nop
  | encClear axis raw => exact Laws.RoundTrip.encClear axis raw
  | encUpdate axis raw => exact Laws.RoundTrip.encUpdate axis raw
  | encRead axis => exact Laws.RoundTrip.encRead axis
  | vpidCompute target actual => exact Laws.RoundTrip.vpidCompute target actual
  | vpidReset => exact Laws.RoundTrip.vpidReset
  | vpidSetParams kp ki kd => exact Laws.RoundTrip.vpidSetParams kp ki kd
  | ppidCompute target actual => exact Laws.RoundTrip.ppidCompute target actual
  | ppidSetParams kp ki kd => exact Laws.RoundTrip.ppidSetParams kp ki kd
  | gateApply motor mode cmd => exact Laws.RoundTrip.gateApply motor mode cmd
  | statusRead => exact Laws.RoundTrip.statusRead

theorem decode_of_encode_eq {i : Instr} {f : Frame} (h : encode i = f) : decode f = .ok i :=
  h ▸ decodeReadsBackEveryEncoding i

/-- Settles O3: each frame is its instruction's encoding. -/
theorem writtenFramesDecode : Obligations.WrittenFramesDecode := by
  refine ⟨?_, ?_, ?_, ?_, ?_, ?_, ?_, ?_⟩ <;> exact decode_of_encode_eq (by decide)

/-- A frame whose RSVD is zero is made of its other six fields (R50). -/
theorem Frame.make_fields {f : Frame} (h : f.rsvd = 0) : Frame.make f.opc f.sel f.mode f.a f.b f.c = f :=
  Frame.ext_fields (by simp) (by simp) (by simp) (by simp [h]) (by simp) (by simp) (by simp)

/-- A row's operand assembly loses no bit of a frame that selects the row: what it does not read is zero (R54, R56). -/
theorem encode_assemble {op : Opcode} {f : Frame} (h : op.selects f = true) : encode (op.assemble f) = f := by
  obtain ⟨hopc, hrsvd, hunused⟩ := (op.selects_iff_fields f).1 h
  refine Eq.trans ?_ (Frame.make_fields hrsvd)
  rw [hopc]
  cases op <;>
    simp only [Opcode.assemble, encode, selOfIdx_idxOfSel, bitOfMode_modeOfBit, setWidth_low_half, hunused]

/-- Settles O2: such a frame selects the row it was decoded by. -/
theorem onlyTheEncodingSpellsAnInstruction : Obligations.OnlyTheEncodingSpellsAnInstruction := by
  intro f i hd
  obtain ⟨op, hsel, rfl⟩ := (decode_eq_ok_iff f i).1 hd
  exact encode_assemble hsel

theorem Opcode.selects_iff_and_mask (op : Opcode) (f : Frame) : op.selects f = true ↔ f &&& op.mask = op.pattern :=
  beq_iff_eq

theorem Opcode.opc_of_selects {op : Opcode} {f : Frame} (h : op.selects f = true) : f.opc = op.value :=
  ((op.selects_iff_fields f).1 h).1

/-- At most one row is selected: the rows differ in OPC (R59). -/
theorem Opcode.selects_unique {p q : Opcode} {f : Frame} (hp : p.selects f = true) (hq : q.selects f = true) : p = q :=
  Opcode.value_injective ((Opcode.opc_of_selects hp).symm.trans (Opcode.opc_of_selects hq))

end Sys2Proof

namespace Sys2Proof.Machine

/-- A frame that selects no row is ILLEGAL in every state (R56, R57, R59). -/
theorem step_of_no_row {f : Frame} {s : State} {rest : List Input} (hrow : ∀ op : Opcode, ¬ op.selects f = true)
    (hin : s.inputs = .request f :: rest) : step s = .next ((s.withInputs rest).raise .illegal) := by
  obtain ⟨e, he⟩ := (decode_eq_error_iff f).2 fun op => Bool.eq_false_iff.2 (hrow op)
  rw [step_request hin, serveFrame, he]

/-- Settles O4: rows are told apart by OPC, and `decode` finds the one that is selected. -/
theorem decoderFollowsTheTable : Obligations.DecoderFollowsTheTable := by
  refine ⟨fun f op h => ?_, fun f p q hp hq => ?_, fun f s rest hrow hin => ?_⟩
  · exact decode_of_selects ((op.selects_iff_and_mask f).2 h)
  · exact Opcode.selects_unique ((p.selects_iff_and_mask f).2 hp) ((q.selects_iff_and_mask f).2 hq)
  · exact step_of_no_row (fun op hsel => hrow op ((op.selects_iff_and_mask f).1 hsel)) hin

/-- Settles O5: no row has an OPC in the reserved ranges. -/
theorem reservedOpcodesAreIllegal : Obligations.ReservedOpcodesAreIllegal := by
  intro f s rest hreserved hin
  refine step_of_no_row (fun op hsel => ?_) hin
  have hopc : f.extractLsb' 120 8 = op.value := Opcode.opc_of_selects hsel
  rw [hopc] at hreserved
  revert hreserved
  cases op <;> decide

/-- Settles O6: the only row with the frame's OPC is the one whose unused fields are not zero. -/
theorem unusedFieldsMustBeZero : Obligations.UnusedFieldsMustBeZero := by
  intro op f s rest hopc hunused hin
  refine step_of_no_row (fun q hsel => hunused ?_) hin
  obtain ⟨hq, hzero⟩ := (q.selects_iff_fields f).1 hsel
  rwa [← Opcode.value_injective (hq.symm.trans hopc)]

/-! A response's value is its three words side by side (R51). -/

theorem Response.bits_r1 (r : Response) : r.bits.extractLsb' 0 32 = r.r1 := BitVec.extractLsb'_append_eq_right

theorem Response.bits_r0 (r : Response) : r.bits.extractLsb' 32 32 = r.r0 :=
  (BitVec.extractLsb'_append_eq_of_le (by decide)).trans BitVec.extractLsb'_append_eq_right

/-- Above the results stands the status code, with zeros above it. -/
theorem Response.bits_status (r : Response) {start len : Nat} (hlo : 64 ≤ start) (hhi : start + len ≤ 96) :
    r.bits.extractLsb' start len = r.status.code.extractLsb' (start - 64) len := by
  have hword : r.bits.extractLsb' start len = (r.status.code.setWidth 32 : Word).extractLsb' (start - 32 - 32) len :=
    (BitVec.extractLsb'_append_eq_of_le (by omega)).trans (BitVec.extractLsb'_append_eq_of_le (by omega))
  rw [hword, Nat.sub_sub, BitVec.extractLsb'_setWidth_of_le (by omega)]

/-- Settles O20: the status code fills bits [66:64], and what is above it in its word is zero. -/
theorem responseLayoutAndCodes : Obligations.ResponseLayoutAndCodes := by
  have hcode (c : BitVec 3) : c.extractLsb' 0 3 = c := BitVec.extractLsb'_eq_self
  have habove : ∀ c : BitVec 3, c.extractLsb' 3 29 = 0 := by decide
  refine ⟨fun r => ⟨?_, ?_, r.bits_r0, r.bits_r1⟩, rfl, rfl, rfl, rfl, rfl, rfl⟩
  · exact (r.bits_status (by decide) (by decide)).trans (hcode _)
  · exact (r.bits_status (by decide) (by decide)).trans (habove _)

/-! Assembly: in range, the operand's own value; out of range, no instruction. -/

theorem assemble_of_wf {x : Asm} (h : x.wf = true) : assemble x = some (asmInstrs x) := if_pos h

theorem assemble_of_not_wf {x : Asm} (h : ¬ x.wf = true) : assemble x = none := if_neg h

theorem inI16_iff (v : Int) : inI16 v = true ↔ -32768 ≤ v ∧ v ≤ 32767 := by simp [inI16]

theorem inI32_iff (v : Int) : inI32 v = true ↔ -2 ^ 31 ≤ v ∧ v ≤ 2 ^ 31 - 1 := by simp [inI32]

theorem inRaw_iff (v : Int) : inRaw v = true ↔ -32768 ≤ v ∧ v ≤ 65535 := by simp [inRaw]

theorem toInt_ofInt16_of_inI16 {v : Int} (h : inI16 v = true) : (BitVec.ofInt 16 v).toInt = v := by
  obtain ⟨hlo, hhi⟩ := (inI16_iff v).1 h
  exact wrapS16_of_mem hlo hhi

theorem toInt_ofInt32_of_inI32 {v : Int} (h : inI32 v = true) : (BitVec.ofInt 32 v).toInt = v := by
  obtain ⟨hlo, hhi⟩ := (inI32_iff v).1 h
  exact wrapS32_of_mem hlo hhi

theorem toNat_ofInt16_residue (v : Int) : ((BitVec.ofInt 16 v).toNat - v) % 65536 = 0 := by
  rw [BitVec.toNat_ofInt]
  omega

/-- A written gain gives its pattern, or the decimal real correctly rounded (R60). -/
theorem isGain_gainBits (g : GainLit) : isGain g (gainBits g) := by
  cases g with
  | bits pattern => rfl
  | decimal neg digits places =>
    have hden : 0 < 10 ^ places := by positivity
    have hcast : ((10 ^ places : Nat) : Int) = 10 ^ places := by push_cast; rfl
    have hv : (if neg then -(digits : Int) else digits) * 2 ^ 149 =
        if neg then -((digits * b32One : Nat) : Int) else (digits * b32One : Nat) := by
      cases neg <;> simp [b32One]
    refine ⟨fun h => ?_, fun h => ?_⟩
    · rw [← hcast] at h ⊢
      exact isNearest_b32Round hden hv h
    · have habs : |if neg then -((digits * b32One : Nat) : Int) else (digits * b32One : Nat)| =
          (digits * b32One : Nat) := by
        cases neg <;> simp
      rw [hv, habs, overflowBound_eq, Nat.cast_mul] at h
      have hnum : (2 ^ 25 - 1) * 2 ^ 252 * 10 ^ places ≤ digits * b32One := by
        zify
        exact h
      rw [gainBits, b32Round_inf neg _ _ hden hnum, b32Signed_infBits]

/-- Settles O53: a form is assembled exactly when its numbers are in range, and in range the operand's words lose nothing. -/
theorem assembledOperandsCarryTheirNumbers : Obligations.AssembledOperandsCarryTheirNumbers := by
  refine ⟨fun t y h => ?_, fun t y h => ?_, fun m md cmd h => ?_, fun a raw h => ?_, fun p i d => ?_,
    fun t y h => ?_, fun t y h => ?_, fun m md cmd h => ?_, fun a raw h => ?_⟩
  · obtain ⟨ht, hy⟩ : inI16 t = true ∧ inI16 y = true := by simp only [inI16_iff]; omega
    exact ⟨_, _, assemble_of_wf (by simp [Asm.wf, ht, hy]), toInt_ofInt16_of_inI16 ht, toInt_ofInt16_of_inI16 hy⟩
  · obtain ⟨ht, hy⟩ : inI32 t = true ∧ inI32 y = true := by simp only [inI32_iff]; omega
    exact ⟨_, _, assemble_of_wf (by simp [Asm.wf, ht, hy]), toInt_ofInt32_of_inI32 ht, toInt_ofInt32_of_inI32 hy⟩
  · have hcmd : inI32 cmd = true := (inI32_iff cmd).2 h
    exact ⟨_, assemble_of_wf hcmd, toInt_ofInt32_of_inI32 hcmd⟩
  · have hraw : inRaw raw = true := (inRaw_iff raw).2 h
    exact ⟨_, assemble_of_wf hraw, assemble_of_wf hraw, toNat_ofInt16_residue raw⟩
  · exact ⟨_, _, _, assemble_of_wf rfl, assemble_of_wf rfl, isGain_gainBits p, isGain_gainBits i, isGain_gainBits d⟩
  · refine assemble_of_not_wf fun hwf => ?_
    simp only [Asm.wf, Bool.and_eq_true, inI16_iff] at hwf
    omega
  · refine assemble_of_not_wf fun hwf => ?_
    simp only [Asm.wf, Bool.and_eq_true, inI32_iff] at hwf
    omega
  · refine assemble_of_not_wf fun hwf => ?_
    simp only [Asm.wf, inI32_iff] at hwf
    omega
  · have hwf : ¬ inRaw raw = true := by rw [inRaw_iff]; omega
    exact ⟨assemble_of_not_wf hwf, assemble_of_not_wf hwf⟩

/-- Settles O52: a GATE_STOP's command is zero, which both modes shape to zero, and the decimal 0.0 is the pattern 0. -/
theorem pseudoInstructionsExpand : Obligations.PseudoInstructionsExpand := by
  have hzero : gainBits (.decimal false 0 1) = 0 := by decide
  have hmode : gateShape (i32Value 0) .vc = gateShape (i32Value 0) .pf := by decide
  refine ⟨fun m => rfl, rfl, fun kp => ?_, fun m s => ?_⟩
  · rw [assemble_of_wf rfl, assemble_of_wf rfl, asmInstrs, asmInstrs, hzero]
  · simp only [exec, execGateApply, hmode]

end Sys2Proof.Machine
end

section
/-! PROOFS. The encoder tracker: its frames, its three operations and its helper functions (R70 to R75). -/

open Sys2Proof.Claims

namespace Sys2Proof

/-- A frame spells an instruction exactly when it is its encoding. -/
theorem decode_eq_ok_iff_eq_encode (f : Frame) (i : Instr) : decode f = .ok i ↔ f = encode i :=
  ⟨fun h => (onlyTheEncodingSpellsAnInstruction f i h).symm, fun h => decode_of_encode_eq h.symm⟩

theorem setWidth32_eq_append (x : BitVec 16) : (x.setWidth 32 : Word) = 0#16 ++ x := by
  rw [BitVec.setWidth_eq_append (by decide)]
  rfl

/-- The frames of the encoder's operations: the axis in SEL, at most operand C in use (R52, R54). -/
theorem Frame.make_selOfIdx (opc : BitVec 8) (a : Axis) (c : Word) :
    Frame.make opc (selOfIdx a) false 0 0 c = frameOf opc (selBit a) 0 0 0 c := by
  cases a <;> rfl

end Sys2Proof

namespace Sys2Proof.Machine

/-- Settles O23: the encoding is the written-out frame, and the effect is the two writes and the response. -/
theorem encClearSeedsTheAxis : Obligations.EncClearSeedsTheAxis := by
  refine fun a raw s => ⟨fun f => ?_, rfl⟩
  rw [decode_eq_ok_iff_eq_encode, encode, Frame.make_selOfIdx, setWidth32_eq_append]
  rfl

theorem lastWord_some (l : BitVec 16) : lastWord (some l) = 0#15 ++ 1#1 ++ l := by
  have hseeded : (1#32 <<< 16 : Word) = 0#15 ++ 1#1 ++ 0#16 := by decide
  rw [lastWord, hseeded, setWidth32_eq_append]
  exact BitVec.or_append.trans (by rw [BitVec.or_zero, BitVec.zero_or])

/-- Settles O25: the seeded bit and the sample lie side by side in R1. -/
theorem encReadAnswersTheAxis : Obligations.EncReadAnswersTheAxis := by
  refine fun a s => ⟨fun f => ?_, fun hl => ?_, fun l hl => ?_⟩
  · rw [decode_eq_ok_iff_eq_encode, encode, Frame.make_selOfIdx]
    rfl
  · simp only [exec, execEncRead, hl]
    rfl
  · simp only [exec, execEncRead, hl, lastWord_some]
    rfl

/-! ENC_UPDATE, one equation for each of its three outcomes (R73). -/

/-- The 32-bit policy has no result for `v`, which is an OVERFLOW (R7, R73). -/
def Overflows (policy : Int32Overflow) (v : Int) : Prop := (v < -2 ^ 31 ∨ v > 2 ^ 31 - 1) ∧ policy = .fault

theorem mem_of_not_overflows {policy : Int32Overflow} {v : Int} (h : ¬ Overflows policy v) (hfault : policy = .fault) :
    -2 ^ 31 ≤ v ∧ v ≤ 2 ^ 31 - 1 := by
  have hin : ¬ (v < -2 ^ 31 ∨ v > 2 ^ 31 - 1) := fun hout => h ⟨hout, hfault⟩
  omega

theorem not_overflows {policy : Int32Overflow} {v : Int} (h : policy = .wrap ∨ (-2 ^ 31 ≤ v ∧ v ≤ 2 ^ 31 - 1)) :
    ¬ Overflows policy v := by
  rintro ⟨hout, rfl⟩
  rcases h with hwrap | hin
  · cases hwrap
  · omega

theorem exists_int32Result {policy : Int32Overflow} {v : Int} (h : ¬ Overflows policy v) :
    ∃ p, int32Result policy v = some p ∧ BitVec.ofInt 32 p = BitVec.ofInt 32 v := by
  obtain ⟨p, hp⟩ := Option.ne_none_iff_exists'.1 (mt int32Result_eq_none.1 h)
  exact ⟨p, hp, (int32Result_eq_some hp).1 ▸ ofInt32_wrapS32 v⟩

/-- The exact position after a sample `raw` that follows the sample `l`. -/
def State.nextPos (s : State) (a : Axis) (l raw : BitVec 16) : Int :=
  (s.pos.get a).toInt + encDelta s.cfg.encDeltaMode l.toInt raw.toInt

section EncUpdate
variable {s : State} {a : Axis} {l raw : BitVec 16}

theorem exec_encUpdate_unseeded (hl : s.last.get a = none) :
    exec (.encUpdate a raw) s = .next (s.raise .unseeded) := by
  simp only [exec, execEncUpdate, hl]

theorem exec_encUpdate_overflow (hl : s.last.get a = some l)
    (h : Overflows s.cfg.int32Overflow (s.nextPos a l raw)) :
    exec (.encUpdate a raw) s = .next (s.raise .overflow) := by
  have hp := int32Result_eq_none.2 h
  simp only [State.nextPos] at hp
  simp only [exec, execEncUpdate, hl, i32Value, rawValue, hp]

theorem exec_encUpdate_seeded (hl : s.last.get a = some l)
    (h : ¬ Overflows s.cfg.int32Overflow (s.nextPos a l raw)) :
    exec (.encUpdate a raw) s =
      .next ((s.writeEnc a (BitVec.ofInt 32 (s.nextPos a l raw)) (some raw)).respondOk
        (BitVec.ofInt 32 (s.nextPos a l raw)) (BitVec.ofInt 32 (encVel s.cfg.velTie s.cfg.velNarrow
          (encDelta s.cfg.encDeltaMode l.toInt raw.toInt)))) := by
  obtain ⟨p, hp, hword⟩ := exists_int32Result h
  simp only [← hword]
  simp only [State.nextPos] at hp
  simp only [exec, execEncUpdate, hl, i32Value, rawValue, hp, resultWord]

end EncUpdate

/-- Settles O24: one equation of ENC_UPDATE for each outcome. -/
theorem encUpdateAdvancesThePosition : Obligations.EncUpdateAdvancesThePosition := by
  refine fun a raw s => ⟨fun f => ?_, exec_encUpdate_unseeded, fun l hl =>
    ⟨exec_encUpdate_overflow hl, exec_encUpdate_seeded hl⟩⟩
  rw [decode_eq_ok_iff_eq_encode, encode, Frame.make_selOfIdx, setWidth32_eq_append]
  rfl

/-! The wrap-corrected delta (R70): its range and its residue determine it but at the two ends. -/

/-- `w` is within the differences of two raw samples. -/
def SampleDiff (w : Int) : Prop := -65535 ≤ w ∧ w ≤ 65535

theorem encDelta_wrap16 (l c : Int) : encDelta .wrap16 l c = wrapS 16 (c - l) := rfl

theorem encDelta_wide (l c : Int) : encDelta .wide l c =
    if c - l > 32768 then c - l - 65536 else if c - l < -32768 then c - l + 65536 else c - l := rfl

theorem encDelta_residue (mode : EncDeltaMode) (l c : Int) : (encDelta mode l c - (c - l)) % 65536 = 0 := by
  cases mode
  · rw [encDelta_wide]
    split_ifs <;> omega
  · exact wrapS16_residue (c - l)

theorem encDelta_range (mode : EncDeltaMode) {l c : Int} (h : SampleDiff (c - l)) :
    -32768 ≤ encDelta mode l c ∧ encDelta mode l c ≤ 32768 := by
  obtain ⟨hlo, hhi⟩ := h
  cases mode
  · rw [encDelta_wide]
    split_ifs <;> omega
  · have := wrapS16_range (c - l)
    rw [encDelta_wrap16]
    omega

/-- In either mode the delta is the one number in [-32767, 32767] with the residue of the difference. -/
theorem encDelta_eq_of_residue (mode : EncDeltaMode) {l c m : Int} (h : SampleDiff (c - l)) (hlo : -32767 ≤ m)
    (hhi : m ≤ 32767) (hm : (m - (c - l)) % 65536 = 0) : encDelta mode l c = m := by
  have hrange := encDelta_range mode h
  have hres := encDelta_residue mode l c
  omega

section Samples
variable {l c : Int}

theorem sampleDiff_sub (hl : -32768 ≤ l ∧ l ≤ 32767) (hc : -32768 ≤ c ∧ c ≤ 32767) : SampleDiff (c - l) := by
  unfold SampleDiff
  omega

/-- One wrap is taken off or added past a threshold, in either mode. -/
theorem encDelta_of_gt (mode : EncDeltaMode) (h : SampleDiff (c - l)) (hw : c - l > 32768) :
    encDelta mode l c = c - l - 65536 := by
  have := h.2
  exact encDelta_eq_of_residue mode h (by omega) (by omega) (by omega)

theorem encDelta_of_lt (mode : EncDeltaMode) (h : SampleDiff (c - l)) (hw : c - l < -32768) :
    encDelta mode l c = c - l + 65536 := by
  have := h.1
  exact encDelta_eq_of_residue mode h (by omega) (by omega) (by omega)

theorem encDelta_wide_of_mem (hlo : -32768 ≤ c - l) (hhi : c - l ≤ 32768) : encDelta .wide l c = c - l := by
  rw [encDelta_wide, if_neg (by omega), if_neg (by omega)]

theorem encDelta_wrap16_of_eq (hw : c - l = 32768) : encDelta .wrap16 l c = -32768 := by
  rw [encDelta_wrap16, hw]
  decide

/-- The modes disagree at a difference of +32768 only. -/
theorem encDelta_wide_eq_wrap16 (h : SampleDiff (c - l)) (hw : c - l ≠ 32768) :
    encDelta .wide l c = encDelta .wrap16 l c := by
  rcases lt_trichotomy (c - l) 32768 with hlt | heq | hgt
  · by_cases hlo : -32768 ≤ c - l
    · rw [encDelta_wide_of_mem hlo hlt.le, encDelta_wrap16, wrapS16_of_mem hlo (by omega)]
    · rw [encDelta_of_lt .wide h (by omega), encDelta_of_lt .wrap16 h (by omega)]
  · exact absurd heq hw
  · rw [encDelta_of_gt .wide h hgt, encDelta_of_gt .wrap16 h hgt]

end Samples

/-- Settles O26: the delta's range and residue in each mode, and its value on each side of the thresholds. -/
theorem encDeltaCorrectsOneWrap : Obligations.EncDeltaCorrectsOneWrap := by
  intro l c hl1 hl2 hc1 hc2
  have h := sampleDiff_sub ⟨hl1, hl2⟩ ⟨hc1, hc2⟩
  exact ⟨encDelta_of_gt .wide h, encDelta_of_lt .wide h, fun hw => encDelta_wide_of_mem hw.1 hw.2,
    encDelta_range .wide h, wrapS16_range (c - l), encDelta_residue .wide l c, encDelta_residue .wrap16 l c,
    encDelta_wide_eq_wrap16 h,
    fun hw => ⟨(encDelta_wide_of_mem (by omega) (by omega)).trans hw, encDelta_wrap16_of_eq hw⟩⟩

/-- A movement of at most 32767 counts is the delta, though the sample that shows it is the counter mod 2^16. -/
theorem encDelta_of_movement (mode : EncDeltaMode) (l : BitVec 16) {m : Int} (hlo : -32767 ≤ m) (hhi : m ≤ 32767) :
    encDelta mode l.toInt (BitVec.ofInt 16 (l.toInt + m)).toInt = m := by
  have hres : ((BitVec.ofInt 16 (l.toInt + m)).toInt - (l.toInt + m)) % 65536 = 0 := wrapS16_residue _
  refine encDelta_eq_of_residue mode (sampleDiff_sub ?_ (wrapS16_range _)) hlo hhi (by omega)
  have := BitVec.le_toInt l
  have := BitVec.toInt_lt (x := l)
  omega

/-- Settles O28: the delta of a short movement is the movement, and the sum is taken mod 2^32. -/
theorem movementWithinBandwidthIsAddedExactly : Obligations.MovementWithinBandwidthIsAddedExactly := by
  refine ⟨fun s a l m hl hlo hhi hpolicy => ?_, fun l c hl1 hl2 hc1 hc2 => ?_⟩
  · have hnext : s.nextPos a l (BitVec.ofInt 16 (l.toInt + m)) = (s.pos.get a).toInt + m := by
      rw [State.nextPos, encDelta_of_movement _ l hlo hhi]
    have hok := not_overflows (hnext ▸ hpolicy)
    refine ⟨_, exec_encUpdate_seeded hl hok, ?_⟩
    rw [State.respondOk_pos, State.writeEnc_pos, Two.get_set_self, hnext, BitVec.ofInt_add, BitVec.ofInt_toInt]
  · have h := sampleDiff_sub ⟨hl1, hl2⟩ ⟨hc1, hc2⟩
    exact ⟨fun hw mode => encDelta_of_gt mode h hw, fun hw mode => encDelta_of_lt mode h hw⟩

/-! The velocity (R71). -/

/-- The delta in velocity units, rounded and not yet narrowed. -/
def encVelRounded (tie : VelTie) (d : Int) : Int := roundTie (d * 37) 20 tie

theorem encVel_wrap (tie : VelTie) (d : Int) : encVel tie .wrap d = wrapS 16 (encVelRounded tie d) := rfl

theorem encVel_saturate (tie : VelTie) (d : Int) :
    encVel tie .saturate d = max (-32768) (min 32767 (encVelRounded tie d)) := by
  show clampI (encVelRounded tie d) (-2 ^ (16 - 1)) (2 ^ (16 - 1) - 1) = _
  unfold clampI
  split_ifs <;> omega

theorem encVel_of_fits (tie : VelTie) (narrow : VelNarrow) {d : Int} (hlo : -32767 ≤ encVelRounded tie d)
    (hhi : encVelRounded tie d ≤ 32767) : encVel tie narrow d = encVelRounded tie d := by
  cases narrow
  · rw [encVel_wrap]
    exact wrapS16_of_mem (by omega) hhi
  · rw [encVel_saturate]
    omega

/-- `roundTie_spec` at the scale 37/20. -/
theorem encVelRounded_spec (tie : VelTie) (d : Int) :
    (-10 ≤ 20 * encVelRounded tie d - 37 * d ∧ 20 * encVelRounded tie d - 37 * d ≤ 10) ∧
    (20 * encVelRounded tie d - 37 * d = 10 ∨ 20 * encVelRounded tie d - 37 * d = -10 →
      (tie = .away → |37 * d| < |20 * encVelRounded tie d|) ∧ (tie = .even → encVelRounded tie d % 2 = 0)) := by
  have hspec := roundTie_spec (37 * d) 20 tie (by decide)
  rw [encVelRounded, mul_comm d 37]
  exact ⟨by omega, fun h => hspec.2 (by omega)⟩

/-- Settles O27: `encVelRounded_spec`; the threshold 17712 is where the product's half bound meets 16 bits. -/
theorem encVelIsTheRoundedProduct : Obligations.EncVelIsTheRoundedProduct := by
  intro d tie narrow hd1 hd2
  obtain ⟨hhalf, htie⟩ := encVelRounded_spec tie d
  refine ⟨encVelRounded tie d, hhalf, htie, ?_, fun h => ?_, ?_, ?_⟩
  · simp only [gt_iff_lt, ge_iff_le, lt_abs, le_abs]
    omega
  · rw [abs_le] at h
    exact encVel_of_fits tie narrow (by omega) (by omega)
  · rintro rfl
    exact ⟨(wrapS16_range _).1, (wrapS16_range _).2, wrapS16_residue _⟩
  · rintro rfl
    exact encVel_saturate tie d

end Sys2Proof.Machine
end

section
/-! PROOFS. The exact account of an axis (R76): every event keeps the state's position and last sample in step with it. -/

namespace Sys2Proof.Machine

/-! What an instruction does to the account of axis `a`. -/

section Account
variable {cfg : Config} {a : Axis} {g : ExactAxis} {raw : BitVec 16}

theorem ExactAxis.afterInstr_encClear : g.afterInstr cfg a (.encClear a raw) = ⟨some (rawValue raw), 0⟩ := if_pos rfl

theorem ExactAxis.afterInstr_encUpdate_unseeded (hl : g.last = none) : g.afterInstr cfg a (.encUpdate a raw) = g := by
  simp only [ExactAxis.afterInstr, hl]

theorem ExactAxis.afterInstr_encUpdate_overflow {l : Int} (hl : g.last = some l)
    (h : Overflows cfg.int32Overflow (g.sum + encDelta cfg.encDeltaMode l (rawValue raw))) :
    g.afterInstr cfg a (.encUpdate a raw) = g := by
  simp only [ExactAxis.afterInstr, hl, ne_eq, not_true_eq_false, if_false, if_pos h.symm]

theorem ExactAxis.afterInstr_encUpdate_seeded {l : Int} (hl : g.last = some l)
    (h : ¬ Overflows cfg.int32Overflow (g.sum + encDelta cfg.encDeltaMode l (rawValue raw))) :
    g.afterInstr cfg a (.encUpdate a raw) =
      ⟨some (rawValue raw), g.sum + encDelta cfg.encDeltaMode l (rawValue raw)⟩ := by
  simp only [ExactAxis.afterInstr, hl, ne_eq, not_true_eq_false, if_false, if_neg (mt And.symm h)]

/-- Only the axis's own ENC_CLEAR and ENC_UPDATE touch its account. -/
theorem ExactAxis.afterInstr_of_ne {i : Instr} (hclear : ∀ raw, i ≠ .encClear a raw)
    (hupdate : ∀ raw, i ≠ .encUpdate a raw) : g.afterInstr cfg a i = g := by
  cases i with
  | encClear b raw =>
    have hb : b ≠ a := fun hba => hclear raw (hba ▸ rfl)
    exact if_neg hb
  | encUpdate b raw =>
    have hb : b ≠ a := fun hba => hupdate raw (hba ▸ rfl)
    simp only [ExactAxis.afterInstr, ne_eq, hb, not_false_eq_true, if_true]
    split <;> rfl
  | _ => rfl

end Account

/-- `g` is the account of axis `a` in the state `s`: the same last sample, the same position mod 2^32, and under
INT32_OVERFLOW = FAULT the same position. -/
structure ExactAxis.Tracks (cfg : Config) (a : Axis) (g : ExactAxis) (s : State) : Prop where
  cfg_eq : s.cfg = cfg
  last_eq : (s.last.get a).map rawValue = g.last
  pos_eq : (s.pos.get a).toInt = wrapS 32 g.sum
  exact_of_fault : cfg.int32Overflow = .fault → (s.pos.get a).toInt = g.sum

theorem wrapS32_wrapS32_add (v w : Int) : wrapS 32 (wrapS 32 v + w) = wrapS 32 (v + w) := by
  simp only [wrapS_eq_bmod, Int.bmod_add_bmod]

theorem toInt_wrapS32 (x : Word) : wrapS 32 x.toInt = x.toInt := by
  rw [wrapS, BitVec.ofInt_toInt]

section Tracks
variable {cfg : Config} {a : Axis} {g : ExactAxis} {s t : State} {l raw : BitVec 16}

theorem ExactAxis.tracks_ofState (a : Axis) (s : State) : (ExactAxis.ofState a s).Tracks s.cfg a s :=
  ⟨rfl, rfl, (toInt_wrapS32 _).symm, fun _ => rfl⟩

theorem ExactAxis.Tracks.of_frame (h : g.Tracks cfg a s) (hcfg : t.cfg = s.cfg) (hpos : t.pos.get a = s.pos.get a)
    (hlast : t.last.get a = s.last.get a) : g.Tracks cfg a t where
  cfg_eq := hcfg.trans h.cfg_eq
  last_eq := hlast ▸ h.last_eq
  pos_eq := hpos ▸ h.pos_eq
  exact_of_fault := hpos ▸ h.exact_of_fault

/-- The state and the account agree on which samples overflow. -/
theorem ExactAxis.Tracks.overflows_iff (h : g.Tracks cfg a s) :
    Overflows s.cfg.int32Overflow (s.nextPos a l raw) ↔
      Overflows cfg.int32Overflow (g.sum + encDelta cfg.encDeltaMode (rawValue l) (rawValue raw)) := by
  obtain ⟨rfl, -, -, hexact⟩ := h
  refine and_congr_left fun hfault => ?_
  rw [State.nextPos, hexact hfault]
  rfl

/-- A successful update keeps the account: the position's new word is the new sum mod 2^32. -/
theorem ExactAxis.Tracks.writeEnc (h : g.Tracks cfg a s) (hok : ¬ Overflows s.cfg.int32Overflow (s.nextPos a l raw)) :
    ExactAxis.Tracks cfg a ⟨some (rawValue raw), g.sum + encDelta cfg.encDeltaMode (rawValue l) (rawValue raw)⟩
      (s.writeEnc a (BitVec.ofInt 32 (s.nextPos a l raw)) (some raw)) := by
  have hok' := mt h.overflows_iff.2 hok
  obtain ⟨rfl, -, hpos, -⟩ := h
  have hword : (BitVec.ofInt 32 (s.nextPos a l raw)).toInt =
      wrapS 32 (g.sum + encDelta s.cfg.encDeltaMode (rawValue l) (rawValue raw)) := by
    rw [toInt_ofInt32, State.nextPos, hpos, wrapS32_wrapS32_add]
    rfl
  refine ⟨rfl, by simp, by simpa using hword, fun hfault => ?_⟩
  obtain ⟨hlo, hhi⟩ := mem_of_not_overflows hok' hfault
  rw [State.writeEnc_pos, Two.get_set_self, hword]
  exact wrapS32_of_mem hlo hhi

theorem ExactAxis.Tracks.after_encUpdate (h : g.Tracks cfg a s) (ht : exec (.encUpdate a raw) s = .next t) :
    (g.afterInstr cfg a (.encUpdate a raw)).Tracks cfg a t := by
  have hlast := h.last_eq
  cases hl : s.last.get a with
  | none =>
    rw [hl] at hlast
    obtain rfl := Host.Outcome.next.inj ((exec_encUpdate_unseeded hl).symm.trans ht)
    rw [ExactAxis.afterInstr_encUpdate_unseeded hlast.symm]
    exact h.of_frame rfl rfl rfl
  | some l =>
    rw [hl] at hlast
    by_cases hover : Overflows s.cfg.int32Overflow (s.nextPos a l raw)
    · obtain rfl := Host.Outcome.next.inj ((exec_encUpdate_overflow hl hover).symm.trans ht)
      rw [ExactAxis.afterInstr_encUpdate_overflow hlast.symm (h.overflows_iff.1 hover)]
      exact h.of_frame rfl rfl rfl
    · obtain rfl := Host.Outcome.next.inj ((exec_encUpdate_seeded hl hover).symm.trans ht)
      rw [ExactAxis.afterInstr_encUpdate_seeded hlast.symm (mt h.overflows_iff.2 hover)]
      exact (h.writeEnc hover).of_frame rfl rfl rfl

/-- Every instruction keeps the account. -/
theorem ExactAxis.Tracks.after_exec {i : Instr} (h : g.Tracks cfg a s) (ht : exec i s = .next t) :
    (g.afterInstr cfg a i).Tracks cfg a t := by
  by_cases hclear : ∃ raw, i = .encClear a raw
  · obtain ⟨raw, rfl⟩ := hclear
    obtain rfl := Host.Outcome.next.inj ht
    rw [ExactAxis.afterInstr_encClear]
    exact ⟨h.cfg_eq, by simp, by simp [wrapS], by simp⟩
  by_cases hupdate : ∃ raw, i = .encUpdate a raw
  · obtain ⟨raw, rfl⟩ := hupdate
    exact h.after_encUpdate ht
  · have hclear := not_exists.1 hclear
    have hupdate := not_exists.1 hupdate
    obtain ⟨henc, -, -, -, -, -, hcfg, -⟩ := instructionsWriteOnlyTheirOwnElements i s t ht
    obtain ⟨hpos, hlast⟩ := henc a hclear hupdate
    rw [ExactAxis.afterInstr_of_ne hclear hupdate]
    exact h.of_frame hcfg hpos hlast

theorem ExactAxis.Tracks.after_serveFrame {f : Frame} (h : g.Tracks cfg a s) (ht : serveFrame f s = .next t) :
    (g.afterFrame cfg a f).Tracks cfg a t := by
  rcases serveFrame_cases f s with ⟨i, hd, hs⟩ | ⟨⟨e, hd⟩, hs⟩ <;> simp only [ExactAxis.afterFrame, hd]
  · exact h.after_exec (hs.symm.trans ht)
  · obtain rfl := Host.Outcome.next.inj (hs.symm.trans ht)
    exact h.of_frame rfl rfl rfl

theorem ExactAxis.Tracks.after_serveInput {i : Input} (h : g.Tracks cfg a s) (ht : serveInput i s = .next t) :
    (g.afterInput cfg a i).Tracks cfg a t := by
  cases i with
  | request f => exact h.after_serveFrame ht
  | bytes bs =>
    simp only [serveInput, h.cfg_eq] at ht
    simp only [ExactAxis.afterInput]
    cases hf : frameOfBytes cfg.frameByteOrder bs with
    | some f =>
      rw [hf] at ht
      exact h.after_serveFrame ht
    | none =>
      rw [hf] at ht
      obtain rfl := Host.Outcome.next.inj ht
      exact h
  | reset =>
    obtain rfl := Host.Outcome.next.inj ht
    exact ⟨h.cfg_eq, by cases a <;> rfl, by cases a <;> rfl, fun _ => by cases a <;> rfl⟩

/-- Every sequence of events keeps the account. -/
theorem ExactAxis.Tracks.after_serveAll {is : List Input} (h : g.Tracks cfg a s) (ht : serveAll is s = .next t) :
    (is.foldl (ExactAxis.afterInput cfg a) g).Tracks cfg a t := by
  induction is generalizing g s with
  | nil =>
    obtain rfl := Host.Outcome.next.inj ht
    exact h
  | cons i is ih =>
    obtain ⟨u, hfirst, -⟩ := serveInput_withInputs i s []
    rw [serveAll_cons is hfirst] at ht
    exact ih (h.after_serveInput hfirst) ht

end Tracks

/-- Settles O29: the run serves the events in order, and each keeps the account that the state starts with. -/
theorem positionIsTheSumOfTheDeltas : Obligations.PositionIsTheSumOfTheDeltas := by
  intro ins s t a hrun
  have hserve : serveAll ins (s.withInputs []) = .next t := (run_length_eq_serveAll ins s).symm.trans hrun
  have h := (ExactAxis.tracks_ofState a (s.withInputs [])).after_serveAll hserve
  exact ⟨h.pos_eq, h.last_eq, h.exact_of_fault⟩

end Sys2Proof.Machine
end

section
/-! PROOFS. The velocity controller: its frames, its three operations, the range of its output and its conversions (R90 to
R95). -/

open Sys2Proof.Claims

namespace Sys2Proof

/-- The frames of the operations that select neither axis nor motor and have no mode (R52, R53). -/
theorem Frame.make_false_false (opc : BitVec 8) (a b c : Word) :
    Frame.make opc false false a b c = frameOf opc 0 0 a b c := rfl

end Sys2Proof

namespace Sys2Proof.Machine

/-- Settles O30: the encoding is the written-out frame, and under binary32 `f32_from_bits` is the identity. -/
theorem vpidSetParamsStoresTheGains : Obligations.VpidSetParamsStoresTheGains := by
  refine fun kp ki kd s => ⟨fun f => ?_, rfl, fun hfp => ?_⟩
  · rw [decode_eq_ok_iff_eq_encode, encode, Frame.make_false_false]
    rfl
  · simp only [exec, execVpidSetParams, gainValue, hfp, f32FromBits_binary32]
    rfl

/-- Settles O31: the encoding is the written-out frame, and the effect is one write and the response. -/
theorem vpidResetZeroesTheHistory : Obligations.VpidResetZeroesTheHistory := by
  refine ⟨fun f => ?_, fun s => rfl⟩
  rw [decode_eq_ok_iff_eq_encode, encode, Frame.make_false_false]
  rfl

/-! VPID_COMPUTE, one equation for each of its three outcomes (R92). -/

/-- The three velocity gains are set, to these values. -/
structure State.HasVpidGains (s : State) (kp ki kd : F32) : Prop where
  vkp : s.vkp = some kp
  vki : s.vki = some ki
  vkd : s.vkd = some kd

/-- The accumulator with the increment added, not yet clamped. -/
def State.vpidSum (s : State) (kp ki kd : F32) (t y : BitVec 16) : F32 :=
  f32Add s.cfg.fpArith s.acc
    (pidIncrement s.cfg.fpArith kp ki kd (t.toInt - y.toInt) s.e0.toInt s.e1.toInt)

/-- A value clamped to the output's range, under the state's arithmetic. -/
def State.vpidClamp (s : State) (sum : F32) : F32 := clampF s.cfg.fpArith sum 0xC4480000#32 0x44480000#32

/-- The state after a VPID_COMPUTE whose sum is `sum`, no NaN (R92). -/
def State.vpidUpdate (s : State) (t y : BitVec 16) (sum : F32) : State :=
  (s.writeVpid (BitVec.ofInt 32 (t.toInt - y.toInt)) s.e0 s.e1 (s.vpidClamp sum)).respondOk
    (BitVec.ofInt 32 (f32Trunc0 s.cfg.fpArith (s.vpidClamp sum))) (f32Bits s.cfg.fpArith (s.vpidClamp sum))

section Compute
variable {s u : State} {kp ki kd sum : F32} {t y : BitVec 16}

@[simp] theorem State.vpidUpdate_acc : (s.vpidUpdate t y sum).acc = s.vpidClamp sum := rfl

@[simp] theorem State.vpidUpdate_responses : (s.vpidUpdate t y sum).responses = s.responses ++
    [⟨.ok, BitVec.ofInt 32 (f32Trunc0 s.cfg.fpArith (s.vpidClamp sum)), f32Bits s.cfg.fpArith (s.vpidClamp sum)⟩] := rfl

theorem State.vpidGains_unset_or_set (s : State) :
    (s.vkp = none ∨ s.vki = none ∨ s.vkd = none) ∨ ∃ kp ki kd, s.HasVpidGains kp ki kd := by
  by_cases h : s.vkp = none ∨ s.vki = none ∨ s.vkd = none
  · exact .inl h
  · simp only [not_or, Option.ne_none_iff_exists'] at h
    obtain ⟨⟨kp, hkp⟩, ⟨ki, hki⟩, kd, hkd⟩ := h
    exact .inr ⟨kp, ki, kd, hkp, hki, hkd⟩

theorem exec_vpidCompute_unset (h : s.vkp = none ∨ s.vki = none ∨ s.vkd = none) :
    exec (.vpidCompute t y) s = .next (s.raise .gainsUnset) := by
  simp only [exec, execVpidCompute]
  split
  · next hkp hki hkd => simp [hkp, hki, hkd] at h
  · rfl

theorem exec_vpidCompute_nan (hg : s.HasVpidGains kp ki kd)
    (hn : f32IsNaN s.cfg.fpArith (s.vpidSum kp ki kd t y) = true) :
    exec (.vpidCompute t y) s = .next (s.raise .numeric) := by
  rw [State.vpidSum] at hn
  simp only [exec_vpidCompute_eq t y s hg.vkp hg.vki hg.vkd, hn]

theorem exec_vpidCompute_ok (hg : s.HasVpidGains kp ki kd)
    (hn : f32IsNaN s.cfg.fpArith (s.vpidSum kp ki kd t y) = false) :
    exec (.vpidCompute t y) s = .next (s.vpidUpdate t y (s.vpidSum kp ki kd t y)) := by
  rw [State.vpidSum] at hn
  simp only [exec_vpidCompute_eq t y s hg.vkp hg.vki hg.vkd, hn]
  rfl

/-- A VPID_COMPUTE that answered OK is the third outcome. -/
theorem exec_vpidCompute_inv {r0 r1 : Word} (h : exec (.vpidCompute t y) s = .next u)
    (hr : u.responses = s.responses ++ [⟨.ok, r0, r1⟩]) :
    ∃ kp ki kd, s.HasVpidGains kp ki kd ∧ f32IsNaN s.cfg.fpArith (s.vpidSum kp ki kd t y) = false ∧
      u = s.vpidUpdate t y (s.vpidSum kp ki kd t y) := by
  have not_raise {e : ErrorCode} (he : exec (.vpidCompute t y) s = .next (s.raise e)) : False := by
    obtain rfl := Host.Outcome.next.inj (he.symm.trans h)
    simp at hr
  rcases s.vpidGains_unset_or_set with hunset | ⟨kp, ki, kd, hg⟩
  · exact (not_raise (exec_vpidCompute_unset hunset)).elim
  · cases hn : f32IsNaN s.cfg.fpArith (s.vpidSum kp ki kd t y) with
    | true => exact (not_raise (exec_vpidCompute_nan hg hn)).elim
    | false => exact ⟨kp, ki, kd, hg, hn, Host.Outcome.next.inj (h.symm.trans (exec_vpidCompute_ok hg hn))⟩

end Compute

/-- Settles O32: one equation of VPID_COMPUTE for each outcome. -/
theorem vpidComputeAddsTheIncrement : Obligations.VpidComputeAddsTheIncrement := by
  refine fun t y s => ⟨fun f => ?_, exec_vpidCompute_unset, fun kp ki kd hkp hki hkd =>
    ⟨exec_vpidCompute_nan ⟨hkp, hki, hkd⟩, exec_vpidCompute_ok ⟨hkp, hki, hkd⟩⟩⟩
  rw [decode_eq_ok_iff_eq_encode, encode, Frame.make_false_false, setWidth32_eq_append, setWidth32_eq_append]
  rfl

/-- Settles O35: the increment of the gains and the history, which a compute that answers OK adds to its own ACC. -/
theorem incrementIgnoresTheAccumulator : Obligations.IncrementIgnoresTheAccumulator := by
  intro t y s₁ s₂ hfp hkp hki hkd he0 he1
  have adds (s u : State) (r0 r1 : Word) (h : exec (.vpidCompute t y) s = .next u)
      (hr : u.responses = s.responses ++ [⟨.ok, r0, r1⟩]) :
      u.acc = s.vpidClamp (s.vpidSum (s.vkp.getD 0) (s.vki.getD 0) (s.vkd.getD 0) t y) := by
    obtain ⟨kp, ki, kd, hg, -, rfl⟩ := exec_vpidCompute_inv h hr
    simp [hg.vkp, hg.vki, hg.vkd]
  refine ⟨pidIncrement s₁.cfg.fpArith (s₁.vkp.getD 0) (s₁.vki.getD 0) (s₁.vkd.getD 0) (t.toInt - y.toInt)
    s₁.e0.toInt s₁.e1.toInt, adds s₁, ?_⟩
  rw [hfp, hkp, hki, hkd, he0, he1]
  exact adds s₂

/-! The clamp and the output (R93). -/

/-- The clamp of a value that is no NaN, between the patterns of ±lim. -/
theorem isClamped_clampF {lim : Int} {x lo hi : F32} (hlim : 0 ≤ lim) (hhi : b32Units hi = lim * 2 ^ 149)
    (hlo : b32Units lo = -(lim * 2 ^ 149)) (fhi : b32IsFinite hi = true) (flo : b32IsFinite lo = true)
    (hn : b32IsNaN x = false) : isClamped lim lo hi x (clampF .binary32 x lo hi) := by
  have hle : (0 : Int) ≤ lim * 2 ^ 149 := by positivity
  have hbelow := (b32Units_finite_lt fhi).1
  rw [clampF_binary32 hn (b32IsNaN_of_finite flo) (b32IsNaN_of_finite fhi)]
  refine ⟨?_, ?_, ?_⟩
  · rintro ⟨-, habs⟩
    obtain ⟨h1, h2⟩ := abs_le.1 habs
    rw [if_neg (by omega), if_neg (by omega)]
  · rintro (rfl | ⟨-, h⟩)
    · exact if_pos (b32Units_finite_lt fhi).2
    · exact if_pos (by omega)
  · rintro (rfl | ⟨-, h⟩)
    · rw [if_neg hbelow.asymm, if_pos (b32Units_finite_lt flo).1]
    · rw [if_neg (by omega), if_pos (by omega)]

theorem isClamped_clamp800 {x : F32} (hn : b32IsNaN x = false) :
    isClamped 800 0xC4480000#32 0x44480000#32 x (clampF .binary32 x 0xC4480000#32 0x44480000#32) :=
  isClamped_clampF (by decide) (by decide) (by decide) (by decide) (by decide) hn

/-- A truncation in a 32-bit range keeps its value in the result word. -/
theorem toInt_ofInt_b32Trunc0 {lim : Int} {c : F32} (hlim : lim < 2 ^ 31) (hc : finiteWithin lim c) :
    (BitVec.ofInt 32 (b32Trunc0 c)).toInt = b32Trunc0 c := by
  obtain ⟨hlo, hhi⟩ := b32Trunc0_range hc
  rw [toInt_ofInt32, wrapS32_of_mem (by omega) (by omega)]

section Binary32
variable {s : State} (hfp : s.cfg.fpArith = .binary32)
include hfp

theorem State.vpidClamp_binary32 (sum : F32) :
    s.vpidClamp sum = clampF .binary32 sum 0xC4480000#32 0x44480000#32 := by
  rw [State.vpidClamp, hfp]

theorem State.vpidUpdate_responses_binary32 (t y : BitVec 16) (sum : F32) :
    (s.vpidUpdate t y sum).responses = s.responses ++
      [⟨.ok, BitVec.ofInt 32 (b32Trunc0 (s.vpidClamp sum)), s.vpidClamp sum⟩] := by
  rw [State.vpidUpdate_responses, hfp]
  rfl

theorem State.vpidSum_binary32 (kp ki kd : F32) (t y : BitVec 16) : s.vpidSum kp ki kd t y =
    b32Add s.acc (pidIncrement .binary32 kp ki kd (t.toInt - y.toInt) s.e0.toInt s.e1.toInt) := by
  rw [State.vpidSum, hfp]
  rfl

theorem exec_vpidCompute_ok_binary32 {kp ki kd : F32} (hg : s.HasVpidGains kp ki kd) {t y : BitVec 16}
    (hn : b32IsNaN (s.vpidSum kp ki kd t y) = false) :
    exec (.vpidCompute t y) s = .next (s.vpidUpdate t y (s.vpidSum kp ki kd t y)) :=
  exec_vpidCompute_ok hg (by rw [hfp]; exact hn)

end Binary32

/-- Settles O33: ACC is a clamp of the sum, and the output is its truncation. -/
theorem vpidOutputStaysInRange : Obligations.VpidOutputStaysInRange := by
  refine fun t y s hfp => ⟨fun u r0 r1 h hr => ?_, fun kp ki kd hkp hki hkd hn => ?_⟩
  · obtain ⟨kp, ki, kd, -, hn, rfl⟩ := exec_vpidCompute_inv h hr
    rw [hfp] at hn
    rw [State.vpidUpdate_responses_binary32 hfp] at hr
    obtain ⟨-, rfl, rfl⟩ := Response.mk.inj (List.singleton_inj.1 (List.append_cancel_left hr))
    have hc := finiteWithin_clamp800 hn
    rw [← State.vpidClamp_binary32 hfp] at hc
    obtain ⟨hlo, hhi⟩ := b32Trunc0_range hc
    rw [toInt_ofInt_b32Trunc0 (by decide) hc]
    exact ⟨hlo, hhi, hc, rfl, rfl⟩
  · have hsum := State.vpidSum_binary32 hfp kp ki kd t y
    refine ⟨_, _, exec_vpidCompute_ok_binary32 hfp ⟨hkp, hki, hkd⟩ (hsum ▸ hn),
      State.vpidUpdate_responses_binary32 hfp t y _, ?_⟩
    rw [State.vpidUpdate_acc, State.vpidClamp_binary32 hfp, hsum]
    exact isClamped_clamp800 hn

/-! The first compute (R94). -/

/-- Adding to +0.0 can only turn -0.0 into +0.0, and both truncate to 0. -/
theorem b32Trunc0_clamp800_zero_add {x : F32} (hn : b32IsNaN x = false) :
    b32Trunc0 (clampF .binary32 (b32Add 0 x) 0xC4480000#32 0x44480000#32) =
      b32Trunc0 (clampF .binary32 x 0xC4480000#32 0x44480000#32) := by
  by_cases h0 : x = 0x80000000#32
  · subst h0
    decide
  · rw [b32Add_zero_left hn h0]

theorem b32IsNaN_zero_add {x : F32} (hn : b32IsNaN x = false) : b32IsNaN (b32Add 0 x) = false := by
  have zero_not_nan : b32IsNaN 0 = false := by decide
  have zero_not_inf : b32IsInf 0 = false := by decide
  rw [Bool.eq_false_iff, ne_eq, b32IsNaN_b32Add_iff]
  simp only [zero_not_nan, zero_not_inf, hn, Bool.false_eq_true, false_and, or_self, not_false_eq_true]

/-- From a zero history every gain multiplies the one error. -/
theorem pidIncrement_zero_history (fp : FpArith) (kp ki kd : F32) (n : Int) : pidIncrement fp kp ki kd n 0 0 =
    f32Add fp (f32Add fp (f32Mul fp kp (f32OfInt fp n)) (f32Mul fp ki (f32OfInt fp n)))
      (f32Mul fp kd (f32OfInt fp n)) := by
  simp only [pidIncrement, sub_zero, mul_zero, add_zero]

/-- Settles O34: all three factors are the one error, and the sum is added to +0.0. -/
theorem computeFromZeroHistory : Obligations.ComputeFromZeroHistory := by
  intro t y s kp ki kd hfp he0 he1 hacc hkp hki hkd e inc hn
  have hsum : s.vpidSum kp ki kd t y = b32Add 0 inc := by
    have hzero : (0 : BitVec 32).toInt = 0 := BitVec.toInt_zero
    rw [State.vpidSum_binary32 hfp, hacc, he0, he1, hzero, pidIncrement_zero_history]
    rfl
  refine ⟨_, exec_vpidCompute_ok_binary32 hfp ⟨hkp, hki, hkd⟩ (hsum ▸ b32IsNaN_zero_add hn), ?_⟩
  rw [State.vpidUpdate_responses_binary32 hfp, State.vpidUpdate_acc, State.vpidClamp_binary32 hfp, hsum,
    b32Trunc0_clamp800_zero_add hn]

/-! The conversions (R92, R111). -/

/-- The three integers of the increment, for errors in range. -/
theorem abs_le_of_errors {n0 n1 n2 n : Int} (h0 : |n0| ≤ 65535) (h1 : |n1| ≤ 65535) (h2 : |n2| ≤ 65535)
    (hn : n ∈ [n0 - n1, n0, n0 - 2 * n1 + n2]) : |n| ≤ 262140 := by
  simp only [List.mem_cons, List.not_mem_nil, or_false] at hn
  rw [abs_le] at *
  omega

/-- Every 32-bit integer converts to a nearest value. -/
theorem isNearest_b32OfInt {i : Int} (h : |i| ≤ 2 ^ 31) : isNearest (i * 2 ^ 149) 1 (b32OfInt i) := by
  refine isNearest_b32Round one_pos ?_ ?_
  · simp only [decide_eq_true_eq, b32One]
    split <;> omega
  · have hpos : |i * 2 ^ 149| = |i| * 2 ^ 149 := by rw [abs_mul, abs_of_nonneg (by positivity : (0 : Int) ≤ 2 ^ 149)]
    rw [hpos, overflowBound_eq]
    omega

/-- The new error is a difference of two 16-bit values. -/
theorem abs_toInt_sub_toInt_le (t y : BitVec 16) : |t.toInt - y.toInt| ≤ 65535 := by
  have ht0 := t.le_toInt
  have ht1 := t.toInt_lt
  have hy0 := y.le_toInt
  have hy1 := y.toInt_lt
  rw [abs_le]
  omega

/-- Settles O56: the invariant bounds the errors, and 262140 is below 2^24. -/
theorem vpidIntegersConvertExactly : Obligations.VpidIntegersConvertExactly := by
  refine ⟨?_, fun i => b32OfInt_exact, fun i hlo hhi => isNearest_b32OfInt (abs_le.2 ⟨hlo, by omega⟩), by decide⟩
  intro s t y hinv n0 n1 n2 n hn
  have hbound : |n| ≤ 262140 := abs_le_of_errors (abs_toInt_sub_toInt_le t y) (abs_le.2 hinv.e0_range)
    (abs_le.2 hinv.e1_range) hn
  exact ⟨hbound, b32OfInt_exact (hbound.trans_lt (by decide))⟩

end Sys2Proof.Machine
end

section
/-! PROOFS. The position controller: its frames, its two operations, the range of its output and doubling kp (R110 to
R112). -/

open Sys2Proof.Claims

namespace Sys2Proof.Machine

/-- Settles O37: the encoding is the written-out frame, and under binary32 `f32_from_bits` is the identity. -/
theorem ppidSetParamsStoresOnlyKp : Obligations.PpidSetParamsStoresOnlyKp := by
  refine fun kp ki kd s => ⟨fun f => ?_, rfl, fun hfp => ?_⟩
  · rw [decode_eq_ok_iff_eq_encode, encode, Frame.make_false_false]
    rfl
  · simp only [exec, execPpidSetParams, gainValue, hfp, f32FromBits_binary32]
    rfl

/-! PPID_COMPUTE, one equation for each of its four outcomes (R111). -/

/-- Wrapping into 32 bits needs no test of the range. -/
theorem ite_wrapS32 (v : Int) : (if v < -2 ^ 31 ∨ v > 2 ^ 31 - 1 then wrapS 32 v else v) = wrapS 32 v := by
  split
  · rfl
  · rw [wrapS32_of_mem (by omega) (by omega)]

theorem int32Result_of_not_overflows {policy : Int32Overflow} {v : Int} (h : ¬ Overflows policy v) :
    int32Result policy v = some (wrapS 32 v) := by
  obtain ⟨p, hp⟩ := Option.ne_none_iff_exists'.1 (mt int32Result_eq_none.1 h)
  rw [hp, (int32Result_eq_some hp).1]

/-- The error scaled by `kp`, not yet clamped. -/
def State.ppidProduct (s : State) (kp : F32) (t y : Word) : F32 :=
  f32Mul s.cfg.fpArith kp (f32OfInt s.cfg.fpArith (wrapS 32 (t.toInt - y.toInt)))

/-- The state after a PPID_COMPUTE whose product is `x`, no NaN: only a response is added (R111). -/
def State.ppidAnswer (s : State) (x : F32) : State :=
  s.respondOk (BitVec.ofInt 32 (f32Trunc0 s.cfg.fpArith (clampF s.cfg.fpArith x 0xC2480000#32 0x42480000#32))) 0

section Compute
variable {s u : State} {kp x : F32} {t y : Word}

theorem exec_ppidCompute_unset (h : s.pkp = none) : exec (.ppidCompute t y) s = .next (s.raise .gainsUnset) := by
  simp only [exec, execPpidCompute, h]

theorem exec_ppidCompute_overflow (hkp : s.pkp = some kp)
    (h : Overflows s.cfg.int32Overflow (t.toInt - y.toInt)) :
    exec (.ppidCompute t y) s = .next (s.raise .overflow) := by
  simp only [exec_ppidCompute_eq t y s hkp, int32Result_eq_none.2 h]

theorem exec_ppidCompute_nan (hkp : s.pkp = some kp) (h : ¬ Overflows s.cfg.int32Overflow (t.toInt - y.toInt))
    (hn : f32IsNaN s.cfg.fpArith (s.ppidProduct kp t y) = true) :
    exec (.ppidCompute t y) s = .next (s.raise .numeric) := by
  rw [State.ppidProduct] at hn
  simp only [exec_ppidCompute_eq t y s hkp, int32Result_of_not_overflows h, hn]

theorem exec_ppidCompute_ok (hkp : s.pkp = some kp) (h : ¬ Overflows s.cfg.int32Overflow (t.toInt - y.toInt))
    (hn : f32IsNaN s.cfg.fpArith (s.ppidProduct kp t y) = false) :
    exec (.ppidCompute t y) s = .next (s.ppidAnswer (s.ppidProduct kp t y)) := by
  rw [State.ppidProduct] at hn
  simp only [exec_ppidCompute_eq t y s hkp, int32Result_of_not_overflows h, hn]
  rfl

/-- A PPID_COMPUTE that answered OK is the fourth outcome. -/
theorem exec_ppidCompute_inv {r0 r1 : Word} (h : exec (.ppidCompute t y) s = .next u)
    (hr : u.responses = s.responses ++ [⟨.ok, r0, r1⟩]) :
    ∃ kp, f32IsNaN s.cfg.fpArith (s.ppidProduct kp t y) = false ∧ u = s.ppidAnswer (s.ppidProduct kp t y) := by
  have not_raise {e : ErrorCode} (he : exec (.ppidCompute t y) s = .next (s.raise e)) : False := by
    obtain rfl := Host.Outcome.next.inj (he.symm.trans h)
    simp at hr
  cases hkp : s.pkp with
  | none => exact (not_raise (exec_ppidCompute_unset hkp)).elim
  | some kp =>
    by_cases hov : Overflows s.cfg.int32Overflow (t.toInt - y.toInt)
    · exact (not_raise (exec_ppidCompute_overflow hkp hov)).elim
    cases hn : f32IsNaN s.cfg.fpArith (s.ppidProduct kp t y) with
    | true => exact (not_raise (exec_ppidCompute_nan hkp hov hn)).elim
    | false => exact ⟨kp, hn, Host.Outcome.next.inj (h.symm.trans (exec_ppidCompute_ok hkp hov hn))⟩

end Compute

/-- Settles O38: one equation of PPID_COMPUTE for each outcome. -/
theorem ppidComputeScalesTheError : Obligations.PpidComputeScalesTheError := by
  refine fun t y s => ⟨fun f => ?_, exec_ppidCompute_unset, fun kp hkp => ?_⟩
  · rw [decode_eq_ok_iff_eq_encode, encode, Frame.make_false_false]
    rfl
  · simp only [ite_wrapS32]
    exact ⟨exec_ppidCompute_overflow hkp, exec_ppidCompute_nan hkp, exec_ppidCompute_ok hkp⟩

/-! The clamp and the output (R112). -/

theorem isClamped_clamp50 {x : F32} (hn : b32IsNaN x = false) :
    isClamped 50 0xC2480000#32 0x42480000#32 x (clampF .binary32 x 0xC2480000#32 0x42480000#32) :=
  isClamped_clampF (by decide) (by decide) (by decide) (by decide) (by decide) hn

section Binary32
variable {s : State} (hfp : s.cfg.fpArith = .binary32)
include hfp

theorem State.ppidProduct_binary32 (kp : F32) (t y : Word) :
    s.ppidProduct kp t y = b32Mul kp (b32OfInt (wrapS 32 (t.toInt - y.toInt))) := by
  rw [State.ppidProduct, hfp]
  rfl

theorem State.ppidAnswer_binary32 (x : F32) : s.ppidAnswer x =
    s.respondOk (BitVec.ofInt 32 (b32Trunc0 (clampF .binary32 x 0xC2480000#32 0x42480000#32))) 0 := by
  rw [State.ppidAnswer, hfp]
  rfl

end Binary32

/-- Settles O39: the output is the truncation of a clamp of the product. -/
theorem ppidOutputStaysInRange : Obligations.PpidOutputStaysInRange := by
  refine fun t y s hfp => ⟨fun u r0 r1 h hr => ?_, fun kp hkp => ?_⟩
  · obtain ⟨kp, hn, rfl⟩ := exec_ppidCompute_inv h hr
    rw [hfp] at hn
    rw [State.ppidAnswer_binary32 hfp] at hr
    obtain ⟨-, rfl, rfl⟩ := Response.mk.inj (List.singleton_inj.1 (List.append_cancel_left hr))
    have hc := finiteWithin_clamp50 hn
    obtain ⟨hlo, hhi⟩ := b32Trunc0_range hc
    rw [toInt_ofInt_b32Trunc0 (by decide) hc]
    exact ⟨hlo, hhi, rfl⟩
  · simp only [ite_wrapS32, ← State.ppidProduct_binary32 hfp]
    intro hov hn
    have hok := exec_ppidCompute_ok hkp hov (by rw [hfp]; exact hn)
    rw [State.ppidAnswer_binary32 hfp] at hok
    exact ⟨_, _, isClamped_clamp50 hn, toInt_ofInt_b32Trunc0 (by decide) (finiteWithin_clamp50 hn), hok⟩

/-! Doubling kp (R112). -/

/-- Doubling a magnitude whose rounding is normal, and doubled is finite, doubles its rounding. -/
theorem magOf_b32RoundBits_double {num den : Nat} (hd : 0 < den) (hnormal : 2 ^ 23 ≤ num / den)
    (hfinite : 2 * magOf (b32RoundBits num den) < magOf b32InfBits) :
    magOf (b32RoundBits (2 * num) den) = 2 * magOf (b32RoundBits num den) := by
  have hbits : b32RoundBits num den = b32Nearest num den := by
    rw [b32RoundBits_eq _ _ hd] at hfinite ⊢
    refine Nat.min_eq_left (le_of_not_ge fun hinf => ?_)
    rw [Nat.min_eq_right hinf] at hfinite
    omega
  have hdouble := (b32Nearest_double num den hd hnormal).2
  rw [hbits, ← hdouble, magOf_strictMono.lt_iff_lt] at hfinite
  rw [hbits, ← hdouble, b32RoundBits_eq _ _ hd, Nat.min_eq_left hfinite.le]

theorem b32Mag_double {x x2 : F32} (h : b32Units x2 = 2 * b32Units x) : b32Mag x2 = 2 * b32Mag x := by
  rw [← natAbs_b32Units, ← natAbs_b32Units, h, Int.natAbs_mul]
  rfl

theorem b32Sign_double {x x2 : F32} (h : b32Units x2 = 2 * b32Units x) (h0 : b32Units x ≠ 0) :
    b32Sign x2 = b32Sign x := by
  rcases lt_or_gt_of_ne h0 with hneg | hpos
  · rw [b32Sign_of_units_neg hneg, b32Sign_of_units_neg (by omega)]
  · rw [b32Sign_of_units_pos hpos, b32Sign_of_units_pos (by omega)]

theorem b32Units_b32Round (neg : Bool) (num den : Nat) : b32Units (b32Round neg num den) =
    if neg then -(magOf (b32RoundBits num den) : Int) else (magOf (b32RoundBits num den) : Int) :=
  b32Units_b32Signed (b32RoundBits_lt num den)

theorem b32Units_b32Round_zero (neg : Bool) {den : Nat} (hd : 0 < den) : b32Units (b32Round neg 0 den) = 0 := by
  have hbits := b32RoundBits_exact (m := 0) hd (Nat.zero_le _)
  rw [show magOf 0 = 0 from rfl, zero_mul] at hbits
  rw [b32Units_b32Round, hbits]
  cases neg <;> rfl

section Double
variable {x x2 y : F32} (fx : b32IsFinite x = true) (fx2 : b32IsFinite x2 = true) (fy : b32IsFinite y = true)
  (h2 : b32Units x2 = 2 * b32Units x)
include fx fx2 fy h2

theorem b32Units_b32Mul_double_zero (hzero : b32Mag x * b32Mag y = 0) :
    b32Units (b32Mul x y) = 0 ∧ b32Units (b32Mul x2 y) = 0 := by
  rw [b32Mul_finite fx fy, b32Mul_finite fx2 fy, b32Mag_double h2, mul_assoc, hzero, mul_zero]
  exact ⟨b32Units_b32Round_zero _ b32One_pos, b32Units_b32Round_zero _ b32One_pos⟩

theorem b32Units_b32Mul_double_normal (hnormal : 2 ^ 172 ≤ b32Mag x * b32Mag y)
    (hfinite : 2 * b32Mag (b32Mul x y) < magOf b32InfBits) :
    b32Units (b32Mul x2 y) = 2 * b32Units (b32Mul x y) := by
  have hsign : b32Sign x2 = b32Sign x := b32Sign_double h2 fun h0 => by
    rw [(b32Mag_eq_zero_iff x).2 h0, zero_mul] at hnormal
    omega
  have hquot : 2 ^ 23 ≤ b32Mag x * b32Mag y / b32One := by
    rw [Nat.le_div_iff_mul_le b32One_pos]
    exact hnormal
  rw [b32Mul_finite fx fy, b32Mag_eq, b32Round, b32Signed_low (b32RoundBits_lt _ _)] at hfinite
  rw [b32Mul_finite fx fy, b32Mul_finite fx2 fy, hsign, b32Mag_double h2, mul_assoc, b32Units_b32Round,
    b32Units_b32Round, magOf_b32RoundBits_double b32One_pos hquot hfinite]
  split <;> omega

/-- Without overflow or underflow, doubling a factor doubles the product exactly. -/
theorem b32Units_b32Mul_double (hflow : b32Mag x * b32Mag y = 0 ∨ 2 ^ 172 ≤ b32Mag x * b32Mag y)
    (hfinite : 2 * b32Mag (b32Mul x y) < magOf b32InfBits) :
    b32Units (b32Mul x2 y) = 2 * b32Units (b32Mul x y) := by
  rcases hflow with hzero | hnormal
  · obtain ⟨h, h'⟩ := b32Units_b32Mul_double_zero fx fx2 fy h2 hzero
    rw [h, h', mul_zero]
  · exact b32Units_b32Mul_double_normal fx fx2 fy h2 hnormal hfinite

end Double

theorem b32IsNaN_b32Mul_finite {x y : F32} (hx : b32IsFinite x = true) (hy : b32IsFinite y = true) :
    b32IsNaN (b32Mul x y) = false := by
  rw [b32Mul_finite hx hy]
  exact b32IsNaN_b32Round _ _ _

/-- A value in the output's range is its own clamp. -/
theorem clamp50_of_abs_le {x : F32} (hn : b32IsNaN x = false) (h : |b32Units x| ≤ 50 * 2 ^ 149) :
    clampF .binary32 x 0xC2480000#32 0x42480000#32 = x := by
  have hhi : b32Units 0x42480000#32 = 50 * 2 ^ 149 := by decide
  have hlo : b32Units 0xC2480000#32 = -(50 * 2 ^ 149) := by decide
  obtain ⟨h1, h2⟩ := abs_le.1 h
  rw [clampF_binary32 hn (by decide) (by decide), hhi, hlo, if_neg (by omega), if_neg (by omega)]

/-- Truncation of a value in units of 2^-149 doubles with it exactly when its fraction is below one half. -/
theorem tdiv_two_mul_iff (u : Int) :
    (2 * u).tdiv (2 ^ 149) = 2 * u.tdiv (2 ^ 149) ↔ 2 * (|u| % 2 ^ 149) < 2 ^ 149 := by
  have of_nonneg (v : Int) (hv : 0 ≤ v) :
      (2 * v).tdiv (2 ^ 149) = 2 * v.tdiv (2 ^ 149) ↔ 2 * (v % 2 ^ 149) < 2 ^ 149 := by
    rw [Int.tdiv_eq_ediv_of_nonneg hv, Int.tdiv_eq_ediv_of_nonneg (by omega)]
    omega
  rcases le_total 0 u with hu | hu
  · rw [abs_of_nonneg hu, of_nonneg u hu]
  · rw [abs_of_nonpos hu, ← of_nonneg (-u) (by omega), mul_neg, Int.neg_tdiv, Int.neg_tdiv, mul_neg, neg_inj]

/-- Settles O40: rounding commutes with doubling, neither product is clamped, and truncation is `tdiv` by 2^149. -/
theorem doublingKpDoublesTheProduct : Obligations.DoublingKpDoublesTheProduct := by
  intro kp kp2 e fkp fkp2 h2 hlo hhi x x2 out out2 hflow hlim
  have fe : b32IsFinite (b32OfInt e) = true := (isNearest_b32OfInt (abs_le.2 ⟨hlo, by omega⟩)).1
  have hfinite : 2 * b32Mag x < magOf b32InfBits := by
    rw [Int.abs_eq_natAbs, natAbs_b32Units] at hlim
    rw [magOf_infBits]
    omega
  have hx2 : b32Units x2 = 2 * b32Units x := b32Units_b32Mul_double fkp fkp2 fe h2 hflow hfinite
  have hout : out = (b32Units x).tdiv (2 ^ 149) :=
    congrArg b32Trunc0 (clamp50_of_abs_le (b32IsNaN_b32Mul_finite fkp fe) (by omega))
  have hout2 : out2 = (b32Units x2).tdiv (2 ^ 149) :=
    congrArg b32Trunc0 (clamp50_of_abs_le (b32IsNaN_b32Mul_finite fkp2 fe)
      (by rw [hx2, abs_mul]; exact hlim))
  refine ⟨hx2, ?_⟩
  rw [hout, hout2, hx2]
  exact tdiv_two_mul_iff _

end Sys2Proof.Machine
end

section
/-! PROOFS. The actuation gate: its frame, its one operation, and what its shaping and its direction lines give (R120 to
R124). -/

open Sys2Proof.Claims

namespace Sys2Proof

/-- The frame of GATE_APPLY: the motor in SEL, the mode in MODE, the command in A (R52 to R54). -/
theorem Frame.make_selOfIdx_bitOfMode (opc : BitVec 8) (m : Motor) (md : SysMode) (a : Word) :
    Frame.make opc (selOfIdx m) (bitOfMode md) a 0 0 = frameOf opc (selBit m) (modeBit md) a 0 0 := by
  cases m <;> cases md <;> rfl

end Sys2Proof

namespace Sys2Proof.Machine

theorem dirWord_eq_append (dira dirb : Bool) :
    dirWord dira dirb = 0#30 ++ BitVec.ofBool dira ++ BitVec.ofBool dirb := by
  cases dira <;> cases dirb <;> rfl

/-- Settles O41: the encoding is the written-out frame, and the effect is one write and the response. -/
theorem gateApplyDrivesTheMotor : Obligations.GateApplyDrivesTheMotor := by
  refine fun m md cmd s => ⟨fun f => ?_, ?_⟩
  · rw [decode_eq_ok_iff_eq_encode, encode, Frame.make_selOfIdx_bitOfMode]
    rfl
  · simp only [exec, execGateApply, dirWord_eq_append, setWidth32_eq_append]
    rfl

/-! The shaped command (R120). -/

/-- A symmetric clamp around a dead-zone that it does not reach into. -/
theorem deadZone_clampI {width lim : Int} (h0 : 0 < width) (hle : width ≤ lim) (c : Int) :
    deadZone width (clampI c (-lim) lim) =
      if |c| < width then 0 else if c > lim then lim else if c < -lim then -lim else c := by
  rw [deadZone_eq, clampI]
  simp only [Int.abs_eq_natAbs]
  split_ifs <;> omega

/-- A clamp inside a wider one is the only one that matters. -/
theorem clampI_clampI {inner outer : Int} (h0 : 0 ≤ inner) (hle : inner ≤ outer) (c : Int) :
    clampI (clampI c (-outer) outer) (-inner) inner = clampI c (-inner) inner := by
  unfold clampI
  split_ifs <;> omega

/-- Settles O42: the global clamp does not show through the secondary one, and each mode is one clamp and one dead-zone. -/
theorem gateShapeClampsThenZeroes : Obligations.GateShapeClampsThenZeroes := by
  refine fun cmd => ⟨?_, ?_⟩
  · rw [gateShape_vc]
    exact deadZone_clampI (by decide) (by decide) cmd
  · rw [gateShape_pf, clampI_clampI (by decide) (by decide)]
    exact deadZone_clampI (by decide) (by decide) cmd

theorem gateShape_vc_of_small {cmd : Int} (h : |cmd| < 30) : gateShape cmd .vc = 0 := by
  rw [(gateShapeClampsThenZeroes cmd).1, if_pos h]

theorem gateShape_pf_of_small {cmd : Int} (h : |cmd| < 120) : gateShape cmd .pf = 0 := by
  rw [(gateShapeClampsThenZeroes cmd).2, if_pos h]

theorem natAbs_gateShape_le (cmd : Int) (md : SysMode) : (gateShape cmd md).natAbs ≤ 1000 := by
  have hb := gateShape_bounds cmd md
  omega

theorem natAbs_gateShape_pf_le (cmd : Int) : (gateShape cmd .pf).natAbs ≤ 200 := by
  rw [(gateShapeClampsThenZeroes cmd).2]
  split_ifs <;> omega

/-- The clamps and the dead-zone never flip a sign. -/
theorem sign_gateShape {cmd : Int} {md : SysMode} (h : gateShape cmd md ≠ 0) : (gateShape cmd md).sign = cmd.sign := by
  rcases gateShape_bounds cmd md with h0 | ⟨hcmd, hlo, -⟩ | ⟨hcmd, hhi, -⟩
  · exact absurd h0 h
  · rw [Int.sign_eq_one_of_pos hcmd, Int.sign_eq_one_of_pos (by omega)]
  · rw [Int.sign_eq_neg_one_of_neg hcmd, Int.sign_eq_neg_one_of_neg (by omega)]

/-! The duty and the direction lines (R121). -/

theorem gateDir_zero (p : DirPolarity) : gateDir p 0 = ⟨0, false, false⟩ := rfl

theorem toNat_gateDir_duty (p : DirPolarity) {c : Int} (h : c.natAbs < 65536) : (gateDir p c).duty.toNat = c.natAbs := by
  rcases lt_trichotomy c 0 with hc | rfl | hc
  · have hnat := toNat_ofInt16 (c := -c) (by omega) (by omega)
    rw [gateDir_neg p hc]
    dsimp only
    omega
  · rfl
  · have hnat := toNat_ofInt16 hc.le (by omega)
    rw [gateDir_pos p hc]
    dsimp only
    omega

/-- The line that is high is the one DIR_POLARITY gives the command's sign. -/
theorem gateDir_lines (p : DirPolarity) {c : Int} (h : c ≠ 0) :
    ((gateDir p c).dira = true ↔ (0 < c ↔ p = .aPositive)) ∧ ((gateDir p c).dirb = true ↔ (0 < c ↔ p = .bPositive)) := by
  rcases lt_or_gt_of_ne h with hc | hc
  · rw [gateDir_neg p hc]
    cases p <;> simp [hc.le]
  · rw [gateDir_pos p hc]
    cases p <;> simp [hc]

theorem gateDir_not_both (p : DirPolarity) (c : Int) : ¬ ((gateDir p c).dira = true ∧ (gateDir p c).dirb = true) := by
  by_cases hc : c = 0
  · simp [hc, gateDir_zero]
  · rw [(gateDir_lines p hc).1, (gateDir_lines p hc).2]
    cases p <;> simp

/-- Settles O43: `gateDir` on each side of zero. -/
theorem gateDirSelectsOneLine : Obligations.GateDirSelectsOneLine := by
  refine ⟨gateDir_zero, fun c hpos hle => ?_, gateDir_not_both⟩
  have hneg : -c < 0 := by omega
  rw [gateDir_pos _ hpos, gateDir_pos _ hpos, gateDir_neg _ hneg, gateDir_neg _ hneg, neg_neg]
  exact ⟨rfl, rfl, rfl, rfl, toNat_ofInt16 hpos.le (by omega)⟩

/-! GATE_APPLY as a whole (R123, R124). -/

/-- Settles O44: such a command is shaped to zero, which drives neither line. -/
theorem smallCommandsStopTheMotor : Obligations.SmallCommandsStopTheMotor := by
  intro m md cmd s hsmall
  have hzero : gateShape cmd.toInt md = 0 := by
    rcases hsmall with ⟨rfl, h⟩ | ⟨rfl, h⟩
    · exact gateShape_vc_of_small h
    · exact gateShape_pf_of_small h
  rw [(gateApplyDrivesTheMotor m md cmd s).2, hzero, gateDir_zero]
  rfl

/-- Settles O45: the duty is the shaped command's magnitude, and the lines follow its sign, which is the command's. -/
theorem dutySaturatesAndKeepsTheSign : Obligations.DutySaturatesAndKeepsTheSign := by
  intro m md cmd s
  have hduty : (gateDir s.cfg.dirPolarity (gateShape cmd.toInt md)).duty.toNat = (gateShape cmd.toInt md).natAbs :=
    toNat_gateDir_duty _ ((natAbs_gateShape_le _ _).trans_lt (by decide))
  refine ⟨_, (gateApplyDrivesTheMotor m md cmd s).2, ?_⟩
  simp only [Two.get_set_self, hduty]
  refine ⟨natAbs_gateShape_le _ _, ?_, sign_gateShape, fun hrun => ?_⟩
  · rintro rfl
    exact natAbs_gateShape_pf_le _
  · have hne : gateShape cmd.toInt md ≠ 0 := fun h0 => hrun (by rw [h0, gateDir_zero])
    have hpos : 0 < gateShape cmd.toInt md ↔ 0 < cmd.toInt := by
      rw [← Int.sign_eq_one_iff_pos, sign_gateShape hne, Int.sign_eq_one_iff_pos]
    rw [← hpos]
    exact gateDir_lines _ hne

end Sys2Proof.Machine
end

section
/-! PROOFS. Block control: NOP and STATUS_READ (R140, R141). -/

open Sys2Proof.Claims

namespace Sys2Proof

/-- The frame of NOP is all zero (R140). -/
theorem encode_nop : encode .nop = 0 := by decide

end Sys2Proof

namespace Sys2Proof.Machine

/-- The sticky register as STATUS_READ places it in R0: zeros above its five bits (R141). -/
theorem setWidth32_fault_eq_append (x : BitVec 5) : (x.setWidth 32 : Word) = 0#27 ++ x := by
  rw [BitVec.setWidth_eq_append (by decide)]
  rfl

/-- Settles O21: the encoding is zero, and the effect is the response alone. -/
theorem nopAnswersOkAndChangesNothing : Obligations.NopAnswersOkAndChangesNothing := by
  refine ⟨fun f => ?_, fun s => rfl⟩
  rw [decode_eq_ok_iff_eq_encode, encode_nop]

/-- Settles O22: the encoding is the written-out frame, and the effect is the response with FAULT as it was. -/
theorem statusReadAnswersFault : Obligations.StatusReadAnswersFault := by
  refine ⟨fun f => ?_, fun s => ?_⟩
  · rw [decode_eq_ok_iff_eq_encode, encode, Frame.make_false_false]
    rfl
  · simp only [exec, execStatusRead, setWidth32_fault_eq_append]
    rfl

end Sys2Proof.Machine
end

section
/-! PROOFS. Errors: what a step that raises one changes, how long FAULT keeps it, and which error a frame raises (R150
to R153); and the idle step (R163). -/

namespace Sys2Proof.Machine

/-- Settles O10: nothing waiting is the first case of a step. -/
theorem idleStepHoldsTheState : Obligations.IdleStepHoldsTheState := fun _ => step_nil

/-! The effect of an error (R151, R152). -/

theorem ErrorCode.faultMask_eq_shiftLeft (e : ErrorCode) : e.faultMask = 1#5 <<< (e.code.toNat - 1) := by
  cases e <;> rfl

section Step
variable {s t : State} {e : ErrorCode} {r0 r1 : Word}

/-- Of the cases of a step only a raised error answers with an error code. -/
theorem step_error_eq_raise (h : step s = .next t) (hr : t.responses = s.responses ++ [⟨.error e, r0, r1⟩]) :
    t = (s.withInputs s.inputs.tail).raise e := by
  rcases step_next_cases h with
    rfl | ⟨rest, rfl⟩ | ⟨rest, -, rfl⟩ | ⟨f, rest, hin, ⟨e', rfl⟩ | ⟨i, u, q0, q1, -, hw, rfl⟩⟩
  · simp at hr
  · simp at hr
  · simp at hr
  · obtain ⟨rfl, -, -⟩ : e' = e ∧ 0 = r0 ∧ 0 = r1 := by simpa using hr
    have htail : s.inputs.tail = rest := by
      rcases hin with hin | ⟨bs, -, hin⟩ <;> rw [hin, List.tail_cons]
    rw [htail]
  · obtain ⟨-, -, -, hres⟩ := hw.keeps
    simp [hres] at hr

/-- A step that serves no reset leaves FAULT as it was, or adds the bit of the error it answers. -/
theorem step_fault (h : step s = .next t) (hreset : ∀ rest, s.inputs ≠ .reset :: rest) :
    t.fault = s.fault ∨
    ∃ e, t.fault = setFault s.fault e ∧ t.responses = s.responses ++ [⟨.error e, 0, 0⟩] := by
  rcases step_next_cases h with
    rfl | ⟨rest, rfl⟩ | ⟨rest, hin, -⟩ | ⟨f, rest, -, ⟨e, rfl⟩ | ⟨i, u, r0, r1, -, hw, rfl⟩⟩
  · exact .inl rfl
  · exact .inl rfl
  · exact absurd hin (hreset rest)
  · exact .inr ⟨e, rfl, rfl⟩
  · obtain ⟨-, hfault, -, -⟩ := hw.keeps
    exact .inl hfault

end Step

/-- Settles O17: an error response is `State.raise`'s, whose mask is the code's bit. -/
theorem anErrorHasNoOtherEffect : Obligations.AnErrorHasNoOtherEffect := by
  intro s t e r0 r1 h hr
  rw [← ErrorCode.faultMask_eq_shiftLeft]
  exact step_error_eq_raise h hr

/-- Settles O18: but for a reset, `step_fault` leaves FAULT or sets the error's bit in it, which makes it no zero. -/
theorem faultIsStickyUntilReset : Obligations.FaultIsStickyUntilReset := by
  refine ⟨fun s t h hreset => ⟨fun k hk => ?_, fun r0 r1 hok => ?_, fun e r0 r1 hr => ?_⟩,
    fun s t rest hin h => ?_, fun s t h hne h0 => ?_⟩
  · rcases step_fault h hreset with hfault | ⟨e, hfault, -⟩ <;> rw [hfault]
    · exact hk
    · exact (setFault_getLsbD s.fault e).1 k hk
  · rcases step_fault h hreset with hfault | ⟨e, -, hr⟩
    · exact hfault
    · simp [hok] at hr
  · rw [step_error_eq_raise h hr]
    exact (setFault_getLsbD s.fault e).2
  · obtain rfl := Host.Outcome.next.inj ((step_reset hin).symm.trans h)
    rfl
  · by_contra hno
    rcases step_fault h fun rest hin => hno ⟨rest, hin⟩ with hfault | ⟨e, hfault, -⟩
    · exact hne (hfault.symm.trans h0)
    · exact setFault_ne_zero s.fault e (hfault.symm.trans h0)

/-! The error of a frame (R153). -/

/-- When a frame raises an error, the conditions of the errors before it in R153's order excluded. It is exact, where
`Raises` keeps only the preconditions on the seed and the gains. -/
inductive FrameRaises (s : State) (f : Frame) : ErrorCode → Prop where
  | illegal (h : ∀ i, decode f ≠ .ok i) : FrameRaises s f .illegal
  | unseeded {a : Axis} {raw : BitVec 16} (hd : decode f = .ok (.encUpdate a raw)) (hl : s.last.get a = none) :
      FrameRaises s f .unseeded
  | encOverflow {a : Axis} {raw l : BitVec 16} (hd : decode f = .ok (.encUpdate a raw)) (hl : s.last.get a = some l)
      (hov : Overflows s.cfg.int32Overflow (s.nextPos a l raw)) : FrameRaises s f .overflow
  | vpidUnset {t y : BitVec 16} (hd : decode f = .ok (.vpidCompute t y))
      (hg : s.vkp = none ∨ s.vki = none ∨ s.vkd = none) : FrameRaises s f .gainsUnset
  | vpidNumeric {t y : BitVec 16} {kp ki kd : F32} (hd : decode f = .ok (.vpidCompute t y))
      (hg : s.HasVpidGains kp ki kd) (hn : f32IsNaN s.cfg.fpArith (s.vpidSum kp ki kd t y) = true) :
      FrameRaises s f .numeric
  | ppidUnset {t y : Word} (hd : decode f = .ok (.ppidCompute t y)) (hkp : s.pkp = none) : FrameRaises s f .gainsUnset
  | ppidOverflow {t y : Word} {kp : F32} (hd : decode f = .ok (.ppidCompute t y)) (hkp : s.pkp = some kp)
      (hov : Overflows s.cfg.int32Overflow (t.toInt - y.toInt)) : FrameRaises s f .overflow
  | ppidNumeric {t y : Word} {kp : F32} (hd : decode f = .ok (.ppidCompute t y)) (hkp : s.pkp = some kp)
      (hno : ¬ Overflows s.cfg.int32Overflow (t.toInt - y.toInt))
      (hn : f32IsNaN s.cfg.fpArith (s.ppidProduct kp t y) = true) : FrameRaises s f .numeric

section FrameRaises
variable {s : State} {f : Frame} {e e' : ErrorCode}

theorem FrameRaises.serveFrame_eq (h : FrameRaises s f e) : serveFrame f s = .next (s.raise e) := by
  cases h with
  | illegal h =>
    rcases serveFrame_cases f s with ⟨i, hd, -⟩ | ⟨-, hs⟩
    · exact absurd hd (h i)
    · exact hs
  | unseeded hd hl => exact (serveFrame_of_decode hd s).trans (exec_encUpdate_unseeded hl)
  | encOverflow hd hl hov => exact (serveFrame_of_decode hd s).trans (exec_encUpdate_overflow hl hov)
  | vpidUnset hd hg => exact (serveFrame_of_decode hd s).trans (exec_vpidCompute_unset hg)
  | vpidNumeric hd hg hn => exact (serveFrame_of_decode hd s).trans (exec_vpidCompute_nan hg hn)
  | ppidUnset hd hkp => exact (serveFrame_of_decode hd s).trans (exec_ppidCompute_unset hkp)
  | ppidOverflow hd hkp hov => exact (serveFrame_of_decode hd s).trans (exec_ppidCompute_overflow hkp hov)
  | ppidNumeric hd hkp hno hn => exact (serveFrame_of_decode hd s).trans (exec_ppidCompute_nan hkp hno hn)

theorem State.raise_injective (h : s.raise e = s.raise e') : e = e' := by
  simpa using congrArg State.responses h

theorem FrameRaises.unique (h : FrameRaises s f e) (h' : FrameRaises s f e') : e = e' :=
  State.raise_injective (Host.Outcome.next.inj (h.serveFrame_eq.symm.trans h'.serveFrame_eq))

variable (s f)

/-- The conditions are complete: a frame for which none holds is answered OK. -/
theorem frameRaises_or_ok : (∃ e, FrameRaises s f e) ∨
    ∃ t r0 r1, serveFrame f s = .next t ∧ t.responses = s.responses ++ [⟨.ok, r0, r1⟩] := by
  cases hd : decode f with
  | error d => exact .inl ⟨.illegal, .illegal fun i hi => by cases hd.symm.trans hi⟩
  | ok i =>
    rw [serveFrame_of_decode hd]
    cases i with
    | encUpdate a raw =>
      cases hl : s.last.get a with
      | none => exact .inl ⟨_, .unseeded hd hl⟩
      | some l =>
        by_cases hov : Overflows s.cfg.int32Overflow (s.nextPos a l raw)
        · exact .inl ⟨_, .encOverflow hd hl hov⟩
        · exact .inr ⟨_, _, _, exec_encUpdate_seeded hl hov, rfl⟩
    | vpidCompute t y =>
      rcases s.vpidGains_unset_or_set with hunset | ⟨kp, ki, kd, hg⟩
      · exact .inl ⟨_, .vpidUnset hd hunset⟩
      · cases hn : f32IsNaN s.cfg.fpArith (s.vpidSum kp ki kd t y) with
        | true => exact .inl ⟨_, .vpidNumeric hd hg hn⟩
        | false => exact .inr ⟨_, _, _, exec_vpidCompute_ok hg hn, rfl⟩
    | ppidCompute t y =>
      cases hkp : s.pkp with
      | none => exact .inl ⟨_, .ppidUnset hd hkp⟩
      | some kp =>
        by_cases hov : Overflows s.cfg.int32Overflow (t.toInt - y.toInt)
        · exact .inl ⟨_, .ppidOverflow hd hkp hov⟩
        cases hn : f32IsNaN s.cfg.fpArith (s.ppidProduct kp t y) with
        | true => exact .inl ⟨_, .ppidNumeric hd hkp hov hn⟩
        | false => exact .inr ⟨_, _, _, exec_ppidCompute_ok hkp hov hn, rfl⟩
    | _ => exact .inr ⟨_, _, _, rfl, rfl⟩

/-- A frame is answered with exactly the error it raises. -/
theorem serveFrame_status : ∃ t r, serveFrame f s = .next t ∧ t.responses = s.responses ++ [r] ∧
    ∀ e, r.status = .error e ↔ FrameRaises s f e := by
  rcases frameRaises_or_ok s f with ⟨e, he⟩ | ⟨t, r0, r1, hs, hr⟩
  · refine ⟨_, ⟨.error e, 0, 0⟩, he.serveFrame_eq, rfl, fun e' => ⟨fun hst => ?_, fun he' => ?_⟩⟩
    · rwa [← Status.error.inj hst]
    · rw [he.unique he']
  · refine ⟨t, ⟨.ok, r0, r1⟩, hs, hr, fun e => ⟨fun hst => (by cases hst), fun he => ?_⟩⟩
    obtain rfl := Host.Outcome.next.inj (hs.symm.trans he.serveFrame_eq)
    simp at hr

end FrameRaises

theorem Status.eq_ok_iff (st : Status) : st = .ok ↔ ∀ e, st ≠ .error e := by
  cases st <;> simp

/-- Settles O19: each status's condition collects the cases of `FrameRaises` for its code. -/
theorem errorsFollowThePriorityOrder : Obligations.ErrorsFollowThePriorityOrder := by
  intro s f rest hin
  obtain ⟨t, r, hs, hr, hstatus⟩ := serveFrame_status (s.withInputs rest) f
  refine ⟨t, r, (step_request hin).trans hs, hr, ?_⟩
  intro fp outOf32 illegal unseeded gainsUnset overflow numeric
  have hillegal : r.status = .error .illegal ↔ illegal := by
    refine (hstatus _).trans ⟨fun h => ?_, .illegal⟩
    cases h with
    | illegal h => exact h
  have hunseeded : r.status = .error .unseeded ↔ unseeded := by
    refine (hstatus _).trans ⟨fun h => ?_, fun ⟨a, raw, hd, hl⟩ => .unseeded hd hl⟩
    cases h with
    | unseeded hd hl => exact ⟨_, _, hd, hl⟩
  have hgains : r.status = .error .gainsUnset ↔ gainsUnset := by
    refine (hstatus _).trans ⟨fun h => ?_, ?_⟩
    · cases h with
      | vpidUnset hd hg => exact .inl ⟨_, _, hd, hg⟩
      | ppidUnset hd hkp => exact .inr ⟨_, _, hd, hkp⟩
    · rintro (⟨x, y, hd, hg⟩ | ⟨x, y, hd, hkp⟩)
      · exact .vpidUnset hd hg
      · exact .ppidUnset hd hkp
  have hoverflow : r.status = .error .overflow ↔ overflow := by
    refine (hstatus _).trans ⟨fun h => ?_, ?_⟩
    · cases h with
      | encOverflow hd hl hov => exact ⟨hov.2, .inl ⟨_, _, _, hd, hl, hov.1⟩⟩
      | ppidOverflow hd hkp hov => exact ⟨hov.2, .inr ⟨_, _, hd, Option.isSome_of_eq_some hkp, hov.1⟩⟩
    · rintro ⟨hfault, ⟨a, raw, l, hd, hl, hout⟩ | ⟨x, y, hd, hset, hout⟩⟩
      · exact .encOverflow hd hl ⟨hout, hfault⟩
      · obtain ⟨kp, hkp⟩ := Option.isSome_iff_exists.1 hset
        exact .ppidOverflow hd hkp ⟨hout, hfault⟩
  have hnumeric : r.status = .error .numeric ↔ numeric := by
    refine (hstatus _).trans ⟨fun h => ?_, ?_⟩
    · have hno : ¬ overflow := fun hov => by cases h.unique ((hstatus _).1 (hoverflow.2 hov))
      cases h with
      | vpidNumeric hd hg hn => exact .inl ⟨_, _, _, _, _, hd, hg.vkp, hg.vki, hg.vkd, hn⟩
      | ppidNumeric hd hkp _ hn => exact .inr ⟨_, _, _, hd, hkp, hno, hn⟩
    · rintro (⟨x, y, kp, ki, kd, hd, hkp, hki, hkd, hn⟩ | ⟨x, y, kp, hd, hkp, hno, hn⟩)
      · exact .vpidNumeric hd ⟨hkp, hki, hkd⟩ hn
      · refine .ppidNumeric hd hkp (fun hov => hno ?_) hn
        exact hoverflow.1 ((hstatus _).2 (.ppidOverflow hd hkp hov))
  refine ⟨hillegal, hunseeded, hgains, hoverflow, hnumeric, ?_⟩
  rw [← hillegal, ← hunseeded, ← hgains, ← hoverflow, ← hnumeric, Status.eq_ok_iff]
  refine ⟨fun h => ⟨h _, h _, h _, h _, h _⟩, fun ⟨_, _, _, _, _⟩ e => ?_⟩
  cases e <;> assumption

end Sys2Proof.Machine
end

section
/-! PROOFS. The race of a VPID_RESET and a VPID_COMPUTE (R176). -/

namespace Sys2Proof.Machine

section Race
variable {s u : State} {t y : BitVec 16}

@[simp] theorem State.vpidUpdate_e0 {sum : F32} :
    (s.vpidUpdate t y sum).e0 = BitVec.ofInt 32 (t.toInt - y.toInt) := rfl

/-- The new error is stored without wrapping. -/
theorem toInt_ofInt32_toInt_sub_toInt (t y : BitVec 16) :
    (BitVec.ofInt 32 (t.toInt - y.toInt)).toInt = t.toInt - y.toInt := by
  obtain ⟨hlo, hhi⟩ := abs_le.1 (abs_toInt_sub_toInt_le t y)
  rw [toInt_ofInt32, wrapS32_of_mem (by omega) (by omega)]

theorem exec_vpidReset (s : State) : exec .vpidReset s = .next ((s.writeVpid 0 0 0 0).respondOk 0 0) := rfl

/-- A compute that succeeds shifts a zero history, and one that fails leaves it. -/
theorem exec_vpidCompute_of_zero_history (t y : BitVec 16) (h0 : s.e0 = 0) (h1 : s.e1 = 0) (h2 : s.e2 = 0) :
    ∃ v, exec (.vpidCompute t y) s = .next v ∧ v.e1 = 0 ∧ v.e2 = 0 := by
  rcases exec_cases (.vpidCompute t y) s with ⟨e, -, he⟩ | ⟨w, r0, r1, hw, he⟩
  · exact ⟨_, he, h1, h2⟩
  · cases hw
    exact ⟨_, he, h0, h1⟩

theorem exec_vpidCompute_ok_e0 {r0 r1 : Word} (h : exec (.vpidCompute t y) s = .next u)
    (hr : u.responses = s.responses ++ [⟨.ok, r0, r1⟩]) : u.e0.toInt = t.toInt - y.toInt := by
  obtain ⟨kp, ki, kd, -, -, rfl⟩ := exec_vpidCompute_inv h hr
  rw [State.vpidUpdate_e0, toInt_ofInt32_toInt_sub_toInt]

end Race

/-- Settles O36: the reset zeroes whatever history the compute left, and the compute shifts or keeps the zero history that the
reset left. -/
theorem resetComputeRaceHasBothOrders : Obligations.ResetComputeRaceHasBothOrders := by
  refine fun t y s => ⟨?_, ?_⟩
  · obtain ⟨u, hu, -⟩ := exec_withInputs (.vpidCompute t y) s []
    exact ⟨u, _, hu, exec_vpidReset u, rfl, rfl, rfl, rfl⟩
  · obtain ⟨v, hv, he1, he2⟩ :=
      exec_vpidCompute_of_zero_history (s := (s.writeVpid 0 0 0 0).respondOk 0 0) t y rfl rfl rfl
    exact ⟨_, v, exec_vpidReset s, hv, he1, he2, fun _ _ => exec_vpidCompute_ok_e0 hv⟩

end Sys2Proof.Machine
end
